-- ==== Sys2Proof/Word.lean ====
section
/-! DEFINITION. The plain types of the block: its words (00_scope.md R11, 10_state.md R24), the two enumerations
Mode and Rot (R11), the wire events (R13), rectangles over the integers (R11, R126), the host request record
(30_encoding.md R68), and the two kinds of packet a decoder reads. -/

namespace Sys2Proof

/-- `u8` of R11: a command code, a byte on the link. -/
abbrev Byte := BitVec 8

/-- `u16` of R11: coordinates, extents, range bounds (R24). -/
abbrev U16 := BitVec 16

/-- `u32` of R11: a LogicalColor (R24). -/
abbrev U32 := BitVec 32

/-- `bit` of R11: `true` is 1, electrically high; `false` is 0, electrically low. -/
abbrev Bit := Bool

/-- `Mode` of R11 (ColorMode): the register `MODE` of R21 and the operand of `setBpp`. -/
inductive Mode where
  | unset | b12 | b16 | b18 | b16t
deriving DecidableEq, Repr

/-- `Rot` of R11, in the source's listing order (R70). -/
inductive Rot where
  | portrait | landscape | portrait180 | landscape180
deriving DecidableEq, Repr

/-- A wire event (R13): a level written to one of the four lines, one byte on the link, or a wait of at least `ms`
milliseconds. -/
inductive Event where
  | cs (l : Bit)
  | dc (l : Bit)
  | rst (l : Bit)
  | bl (l : Bit)
  | tx (b : Byte)
  | delay (ms : Nat)
deriving DecidableEq, Repr

/-- A rectangle `(x, y, w, h)` whose arithmetic is over the integers and never wraps (R11, R126); every quantity of
the rasterizer is unsigned, so the naturals serve. -/
structure Rect where
  x : Nat
  y : Nat
  w : Nat
  h : Nat
deriving DecidableEq, Repr

/-- One call `drawSolidRect(x, y, w, h, color)` that the text renderer makes (R150), before its operands are known to
fit `u16` (R152). -/
structure DrawCall where
  rect : Rect
  color : U32
deriving DecidableEq, Repr

/-- A glyph: 8 rows of one byte, row 0 at the top, bit 7 the leftmost pixel (R151). -/
abbrev Glyph := Vector Byte 8

/-- The host request record `(op, a, b, c, d, e, payload)` of R68. The payload carries a byte sequence (`sendData`) or
a character-code sequence (`drawText`). -/
structure Request where
  op : Byte
  a : U16 := 0
  b : U16 := 0
  c : U16 := 0
  d : U16 := 0
  e : U32 := 0
  payload : List Nat := []
deriving DecidableEq, Repr

/-- What a decoder reads: a host request (the `HOST` rows of the opcode table) or the events of one frame on the wire
(the `WIRE_CMD` and `WIRE_FRAME` rows), R76. -/
inductive Packet where
  | request (r : Request)
  | frame (evs : List Event)
deriving DecidableEq, Repr

end Sys2Proof
end

