-- ==== Sys2Proof/Config.lean ====
section
/-! DEFINITION. The configuration record `K` of 00_scope.md R8, fixed at construction. Fields whose value the spec
gives (general-knowledge defaults GK, or a decision of the spec) are values; fields the spec marks OPEN are opaque
constants, so that nothing proved about `Config.K` can rest on a number for them (log entries 1 and 2). -/

namespace Sys2Proof

/-- `K.LINKCFG` of R8: "clock mode/phase/polarity, target clock rate, source clock rate", passed through to the
transport and not reinterpreted by the block: no rule reads it. -/
structure LinkCfg where
  clockMode : Nat
  clockPhase : Nat
  clockPolarity : Nat
  targetRate : Nat
  sourceRate : Nat
deriving DecidableEq, Repr

/-- `K.TWELVE_BIT_FRAMES` of R8 (D9): what the pixel loop emits in 12-bit mode. -/
inductive TwelveBitFrames where
  | emptyFrames | noFrames
deriving DecidableEq, Repr

/-- The four bytes `K.ROT_BYTE[r]` of R8 and R65. -/
structure RotBytes where
  portrait : Byte
  landscape : Byte
  portrait180 : Byte
  landscape180 : Byte
deriving DecidableEq, Repr

/-- The configuration record `K` of R8, field by field under the spec's names. `FONT` is the partial map from a
character code to its 8 bytes, as a list of pairs of which the first with a code counts. -/
structure Config where
  WIDTH : U16
  HEIGHT : U16
  LINKCFG : LinkCfg
  CMD_SWRESET : Byte
  CMD_SLPIN : Byte
  CMD_SLPOUT : Byte
  CMD_NORON : Byte
  CMD_INVOFF : Byte
  CMD_INVON : Byte
  CMD_DISPOFF : Byte
  CMD_DISPON : Byte
  CMD_CASET : Byte
  CMD_RASET : Byte
  CMD_RAMWR : Byte
  CMD_MADCTL : Byte
  CMD_COLMOD : Byte
  IFACE_65K : Byte
  IFACE_262K : Byte
  DEPTH_12 : Byte
  DEPTH_16 : Byte
  DEPTH_16T : Byte
  ROT_BYTE : RotBytes
  TWELVE_BIT_FRAMES : TwelveBitFrames
  INIT_MODE : Mode
  INIT_ROT : Rot
  INIT_COLOR : U32
  FONT : List (Nat × Glyph)
  INIT_FG : U32
  INIT_BG : Option U32
  INIT_SX : Nat
  INIT_SY : Nat
deriving DecidableEq, Repr

/-- OPEN (R8): `K.WIDTH - 1`; the range 1..65535 is D4. -/
opaque Config.openWidthLessOne : Fin 65535

/-- OPEN (R8): `K.HEIGHT - 1`; the range 1..65535 is D4. -/
opaque Config.openHeightLessOne : Fin 65535

/-- OPEN (R8): the five opaque numbers of `K.LINKCFG`. -/
opaque Config.openLink : Fin 5 → Nat

/-- OPEN (R8, R65, D8): the four rotation bytes. -/
opaque Config.openRotByte : Fin 4 → Byte

/-- OPEN (R8, D23): which of the four settable modes `K.INIT_MODE` is. -/
opaque Config.openInitMode : Fin 4

/-- OPEN (R8, D23): which of the four rotations `K.INIT_ROT` is. -/
opaque Config.openInitRot : Fin 4

/-- OPEN (R8, D23): `K.INIT_COLOR`. -/
opaque Config.openInitColor : U32

/-- OPEN (R8, R151): the font table, an external collaborator. -/
opaque Config.openFont : List (Nat × Glyph)

/-- OPEN (R8, D14): `K.INIT_FG`. -/
opaque Config.openInitFg : U32

/-- OPEN (R8, D14): `K.INIT_BG`. -/
opaque Config.openInitBg : Option U32

/-- OPEN (R8, D14): `K.INIT_SX - 1` (the scale is at least 1). -/
opaque Config.openInitSxLessOne : Nat

/-- OPEN (R8, D14): `K.INIT_SY - 1` (the scale is at least 1). -/
opaque Config.openInitSyLessOne : Nat

/-- The four settable modes, in the encoding order of R70 less one. -/
def Config.settableMode (n : Fin 4) : Mode :=
  match n with
  | 0 => .b12
  | 1 => .b16
  | 2 => .b18
  | 3 => .b16t

/-- The four rotations in the encoding order of R70. -/
def Config.rotOf (n : Fin 4) : Rot :=
  match n with
  | 0 => .portrait
  | 1 => .landscape
  | 2 => .portrait180
  | 3 => .landscape180

/-- The configuration of R8: the GK defaults (G1, G2) and the decision D9 as values, every OPEN field an opaque
constant. A claim about a literal command byte of this record rests on general knowledge (D6). -/
def Config.K : Config where
  WIDTH := BitVec.ofNat 16 (Config.openWidthLessOne.val + 1)
  HEIGHT := BitVec.ofNat 16 (Config.openHeightLessOne.val + 1)
  LINKCFG := ⟨Config.openLink 0, Config.openLink 1, Config.openLink 2, Config.openLink 3, Config.openLink 4⟩
  CMD_SWRESET := 0x01
  CMD_SLPIN := 0x10
  CMD_SLPOUT := 0x11
  CMD_NORON := 0x13
  CMD_INVOFF := 0x20
  CMD_INVON := 0x21
  CMD_DISPOFF := 0x28
  CMD_DISPON := 0x29
  CMD_CASET := 0x2A
  CMD_RASET := 0x2B
  CMD_RAMWR := 0x2C
  CMD_MADCTL := 0x36
  CMD_COLMOD := 0x3A
  IFACE_65K := 0x50
  IFACE_262K := 0x60
  DEPTH_12 := 0x03
  DEPTH_16 := 0x05
  DEPTH_16T := 0x07
  ROT_BYTE := ⟨Config.openRotByte 0, Config.openRotByte 1, Config.openRotByte 2, Config.openRotByte 3⟩
  TWELVE_BIT_FRAMES := .emptyFrames
  INIT_MODE := Config.settableMode Config.openInitMode
  INIT_ROT := Config.rotOf Config.openInitRot
  INIT_COLOR := Config.openInitColor
  FONT := Config.openFont
  INIT_FG := Config.openInitFg
  INIT_BG := Config.openInitBg
  INIT_SX := Config.openInitSxLessOne + 1
  INIT_SY := Config.openInitSyLessOne + 1

/-- OPEN (R31, U9): the level of `PIN.DC` at reset, a free draw. -/
opaque Config.resetDC : Bit

/-- OPEN (R31, U9): the level of `PIN.RST` at reset, a free draw. -/
opaque Config.resetRST : Bit

/-- OPEN (R31, U9): the level of `PIN.BL` at reset, a free draw. -/
opaque Config.resetBL : Bit

/-- The environment's choice (R42) of which transfer of the run fails, how many of its bytes reach the wire, and
whether it then never completes: `none` when every transfer succeeds. A free value, drawn once per run. -/
opaque Config.linkChoice : Option (Nat × Nat × Bool)

end Sys2Proof
end

