-- ==== Sys2Proof/Machine/Operands.lean ====
section
/-! DEFINITION. Every operand form and every byte the block sends, from the operands (30_encoding.md R63 to R66 and
R71): byte extraction, the range parameter, the colour-mode byte, the rotation byte, the pixel packer, the clamp of
the rasterizer (43_rasterizer.md R121), the bits of a glyph (45_text.md R151). -/

namespace Sys2Proof.Machine

/-- `hi8(v) = v[15:8]` (R10). -/
def hi8 (v : U16) : Byte := v.extractLsb' 8 8

/-- `lo8(v) = v[7:0]` (R10). -/
def lo8 (v : U16) : Byte := v.extractLsb' 0 8

/-- The `u16` whose most significant byte is `h`: how the sink reads a range bound (R44, R48: `p[0] * 256 + p[1]`). -/
def joinBytes (h l : Byte) : U16 := h ++ l

/-- `RangeParam(start, end)` of R63: big-endian start, big-endian end. -/
def rangeParam (start stop : U16) : List Byte := [hi8 start, lo8 start, hi8 stop, lo8 stop]

/-- `ModeByte` of R102 (the fixed table of R64), its 18-bit row reusing the 12-bit depth bits on purpose. -/
def modeByte (K : Config) (m : Mode) : Byte :=
  match m with
  | .b12 => K.IFACE_65K ||| K.DEPTH_12
  | .b16 => K.IFACE_65K ||| K.DEPTH_16
  | .b16t => K.IFACE_65K ||| K.DEPTH_16T
  | .b18 => K.IFACE_262K ||| K.DEPTH_12
  | .unset => K.IFACE_65K ||| K.DEPTH_16

/-- `K.ROT_BYTE[r]` (R65). -/
def rotByte (K : Config) (r : Rot) : Byte :=
  match r with
  | .portrait => K.ROT_BYTE.portrait
  | .landscape => K.ROT_BYTE.landscape
  | .portrait180 => K.ROT_BYTE.portrait180
  | .landscape180 => K.ROT_BYTE.landscape180

/-- `Pack(mode, color)` of R104: direct truncation. R104 gives no row for `UNSET` (every draw returns before packing);
no byte is packed there. -/
def pack (m : Mode) (c : U32) : List Byte :=
  match m with
  | .b16 => [c.extractLsb' 8 8, c.extractLsb' 0 8]
  | .b18 => [c.extractLsb' 16 8, c.extractLsb' 8 8, c.extractLsb' 0 8]
  | .b16t => [c.extractLsb' 16 8, c.extractLsb' 8 8, c.extractLsb' 0 8]
  | .b12 => []
  | .unset => []

/-- `bpp(mode)` of R103; R103 leaves `bpp(UNSET)` undefined. -/
def bpp (m : Mode) : Option Nat :=
  match m with
  | .b16 => some 2
  | .b18 => some 3
  | .b16t => some 3
  | .b12 => some 0
  | .unset => none

/-- The clamp, step 2 of R120 (R121): four guarded assignments in the source's order, each test seeing the values
already updated. -/
def clamp (K : Config) (r : Rect) : Rect :=
  let W := K.WIDTH.toNat
  let H := K.HEIGHT.toNat
  let x := if W ≤ r.x then W - 1 else r.x
  let y := if H ≤ r.y then H - 1 else r.y
  let w := if W ≤ x + r.w then W - x else r.w
  let h := if H ≤ y + r.h then H - y else r.h
  ⟨x, y, w, h⟩

/-- The rectangle a `drawSolidRect` request names, its operands widened to the integers (R126). -/
def rectOf (x y w h : U16) : Rect := ⟨x.toNat, y.toNat, w.toNat, h.toNat⟩

/-- The rectangle `fill` draws: `(0, 0, K.WIDTH, K.HEIGHT)` (R125). -/
def surface (K : Config) : Rect := ⟨0, 0, K.WIDTH.toNat, K.HEIGHT.toNat⟩

/-- Bit `col` of glyph row `row`; bit 7 is the leftmost pixel (R151). -/
def glyphBit (g : Glyph) (row col : Nat) : Bit := (g[row]?.getD 0).getLsbD col

/-- `K.FONT[ch]`, a partial map (R151, R156). -/
def fontGlyph (K : Config) (ch : Nat) : Option Glyph := K.FONT.lookup ch

/-- The character code that `drawText` treats specially (R154). -/
def newline : Nat := 0x0A

end Sys2Proof.Machine
end

