-- ==== Sys2Proof/Machine/Flags.lean ====
section
/-! DEFINITION. The conditions that steer the block (10_state.md R27): it has no condition codes, only the predicate
on `MODE`, the range predicate of 42_window.md R110, and the admitted subset of 43_rasterizer.md R126. The flag
`FAULT` (R27 (c)) is a field of State. -/

namespace Sys2Proof.Machine

/-- `InRange(start, end, dim)` of R110, both comparisons unsigned. -/
def inRange (start stop dim : U16) : Bool := decide (start ≤ stop) && decide (stop < dim)

/-- The draw predicate of R27 (a) and R106: the colour mode is the unset sentinel. -/
def modeUnset (m : Mode) : Bool := m == .unset

/-- The admitted subset of `drawSolidRect` (R120, R126): both extents at least 1 and both sums of step 2, which use the
clamped corner, at most 65535. -/
def rectAdmitted (K : Config) (r : Rect) : Bool :=
  decide (1 ≤ r.w) && decide (1 ≤ r.h) && decide ((clamp K r).x + r.w ≤ 65535) && decide ((clamp K r).y + r.h ≤ 65535)

/-- Whether a character code may stand in a text: the newline, or a code the font covers (R156). -/
def codeCovered (K : Config) (ch : Nat) : Bool := ch == newline || (fontGlyph K ch).isSome

end Sys2Proof.Machine
end

