-- ==== Sys2Proof/Syntax.lean ====
section
/-! DEFINITION. The instructions: one constructor per row of spec/opcode_table.json. The first 22 are the `HOST` rows
(the operations of 00_scope.md R2, operands as 30_encoding.md R69 lists them); the next 13 the `WIRE_CMD` rows (a
command frame with that code reaches the sink, R67); the last two the `WIRE_FRAME` rows (any other command frame, and
the data frame, R60 and R61). -/

namespace Sys2Proof

/-- The instructions of the block's host port and of the wire. -/
inductive Instr where
  | sendCommand (code : Byte)
  | sendData (bytes : List Byte)
  | setBpp (mode : Mode)
  | getBpp
  | setColumns (start stop : U16)
  | setRows (start stop : U16)
  | setWindow (x0 y0 x1 y1 : U16)
  | drawSolidRect (x y w h : U16) (color : U32)
  | fill (color : U32)
  | hardReset
  | softReset
  | setSleepMode (on : Bit)
  | setInversionMode (on : Bit)
  | setDisplay (on : Bit)
  | setBacklight (on : Bit)
  | setRotation (rot : Rot)
  | setNormalMode
  | bringUp
  | drawText (x y : U16) (text : List Nat)
  | setForeground (color : U32)
  | setBackground (bg : Option U32)
  | setPixelScale (sx sy : U16)
  | cmdSwreset
  | cmdSlpin
  | cmdSlpout
  | cmdNoron
  | cmdInvoff
  | cmdInvon
  | cmdDispoff
  | cmdDispon
  | cmdCaset
  | cmdRaset
  | cmdRamwr
  | cmdMadctl
  | cmdColmod
  | cmdFrame (c : Byte)
  | dataFrame (bs : List Byte)
deriving DecidableEq, Repr

end Sys2Proof
end

