-- ==== Sys2Proof/WellFormed.lean ====
section
/-! DEFINITION. What a well-formed configuration and a well-formed instruction are: the ranges of 00_scope.md R8 and
the admitted operands of 30_encoding.md R72, 43_rasterizer.md R126, 45_text.md R153 and R156. -/

namespace Sys2Proof

/-- The thirteen command codes of R67. -/
def Config.codes (K : Config) : List Byte :=
  [K.CMD_SWRESET, K.CMD_SLPIN, K.CMD_SLPOUT, K.CMD_NORON, K.CMD_INVOFF, K.CMD_INVON, K.CMD_DISPOFF, K.CMD_DISPON,
    K.CMD_CASET, K.CMD_RASET, K.CMD_RAMWR, K.CMD_MADCTL, K.CMD_COLMOD]

/-- The ranges of R8 (D4, D23, D14) and the distinctness of the thirteen codes (R67). -/
abbrev Config.Wf (K : Config) : Prop :=
  1 ≤ K.WIDTH.toNat ∧ 1 ≤ K.HEIGHT.toNat ∧ K.INIT_MODE ≠ .unset ∧ 1 ≤ K.INIT_SX ∧ 1 ≤ K.INIT_SY ∧ K.codes.Nodup

/-- Whether an instruction is a host request (a `HOST` row of the opcode table). -/
def Instr.isHost (i : Instr) : Bool :=
  match i with
  | .sendCommand _ | .sendData _ | .setBpp _ | .getBpp | .setColumns _ _ | .setRows _ _ | .setWindow _ _ _ _ => true
  | .drawSolidRect _ _ _ _ _ | .fill _ | .hardReset | .softReset | .setSleepMode _ | .setInversionMode _ => true
  | .setDisplay _ | .setBacklight _ | .setRotation _ | .setNormalMode | .bringUp | .drawText _ _ _ => true
  | .setForeground _ | .setBackground _ | .setPixelScale _ _ => true
  | .cmdSwreset | .cmdSlpin | .cmdSlpout | .cmdNoron | .cmdInvoff | .cmdInvon | .cmdDispoff | .cmdDispon => false
  | .cmdCaset | .cmdRaset | .cmdRamwr | .cmdMadctl | .cmdColmod | .cmdFrame _ | .dataFrame _ => false

/-- The operands the spec admits for an instruction under a configuration: `setBpp` not of `UNSET` (R72 (b));
`drawSolidRect` in its admitted subset (R126); a text of covered codes (R156); scales of at least 1 (R153); a frame
row `CmdFrame` for a code that no `WIRE_CMD` row names (R67: those codes have rows of their own). -/
def Instr.wf (K : Config) (i : Instr) : Bool :=
  match i with
  | .setBpp mode => mode != .unset
  | .drawSolidRect x y w h _ => Machine.rectAdmitted K (Machine.rectOf x y w h)
  | .drawText _ _ text => text.all (Machine.codeCovered K)
  | .setPixelScale sx sy => decide (1 ≤ sx.toNat) && decide (1 ≤ sy.toNat)
  | .cmdFrame c => !K.codes.contains c
  | .sendCommand _ | .sendData _ | .getBpp | .setColumns _ _ | .setRows _ _ | .setWindow _ _ _ _ => true
  | .fill _ | .hardReset | .softReset | .setSleepMode _ | .setInversionMode _ => true
  | .setDisplay _ | .setBacklight _ | .setRotation _ | .setNormalMode | .bringUp => true
  | .setForeground _ | .setBackground _ => true
  | .cmdSwreset | .cmdSlpin | .cmdSlpout | .cmdNoron | .cmdInvoff | .cmdInvon | .cmdDispoff | .cmdDispon => true
  | .cmdCaset | .cmdRaset | .cmdRamwr | .cmdMadctl | .cmdColmod | .dataFrame _ => true

end Sys2Proof
end

