-- ==== Sys2Proof/Decode.lean ====
section
/-! DEFINITION. The two decoders of 30_encoding.md R76 and, after them, the encoder. A host request decodes by its
selector (R69, R70, R72); a frame on the wire by its selector line and, for a command frame, by the code (R60 to R62,
R67). Both are total and reject by name. The events of the two frames and the scanner that finds the next frame on the
wire (20_memory.md R48) stand here too. -/

namespace Sys2Proof

/-- Why a decoder refuses a packet. -/
inductive DecodeError where
  /-- R69, R72 (a): the selector is in no row of the table. -/
  | reservedSelector (op : Byte)
  /-- R70, R72 (b): a mode field of 5 to 7. -/
  | reservedMode (field : BitVec 3)
  /-- R68: the payload of `sendData` holds a number that is no byte. -/
  | payloadNotBytes
  /-- R62: the frame holds no selector event before its first byte. -/
  | selectorMissing
  /-- R60: a command frame does not hold exactly one byte. -/
  | commandLength (n : Nat)
  /-- R61: the packet holds no frame. -/
  | notAFrame
deriving DecidableEq, Repr

/-- The events of a frame of the given kind: the bracket of R62. -/
def frameEvents (kind : Bit) (bs : List Byte) : List Event :=
  [.cs false, .dc kind] ++ bs.map .tx ++ [.cs true]

/-- `CmdFrame(c)` of R60. -/
def cmdFrameEvents (c : Byte) : List Event := frameEvents false [c]

/-- `DataFrame(bs)` of R61. -/
def dataFrameEvents (bs : List Byte) : List Event := frameEvents true bs

/-- The 3-bit mode encoding of R70. -/
def decodeMode (field : BitVec 3) : Except DecodeError Mode :=
  match field.toNat with
  | 0 => .ok .unset
  | 1 => .ok .b12
  | 2 => .ok .b16
  | 3 => .ok .b18
  | 4 => .ok .b16t
  | _ => .error (.reservedMode field)

/-- The 3-bit mode encoding of R70, from the mode. -/
def encodeMode (m : Mode) : BitVec 3 :=
  match m with
  | .unset => 0
  | .b12 => 1
  | .b16 => 2
  | .b18 => 3
  | .b16t => 4

/-- The 2-bit rotation encoding of R70. -/
def decodeRot (field : BitVec 2) : Rot :=
  match field.toNat with
  | 0 => .portrait
  | 1 => .landscape
  | 2 => .portrait180
  | _ => .landscape180

/-- The 2-bit rotation encoding of R70, from the rotation. -/
def encodeRot (r : Rot) : BitVec 2 :=
  match r with
  | .portrait => 0
  | .landscape => 1
  | .portrait180 => 2
  | .landscape180 => 3

/-- An on/off operand as the 16-bit field `a` (R70: 1 = on). -/
def encodeBit (on : Bit) : U16 := if on then 1 else 0

/-- The request decoder: the selector map of R69 with the operand placement of its second column. Bits a placement
does not use are ignored (R68). -/
def decodeRequest (r : Request) : Except DecodeError Instr :=
  match r.op.toNat with
  | 0x01 => .ok (.sendCommand (r.a.extractLsb' 0 8))
  | 0x02 => if r.payload.all (· < 256) then .ok (.sendData (r.payload.map (BitVec.ofNat 8))) else .error .payloadNotBytes
  | 0x10 => (decodeMode (r.a.extractLsb' 0 3)).map Instr.setBpp
  | 0x11 => .ok .getBpp
  | 0x20 => .ok (.setColumns r.a r.b)
  | 0x21 => .ok (.setRows r.a r.b)
  | 0x22 => .ok (.setWindow r.a r.b r.c r.d)
  | 0x30 => .ok (.drawSolidRect r.a r.b r.c r.d r.e)
  | 0x31 => .ok (.fill r.e)
  | 0x40 => .ok .hardReset
  | 0x41 => .ok .softReset
  | 0x42 => .ok (.setSleepMode (r.a.getLsbD 0))
  | 0x43 => .ok (.setInversionMode (r.a.getLsbD 0))
  | 0x44 => .ok (.setDisplay (r.a.getLsbD 0))
  | 0x45 => .ok (.setBacklight (r.a.getLsbD 0))
  | 0x46 => .ok (.setRotation (decodeRot (r.a.extractLsb' 0 2)))
  | 0x47 => .ok .setNormalMode
  | 0x48 => .ok .bringUp
  | 0x50 => .ok (.drawText r.a r.b r.payload)
  | 0x51 => .ok (.setForeground r.e)
  | 0x52 => .ok (.setBackground (if r.a.getLsbD 0 then some r.e else none))
  | 0x53 => .ok (.setPixelScale r.a r.b)
  | _ => .error (.reservedSelector r.op)

/-- The `WIRE_CMD` row of a command code (R67), if one of the thirteen has it. -/
def namedCommand (K : Config) (c : Byte) : Option Instr :=
  if c = K.CMD_SWRESET then some .cmdSwreset
  else if c = K.CMD_SLPIN then some .cmdSlpin
  else if c = K.CMD_SLPOUT then some .cmdSlpout
  else if c = K.CMD_NORON then some .cmdNoron
  else if c = K.CMD_INVOFF then some .cmdInvoff
  else if c = K.CMD_INVON then some .cmdInvon
  else if c = K.CMD_DISPOFF then some .cmdDispoff
  else if c = K.CMD_DISPON then some .cmdDispon
  else if c = K.CMD_CASET then some .cmdCaset
  else if c = K.CMD_RASET then some .cmdRaset
  else if c = K.CMD_RAMWR then some .cmdRamwr
  else if c = K.CMD_MADCTL then some .cmdMadctl
  else if c = K.CMD_COLMOD then some .cmdColmod
  else none

/-- The command frame with code `c` as an instruction of the sink: its own row, or `CmdFrame` for any other code. -/
def decodeCommand (K : Config) (c : Byte) : Instr := (namedCommand K c).getD (.cmdFrame c)

/-- The bytes of a bracket, in order. -/
def bracketBytes (evs : List Event) : List Byte :=
  evs.filterMap fun e => match e with
    | .tx b => some b
    | _ => none

/-- The selector level in force at the first byte of a bracket (R48), as far as the bracket itself sets it: the last
`DC` event before the first `TX` (before the end, where there is no byte). -/
def bracketKind (evs : List Event) : Option Bit :=
  match evs with
  | [] => none
  | .dc l :: rest => some ((bracketKind rest).getD l)
  | .tx _ :: _ => none
  | _ :: rest => bracketKind rest

/-- The wire decoder: what the events between a `CS(0)` and the next `CS(1)` say (R62). Events of the other lines and
delays are ignored (R48). -/
def decodeBracket (K : Config) (evs : List Event) : Except DecodeError Instr :=
  match bracketKind evs with
  | none => .error .selectorMissing
  | some true => .ok (.dataFrame (bracketBytes evs))
  | some false =>
    match bracketBytes evs with
    | [c] => .ok (decodeCommand K c)
    | bs => .error (.commandLength bs.length)

/-- Whether a bracket is a frame that tells the sink something: a byte, or a data selector. The chip-select bracket of
`hardReset` holds neither (C7), and a command frame cut before its byte changes nothing (R48). -/
def isFrame (evs : List Event) : Bool := !(bracketBytes evs).isEmpty || bracketKind evs == some true

/-- The scanner of R48 inside a bracket, whose events so far are `acc`, newest first: the bracket ends at `CS(1)`, or at
the end of the wire when a fault has cut the frame; a bracket that is no frame is skipped. Answers the frame's events
and the events after it. -/
def nextBracket (acc : Option (List Event)) (evs : List Event) : Option (List Event × List Event) :=
  match evs, acc with
  | [], none => none
  | [], some a => if isFrame a.reverse then some (a.reverse, []) else none
  | .cs false :: rest, none => nextBracket (some []) rest
  | .cs true :: rest, some a => if isFrame a.reverse then some (a.reverse, rest) else nextBracket none rest
  | _ :: rest, none => nextBracket none rest
  | e :: rest, some a => nextBracket (some (e :: a)) rest

/-- The next frame on the wire and the events after it (R48). -/
def nextFrame (wire : List Event) : Option (List Event × List Event) := nextBracket none wire

/-- The decoder of packets (R76). -/
def decode (K : Config) (p : Packet) : Except DecodeError Instr :=
  match p with
  | .request r => decodeRequest r
  | .frame evs =>
    match nextFrame evs with
    | some (bracket, _) => decodeBracket K bracket
    | none => .error .notAFrame

/-- The encoder: the request record of a `HOST` row (R69, R70), the frame of a wire row (R60, R61, R67). -/
def encode (K : Config) (i : Instr) : Packet :=
  match i with
  | .sendCommand code => .request { op := 0x01, a := code.setWidth 16 }
  | .sendData bytes => .request { op := 0x02, payload := bytes.map BitVec.toNat }
  | .setBpp mode => .request { op := 0x10, a := (encodeMode mode).setWidth 16 }
  | .getBpp => .request { op := 0x11 }
  | .setColumns start stop => .request { op := 0x20, a := start, b := stop }
  | .setRows start stop => .request { op := 0x21, a := start, b := stop }
  | .setWindow x0 y0 x1 y1 => .request { op := 0x22, a := x0, b := y0, c := x1, d := y1 }
  | .drawSolidRect x y w h color => .request { op := 0x30, a := x, b := y, c := w, d := h, e := color }
  | .fill color => .request { op := 0x31, e := color }
  | .hardReset => .request { op := 0x40 }
  | .softReset => .request { op := 0x41 }
  | .setSleepMode on => .request { op := 0x42, a := encodeBit on }
  | .setInversionMode on => .request { op := 0x43, a := encodeBit on }
  | .setDisplay on => .request { op := 0x44, a := encodeBit on }
  | .setBacklight on => .request { op := 0x45, a := encodeBit on }
  | .setRotation rot => .request { op := 0x46, a := (encodeRot rot).setWidth 16 }
  | .setNormalMode => .request { op := 0x47 }
  | .bringUp => .request { op := 0x48 }
  | .drawText x y text => .request { op := 0x50, a := x, b := y, payload := text }
  | .setForeground color => .request { op := 0x51, e := color }
  | .setBackground none => .request { op := 0x52, a := 0 }
  | .setBackground (some color) => .request { op := 0x52, a := 1, e := color }
  | .setPixelScale sx sy => .request { op := 0x53, a := sx, b := sy }
  | .cmdSwreset => .frame (cmdFrameEvents K.CMD_SWRESET)
  | .cmdSlpin => .frame (cmdFrameEvents K.CMD_SLPIN)
  | .cmdSlpout => .frame (cmdFrameEvents K.CMD_SLPOUT)
  | .cmdNoron => .frame (cmdFrameEvents K.CMD_NORON)
  | .cmdInvoff => .frame (cmdFrameEvents K.CMD_INVOFF)
  | .cmdInvon => .frame (cmdFrameEvents K.CMD_INVON)
  | .cmdDispoff => .frame (cmdFrameEvents K.CMD_DISPOFF)
  | .cmdDispon => .frame (cmdFrameEvents K.CMD_DISPON)
  | .cmdCaset => .frame (cmdFrameEvents K.CMD_CASET)
  | .cmdRaset => .frame (cmdFrameEvents K.CMD_RASET)
  | .cmdRamwr => .frame (cmdFrameEvents K.CMD_RAMWR)
  | .cmdMadctl => .frame (cmdFrameEvents K.CMD_MADCTL)
  | .cmdColmod => .frame (cmdFrameEvents K.CMD_COLMOD)
  | .cmdFrame c => .frame (cmdFrameEvents c)
  | .dataFrame bs => .frame (dataFrameEvents bs)

/-- The request record that `nbits` bits of a table word stand for (log entry 11): the selector in bits 7..0, then
`a`, `b`, `c`, `d`, `e` upward; every bit above `nbits` is 0 and the payload is empty. -/
def tableRequest (nbits w : Nat) : Request :=
  let v := w % 2 ^ nbits
  { op := BitVec.ofNat 8 v
    a := BitVec.ofNat 16 (v >>> 8)
    b := BitVec.ofNat 16 (v >>> 24)
    c := BitVec.ofNat 16 (v >>> 40)
    d := BitVec.ofNat 16 (v >>> 56)
    e := BitVec.ofNat 32 (v >>> 72) }

/-- Where a table word is fetched: a selector of R69 makes it a host request; any other word is the command byte of a
command frame (R67). The two tables share the numbers 0x01, 0x10, 0x11, 0x20 and 0x21, which the request table takes
(log entry 11). -/
def tablePacket (nbits w : Nat) : Packet :=
  match decodeRequest (tableRequest nbits w) with
  | .error (.reservedSelector op) => .frame (cmdFrameEvents op)
  | _ => .request (tableRequest nbits w)

/-- The instruction the decoders read from a table word, under the configuration of the opcode table's default codes.
A byte that is neither a selector nor one of the thirteen codes is no row of the table. -/
def decodeTableWord (nbits w : Nat) : Option Instr :=
  match tablePacket nbits w with
  | .request r => (decodeRequest r).toOption
  | .frame _ => namedCommand Config.K (tableRequest nbits w).op

end Sys2Proof
end

