-- ==== Sys2Proof/Machine/State.lean ====
section
/-! DEFINITION. The state of the machine as plain data: the block's state `S` (10_state.md R20), the sink's state `Z`
(20_memory.md R47) with the controller's frame memory (R46), the configuration record `K` (00_scope.md R8), and the
model's own fields: the host's pending requests and the answers it got (30_encoding.md R68), the events the sink has
not read yet, and the environment's choice of a failing transfer (R42). Beside it the reasons a step can stop, and the
state after reset (R31, R185). -/

namespace Sys2Proof.Machine

/-- The four output latches of R22: chip-select (0 = asserted), selector (0 = command), reset (0 = in reset),
backlight (1 = on). -/
structure Pins where
  cs : Bit
  dc : Bit
  rst : Bit
  bl : Bit
deriving DecidableEq, Repr

/-- The operand latches of R25: `OP.X`, `OP.Y`, `OP.W`, `OP.H`, `OP.COLOR`, the packed pixel `PIXBUF` and the
remaining-pixel counter `PIXCNT`. -/
structure Latches where
  x : U16
  y : U16
  w : U16
  h : U16
  color : U32
  pixbuf : List Byte
  pixcnt : Nat
deriving DecidableEq, Repr

/-- The `STYLE` group of R28: foreground, background (`none` = transparent), the two scales. -/
structure Style where
  fg : U32
  bg : Option U32
  sx : Nat
  sy : Nat
deriving DecidableEq, Repr

/-- One record of `Z.STREAMS` (R47): the window in force when the memory-write command was latched and the data bytes
received for it. `mode` is the block's `MODE` when the stream was armed, which R49 names for the pixel size (log
entry 15). -/
structure Stream where
  xs : Option U16
  xe : Option U16
  ys : Option U16
  ye : Option U16
  mode : Mode
  bytes : List Byte
deriving DecidableEq, Repr

/-- One pixel of the controller's frame memory: its address (R46, the coordinate pair as one number, `pixelKey`) and
its bytes. -/
abbrev PixelCell := Nat × List Byte

/-- The controller's frame memory (R46): pixels in rising order of address; an address not listed holds what the spec
does not say (log entries 14 and 16). -/
abbrev Memory := List PixelCell

/-- The sink's state `Z` (R47): the most recently latched command, the data bytes since, the last programmed ranges
(`none`: unspecified), the pixel streams, and the controller's frame memory. Beside them `format`, what is known of the
controller's own pixel format (70_reset_and_hazards.md R193): the colour-mode byte it received last, with no reset and no
other colour-mode command after it; `none`: unknown (log entry 28). -/
structure Sink where
  latched : Option Byte
  params : List Byte
  xs : Option U16
  xe : Option U16
  ys : Option U16
  ye : Option U16
  streams : List Stream
  format : Option Byte
  mem : Memory
deriving DecidableEq, Repr

/-- The answer to a request (R68): done, with the value `getBpp` returns; or fault, with the trace index of the first
event of the failed frame (R165). -/
inductive Response where
  | done (value : Option Mode)
  | fault (info : Nat)
deriving DecidableEq, Repr

/-- The environment's choice for the link (R42): the next `after` transfers succeed and the one after them does not:
`sent` of its bytes (all of them if it has fewer) reach the wire, and then it fails, or, when `hangs`, never completes
(U14). At most one transfer of a run fails (R171). -/
structure LinkFailure where
  after : Nat
  sent : Nat
  hangs : Bool
deriving DecidableEq, Repr

/-- The machine's state. -/
structure State where
  /-- The configuration `K` (R8), written by no step. -/
  K : Config
  /-- The control register `MODE` (R21). -/
  mode : Mode
  /-- `PIN.CS`, `PIN.DC`, `PIN.RST`, `PIN.BL` (R22). -/
  pins : Pins
  /-- `FAULT` (R23). -/
  fault : Bit
  /-- `BUSY` (R23). -/
  busy : Bit
  /-- The operand latches (R25). -/
  op : Latches
  /-- `STYLE` (R28). -/
  style : Style
  /-- `TRACE` (R32), oldest event first. -/
  trace : List Event
  /-- The events on the wire that the sink has not read yet, oldest first (R53 (4)). -/
  wire : List Event
  /-- The requests the host has issued and the block has not accepted yet, in issue order (R55, R68). -/
  requests : List Request
  /-- The answers given so far, oldest first (R68). -/
  responses : List Response
  /-- The environment's choice of a failing transfer; `none`: every transfer succeeds (R42). -/
  link : Option LinkFailure
  /-- The sink's state `Z` (R47). -/
  sink : Sink
deriving DecidableEq, Repr

/-- The reasons a step stops with no next state although no instruction was refused. -/
inductive Fault where
  /-- Raised by the step in a state with `FAULT = 1` and no request pending: R169, "a model treats the faulted state as
  terminal". Safe: the machine stops where the hardware stays for ever. -/
  | linkFaulted
  /-- Raised by the step in a state with `BUSY = 1` and no request pending: a transfer that never completes (R42, U14).
  Safe: the machine stops where the hardware stays for ever. -/
  | transferNeverCompletes
deriving DecidableEq, Repr

/-- The reasons a request or a frame is refused. -/
inductive Refusal where
  /-- Raised by the dispatcher for an instruction that has no meaning yet; no arm is left so. Safe. -/
  | notModelled (mnemonic : String)
  /-- Raised by every host request while `BUSY = 1` (R68, R23). Safe. -/
  | busy
  /-- Raised by every host request while `FAULT = 1` (R68, R169). Safe. -/
  | faultLatched
  /-- Raised by the fetch for a request record that is reserved (R69, R72). Safe. -/
  | badRequest (why : DecodeError)
  /-- Raised by the fetch for a bracket on the wire that is neither frame of R60 and R61; the block sends none. Safe. -/
  | badFrame (why : DecodeError)
  /-- Raised by `setBpp(UNSET)`: R72 (b). Safe. -/
  | unsetMode
  /-- Raised by `drawSolidRect` outside its admitted subset (R126), and by `drawText` in a state whose scale is 0. Safe. -/
  | rectNotAdmitted
  /-- Raised by `drawText` for a code the font does not cover (R156). Safe. -/
  | codeNotCovered (code : Nat)
  /-- Raised by `drawText` for a text that pushes the cursor past 65535 (R152, D25). Safe. -/
  | cursorOverflow
  /-- Raised by `setPixelScale` with a scale of 0 (R153). Safe. -/
  | zeroScale
deriving DecidableEq, Repr

/-- The sink at the start of a trace (R47); its frame memory lists nothing, and its pixel format is unknown. -/
def Sink.initial : Sink where
  latched := none
  params := []
  xs := none
  xe := none
  ys := none
  ye := none
  streams := []
  format := none
  mem := []

/-- The state right after construction with configuration `K` (R185, R31), for given levels of the three lines whose
reset level the spec leaves open and a given choice of the environment for the link. -/
def State.construct (K : Config) (dc rst bl : Bit) (link : Option LinkFailure) : State where
  K := K
  mode := .unset
  pins := { cs := true, dc := dc, rst := rst, bl := bl }
  fault := false
  busy := false
  op := { x := 0, y := 0, w := 0, h := 0, color := 0, pixbuf := [], pixcnt := 0 }
  style := { fg := K.INIT_FG, bg := K.INIT_BG, sx := K.INIT_SX, sy := K.INIT_SY }
  trace := []
  wire := []
  requests := []
  responses := []
  link := link
  sink := Sink.initial

/-- The machine right after reset (R31): construction with the configuration `Config.K`, free draws for the levels of
`PIN.DC`, `PIN.RST` and `PIN.BL`, and the environment's free choice for the link. -/
def State.reset : State :=
  State.construct Config.K Config.resetDC Config.resetRST Config.resetBL
    (Config.linkChoice.map fun c => { after := c.1, sent := c.2.1, hangs := c.2.2 })

end Sys2Proof.Machine
end

