-- ==== Sys2Proof/Machine/FrameMemory.lean ====
section
/-! DEFINITION. The operations over the controller's frame memory (20_memory.md R46): its canonical form, one pixel's
read (used by observers only: the block reads nothing, R45) and `MemWrite` (R48). -/

namespace Sys2Proof.Machine

/-- The address of the pixel at `(column, row)` as one number (R46): columns and rows are `u16`, so that no two pixels
share an address. -/
def pixelKey (column row : Nat) : Nat := row * 65536 + column

/-- The canonical form of the frame memory: addresses strictly rising, and no entry without bytes (an address not listed
reads as `none`, so that an entry without bytes would say the same in a second way). -/
abbrev Memory.wf (m : Memory) : Prop :=
  (m.map Prod.fst).Pairwise (· < ·) ∧ ∀ c ∈ m, c.2 ≠ []

/-- The bytes last landed at an address; `none` where the spec does not say what the controller holds there. -/
def Memory.read (m : Memory) (a : Nat) : Option (List Byte) :=
  match m with
  | [] => none
  | (b, v) :: rest => if b = a then some v else if a < b then none else Memory.read rest a

/-- `MemWrite(addr, n, v)` of R48 at one pixel address, keeping the canonical form. Writing no bytes (which R48 never
does: a pixel has at least one) leaves the address unlisted. -/
def Memory.write (m : Memory) (a : Nat) (v : List Byte) : Memory :=
  match m with
  | [] => if v = [] then [] else [(a, v)]
  | (b, u) :: rest =>
    if a < b then (if v = [] then (b, u) :: rest else (a, v) :: (b, u) :: rest)
    else if a = b then (if v = [] then rest else (a, v) :: rest)
    else (b, u) :: Memory.write rest a v

/-- What is at an address becomes unspecified: it is no longer listed. -/
def Memory.forget (m : Memory) (a : Nat) : Memory := m.write a []

end Sys2Proof.Machine
end

