-- ==== Sys2Proof/Machine/Sink.lean ====
section
/-! DEFINITION. The sink: what a command frame and a data frame do to the controller as far as the spec commits it
(20_memory.md R47 to R50). Where R50 leaves the outcome open, the part of the sink it leaves open becomes unspecified:
a range becomes `none`, the frame memory lists nothing (DESIGN CHOICE, log entry 14). Here too what the sink loses track of when a reset
or a colour-mode command may have changed the controller's pixel format (70_reset_and_hazards.md R193, log entry 28). -/

namespace Sys2Proof.Machine

/-- The bytes per pixel of a stream sent in a mode (R49): `bpp` of that mode, for the modes in which the spec does not
leave the cut open. It is open for `B18` (U2), and there is no pixel size for `B12` and `UNSET` (log entry 15). -/
def pixelSize (m : Mode) : Option Nat :=
  match m with
  | .b16 => bpp .b16
  | .b16t => bpp .b16t
  | .b12 => none
  | .b18 => none
  | .unset => none

/-- Every cell of the frame memory becomes unspecified. -/
def Sink.forgetMemory (z : Sink) : Sink := { z with mem := [] }

/-- The column range becomes unspecified. -/
def Sink.forgetColumns (z : Sink) : Sink := { z with xs := none, xe := none }

/-- The row range becomes unspecified. -/
def Sink.forgetRows (z : Sink) : Sink := { z with ys := none, ye := none }

/-- The controller's pixel format becomes unknown. -/
def Sink.forgetFormat (z : Sink) : Sink := { z with format := none }

/-- The window, the frame memory and the pixel format become unspecified. -/
def Sink.forgetAll (z : Sink) : Sink := z.forgetColumns.forgetRows.forgetMemory.forgetFormat

/-- The pixel size by which bytes that arrive now are cut (R49): that of the block's mode, noted in the stream, as long as
that mode's byte is what the controller's format was last set to; once the two may have parted company (R193) it is not
known (log entry 28). -/
def Sink.streamSize (K : Config) (z : Sink) (st : Stream) : Option Nat :=
  if z.format = some (modeByte K st.mode) then pixelSize st.mode else none

/-- What a command leaves open once no more bytes can come for it: a range command with fewer than four bytes has left its
range open (R50 (e)). That is so when the next command arrives, and, as the model reads R196, when the block has stopped for
good (DESIGN CHOICE, log entry 29). A stream that ends in the middle of a pixel (R50 (d)) needs nothing here: the place of
that pixel is open since its first byte arrived (`Stream.land`), and the whole pixels before it have landed (R49). -/
def Sink.closeCommand (K : Config) (z : Sink) : Sink :=
  if 4 ≤ z.params.length then z
  else if z.latched = some K.CMD_CASET then z.forgetColumns
  else if z.latched = some K.CMD_RASET then z.forgetRows
  else z

/-- On a command frame with byte `c` (R48): latch it, forget the parameters, and, for the memory-write command, open a
stream with the window in force. A code that none of the thirteen rows names may do anything to the controller
(R50 (g)). After the software reset the controller's format is unknown (R193 (a)), after the colour-mode command until its
byte arrives. That the window and the frame memory stay, after the software reset too, is log entry 25 (DEDUCED: the source
does not say what a reset does to the window); that they stay after the sleep-in and sleep-out commands, with the format, and
that the sink has no sleep state, is log entry 30 (DESIGN CHOICE: the source says nothing of what the controller keeps while
asleep, 60_exceptions.md R178). `mode` is the block's `MODE`. -/
def Sink.command (K : Config) (mode : Mode) (c : Byte) (z : Sink) : Sink :=
  let z := z.closeCommand K
  let z := if K.codes.contains c then z else z.forgetAll
  let z := if c = K.CMD_SWRESET ∨ c = K.CMD_COLMOD then z.forgetFormat else z
  let z := { z with latched := some c, params := [] }
  if c = K.CMD_RAMWR then
    { z with streams := z.streams ++ [{ xs := z.xs, xe := z.xe, ys := z.ys, ye := z.ye, mode := mode, bytes := [] }] }
  else z

/-- `n` pixels of `p` bytes from pixel number `k` of a stream land row-major in a window whose left column is `xs`,
whose top row is `ys` and which is `width` columns wide (R49). -/
def landPixels (xs ys width p : Nat) (bytes : List Byte) (k n : Nat) (m : Memory) : Memory :=
  match n with
  | 0 => m
  | n + 1 =>
    landPixels xs ys width p bytes (k + 1) n
      (m.write (pixelKey (xs + k % width) (ys + k / width)) ((bytes.drop (k * p)).take p))

/-- The frame memory after the bytes `bs` are appended to a stream that is cut by the pixel size `size`: the pixels they
complete land (R49), and of the place of a pixel that stands half sent at the end nothing is known (R50 (d)). With a window
not known (R50 (b)), a pixel size not known, or more bytes than the window holds (R50 (c)), nothing is known of the memory.
A range sent by hand with its end before its start holds no pixel: the model's choice, where `Wd` and `Ht` of R49 are not
positive and the spec says nothing of where a pixel lands (DESIGN CHOICE, log entry 27). -/
def Stream.land (st : Stream) (size : Option Nat) (bs : List Byte) (m : Memory) : Memory :=
  match st.xs, st.xe, st.ys, st.ye, size with
  | some xs, some xe, some ys, some ye, some p =>
    let width := xe.toNat + 1 - xs.toNat
    let height := ye.toNat + 1 - ys.toNat
    let total := st.bytes ++ bs
    let k := total.length / p
    if total.length ≤ width * height * p then
      let m := landPixels xs.toNat ys.toNat width p total (st.bytes.length / p) (k - st.bytes.length / p) m
      if total.length % p = 0 then m else m.forget (pixelKey (xs.toNat + k % width) (ys.toNat + k / width))
    else []
  | _, _, _, _, _ => []

/-- Data bytes for the memory-write command: they join the last stream and land (R48). -/
def Sink.pixelData (K : Config) (z : Sink) (bs : List Byte) : Sink :=
  match z.streams.getLast? with
  | none => z.forgetMemory
  | some st =>
    { z with streams := z.streams.dropLast ++ [{ st with bytes := st.bytes ++ bs }], mem := st.land (z.streamSize K st) bs z.mem }

/-- Data bytes for the column command, already joined to `Z.PARAMS`: four of them program the column range (R48); a
fifth leaves it open (R50 (e)). -/
def Sink.columnData (z : Sink) : Sink :=
  match z.params with
  | [a, b, c, d] => { z with xs := some (joinBytes a b), xe := some (joinBytes c d) }
  | ps => if ps.length < 4 then z else z.forgetColumns

/-- Data bytes for the row command, as `Sink.columnData`. -/
def Sink.rowData (z : Sink) : Sink :=
  match z.params with
  | [a, b, c, d] => { z with ys := some (joinBytes a b), ye := some (joinBytes c d) }
  | ps => if ps.length < 4 then z else z.forgetRows

/-- Data bytes for the colour-mode command, already joined to `Z.PARAMS`: its one parameter sets the controller's pixel
format (R100, R193); more than one leave it unknown (log entry 28). -/
def Sink.formatData (z : Sink) : Sink :=
  match z.params with
  | [b] => { z with format := some b }
  | _ => z.forgetFormat

/-- On a data frame with bytes `bs` (R48): they join `Z.PARAMS` and, by the latched command, program a range, join a
stream or set the pixel format. With no command latched (R50 (a)), after a command that takes no parameter (R50 (f)) or one that no row names
(R50 (g)), the window and the frame memory become unspecified. The frame of zero bytes changes nothing. -/
def Sink.data (K : Config) (bs : List Byte) (z : Sink) : Sink :=
  if bs = [] then z
  else
    let z := { z with params := z.params ++ bs }
    match z.latched with
    | none => z.forgetAll
    | some c =>
      if c = K.CMD_CASET then z.columnData
      else if c = K.CMD_RASET then z.rowData
      else if c = K.CMD_RAMWR then z.pixelData K bs
      else if c = K.CMD_COLMOD then z.formatData
      else if c = K.CMD_MADCTL then z
      else z.forgetAll

/-- What the events the sink passes over on its way to the end of a frame tell it: a reset pulse on the reset line, after
which the controller's format is unknown (R193 (a)). They change nothing in `Z` (R48). -/
def Sink.passLines (evs : List Event) (z : Sink) : Sink := if .rst false ∈ evs then z.forgetFormat else z

end Sys2Proof.Machine
end

