-- ==== Sys2Proof/Machine/Ops.lean ====
section
/-! DEFINITION. The shared operations of the block. An operation of the host turns into an ordered list of actions (its
script: pin writes, one-byte-sequence transfers, delays, stores to the block's registers); the list is fixed by the
operands, `K` and `MODE` when the operation starts (10_state.md R26), and the environment decides only how far it is
carried out (20_memory.md R42). Here: the actions, how far they get, what they do to the state, the one exception of
the block (60_exceptions.md R165 to R168), acceptance of a request (30_encoding.md R68) and its answer. There is no
return from the exception (R169), so that no operation for one stands here. -/

namespace Sys2Proof.Machine

/-- One action of an operation's script. -/
inductive Act where
  /-- `Emit` of a pin write or a delay (R14). -/
  | emit (e : Event)
  /-- `Xfer` of a byte sequence (R42). -/
  | xfer (bs : List Byte)
  /-- `S.MODE <- m` (R100). -/
  | setMode (m : Mode)
  /-- `OP.X`, `OP.Y`, `OP.W`, `OP.H` are loaded (R25). -/
  | setRect (r : Rect)
  /-- `OP.COLOR` is loaded (R25). -/
  | setColor (c : U32)
  /-- `PIXBUF` is loaded (R25, R123). -/
  | setPixbuf (bs : List Byte)
  /-- `PIXCNT` is loaded (R25, R124). -/
  | setPixcnt (n : Nat)
deriving DecidableEq, Repr

/-- The pin latches after an event (R13, R22): each holds the level last written to its line. -/
def Pins.drive (p : Pins) (e : Event) : Pins :=
  match e with
  | .cs l => { p with cs := l }
  | .dc l => { p with dc := l }
  | .rst l => { p with rst := l }
  | .bl l => { p with bl := l }
  | .tx _ => p
  | .delay _ => p

/-- The events an action puts on the trace when it is carried out whole. -/
def Act.events (a : Act) : List Event :=
  match a with
  | .emit e => [e]
  | .xfer bs => bs.map .tx
  | .setMode _ => []
  | .setRect _ => []
  | .setColor _ => []
  | .setPixbuf _ => []
  | .setPixcnt _ => []

/-- What an action does to the state beside the trace. -/
def Act.apply (s : State) (a : Act) : State :=
  match a with
  | .emit e => { s with pins := s.pins.drive e }
  | .xfer _ => s
  | .setMode m => { s with mode := m }
  | .setRect r =>
    { s with op := { s.op with x := BitVec.ofNat 16 r.x, y := BitVec.ofNat 16 r.y, w := BitVec.ofNat 16 r.w, h := BitVec.ofNat 16 r.h } }
  | .setColor c => { s with op := { s.op with color := c } }
  | .setPixbuf bs => { s with op := { s.op with pixbuf := bs } }
  | .setPixcnt n => { s with op := { s.op with pixcnt := n } }

/-- How a script ended. -/
inductive Ending where
  /-- Every action was carried out. -/
  | completed
  /-- The transfer of the last action failed after it had sent this many bytes. -/
  | failed (sent : Nat)
  /-- The transfer of the last action never completes. -/
  | hung
deriving DecidableEq, Repr

/-- How far a script gets: the actions carried out (the last of them cut short where its transfer did not succeed), how
it ended, and what is left of the environment's choice. -/
structure Progress where
  done : List Act
  ending : Ending
  link : Option LinkFailure
deriving DecidableEq, Repr

/-- The script's progress when the environment has chosen the failure `f` (R42): `f.after` transfers succeed, and the
next one stops after a prefix of its bytes, with every later action left out. -/
def cutScript (f : LinkFailure) (acts : List Act) (n : Nat) : Progress :=
  match acts, n with
  | [], n => ⟨[], .completed, some { f with after := n }⟩
  | .xfer bs :: _, 0 =>
    ⟨[.xfer (bs.take f.sent)], if f.hangs then .hung else .failed (bs.take f.sent).length, none⟩
  | .xfer bs :: rest, n + 1 => let p := cutScript f rest n; { p with done := .xfer bs :: p.done }
  | a :: rest, n => let p := cutScript f rest n; { p with done := a :: p.done }

/-- The script's progress under the environment's choice. -/
def progress (link : Option LinkFailure) (acts : List Act) : Progress :=
  match link with
  | none => ⟨acts, .completed, none⟩
  | some f => cutScript f acts f.after

/-- `Emit` of a list of events on the trace; the sink will read them from the wire (R53 (4)). -/
def State.record (s : State) (evs : List Event) : State :=
  { s with trace := s.trace ++ evs, wire := s.wire ++ evs }

/-- The host gets an answer (R68). -/
def State.answer (s : State) (r : Response) : State := { s with responses := s.responses ++ [r] }

/-- TAKING THE EXCEPTION `LinkFault` (R167), the block's only one: `FAULT <- 1`, `BUSY <- 0`, the response is `fault`,
and nothing else; the lines stay as the failed frame left them (R168). `sent` bytes of the failed transfer are the end
of the trace, after the `CS(0)` and `DC` events of its frame; the answer carries the index of the first of them
(R165). -/
def State.takeLinkFault (s : State) (sent : Nat) : State :=
  { s with fault := true, busy := false, responses := s.responses ++ [.fault (s.trace.length - (sent + 2))] }

/-- The state after the actions that were carried out. -/
def State.carryOut (s : State) (p : Progress) : State :=
  { (p.done.foldl Act.apply s) with link := p.link }.record (p.done.flatMap Act.events)

/-- The end of an operation (R15, R23): done clears `BUSY` and answers; a failed transfer takes `LinkFault`; a transfer
that never completes leaves the block busy (R42). -/
def State.finish (s : State) (e : Ending) (value : Option Mode) : State :=
  match e with
  | .completed => { s with busy := false }.answer (.done value)
  | .failed sent => s.takeLinkFault sent
  | .hung => s

/-- The state after an accepted operation with the given script that answers `value`: `BUSY <- 1`, the script as far as
it gets, and the end of the operation. -/
def State.operate (s : State) (acts : List Act) (value : Option Mode) : State :=
  let p := progress s.link acts
  ({ s with busy := true }.carryOut p).finish p.ending value

/-- Acceptance of a request (R68): only with `BUSY = 0` and `FAULT = 0`. -/
def accepted (s : State) (o : Host.Outcome State Fault Refusal) : Host.Outcome State Fault Refusal :=
  if s.busy then .refused .busy else if s.fault then .refused .faultLatched else o

/-- An accepted operation with the given script and no value in its answer. -/
def operation (s : State) (acts : List Act) : Host.Outcome State Fault Refusal :=
  accepted s (.next (s.operate acts none))

end Sys2Proof.Machine
end

