-- ==== Sys2Proof/Machine/Link.lean ====
section
/-! DEFINITION. The Command/Data Link operations (40_link.md R90, R91): their scripts, which every other operation
reaches the wire through, and their meanings. -/

namespace Sys2Proof.Machine

/-- The script of `sendCommand(code)` (R90). -/
def sendCommand (code : Byte) : List Act :=
  [.emit (.cs false), .emit (.dc false), .xfer [code], .emit (.cs true)]

/-- The script of `sendData(bytes)` (R91): one transfer call, also for the empty payload. -/
def sendData (bytes : List Byte) : List Act :=
  [.emit (.cs false), .emit (.dc true), .xfer bytes, .emit (.cs true)]

/-- `sendCommand(code)`: any code (R90, R72 (c)). -/
def execSendCommand (code : Byte) (s : State) : Host.Outcome State Fault Refusal :=
  operation s (sendCommand code)

/-- `sendData(bytes)`: any bytes (R91). -/
def execSendData (bytes : List Byte) (s : State) : Host.Outcome State Fault Refusal :=
  operation s (sendData bytes)

end Sys2Proof.Machine
end

