-- ==== Sys2Proof/Machine/ColorMode.lean ====
section
/-! DEFINITION. The Color Mode Engine operations (41_color_mode.md R100, R101). -/

namespace Sys2Proof.Machine

/-- The script of `setBpp(mode)` (R100): the store first, then the command, then its single parameter. -/
def setBpp (K : Config) (mode : Mode) : List Act :=
  [.setMode mode] ++ sendCommand K.CMD_COLMOD ++ sendData [modeByte K mode]

/-- `setBpp(mode)` (R100); `UNSET` is refused (R72 (b)). -/
def execSetBpp (mode : Mode) (s : State) : Host.Outcome State Fault Refusal :=
  if modeUnset mode then accepted s (.refused .unsetMode) else operation s (setBpp s.K mode)

/-- `getBpp()` (R101): the answer carries `S.MODE`; nothing on the wire. -/
def execGetBpp (s : State) : Host.Outcome State Fault Refusal :=
  accepted s (.next (s.operate [] (some s.mode)))

end Sys2Proof.Machine
end

