-- ==== Sys2Proof/Machine/Window.lean ====
section
/-! DEFINITION. The Window Addressing operations (42_window.md R111 to R113). Window programming rejects, silently; it
never clamps (R114). -/

namespace Sys2Proof.Machine

/-- The script of `setColumns(start, end)` (R111): a silent drop when the range is rejected. -/
def setColumns (K : Config) (start stop : U16) : List Act :=
  if inRange start stop K.WIDTH then sendCommand K.CMD_CASET ++ sendData (rangeParam start stop) else []

/-- The script of `setRows(start, end)` (R112). -/
def setRows (K : Config) (start stop : U16) : List Act :=
  if inRange start stop K.HEIGHT then sendCommand K.CMD_RASET ++ sendData (rangeParam start stop) else []

/-- The script of `setWindow(x0, y0, x1, y1)` (R113): the memory-write command is issued unconditionally. -/
def setWindow (K : Config) (x0 y0 x1 y1 : U16) : List Act :=
  setColumns K x0 x1 ++ setRows K y0 y1 ++ sendCommand K.CMD_RAMWR

/-- `setColumns(start, end)` (R111). -/
def execSetColumns (start stop : U16) (s : State) : Host.Outcome State Fault Refusal :=
  operation s (setColumns s.K start stop)

/-- `setRows(start, end)` (R112). -/
def execSetRows (start stop : U16) (s : State) : Host.Outcome State Fault Refusal :=
  operation s (setRows s.K start stop)

/-- `setWindow(x0, y0, x1, y1)` (R113). -/
def execSetWindow (x0 y0 x1 y1 : U16) (s : State) : Host.Outcome State Fault Refusal :=
  operation s (setWindow s.K x0 y0 x1 y1)

end Sys2Proof.Machine
end

