-- ==== Sys2Proof/Machine/Rasterizer.lean ====
section
/-! DEFINITION. The Rasterizer operations (43_rasterizer.md R120, R125). The rasterizer clamps; it never rejects a
rectangle for lying outside the surface (R114). -/

namespace Sys2Proof.Machine

/-- One pass of the pixel loop (R124): a data frame with the packed pixel; in 12-bit mode, where the pixel has no bytes,
an empty frame or none by `K.TWELVE_BIT_FRAMES` (D9). -/
def pixelFrame (K : Config) (buf : List Byte) : List Act :=
  if buf = [] ∧ K.TWELVE_BIT_FRAMES = .noFrames then [] else sendData buf

/-- The pixel loop, step 5 of R120: `n` passes, `PIXCNT` counting down after each. -/
def pixelLoop (K : Config) (buf : List Byte) (n : Nat) : List Act :=
  [.setPixcnt n] ++ (List.range n).flatMap fun k => pixelFrame K buf ++ [.setPixcnt (n - 1 - k)]

/-- The script of `drawSolidRect` past step 1, on a rectangle over the integers: the latches are loaded and clamped
(step 2), the window is programmed and armed (step 3), the colour packed once (step 4), the pixels streamed
(step 5) (R120 to R124). -/
def streamRect (K : Config) (mode : Mode) (r : Rect) (color : U32) : List Act :=
  let r' := clamp K r
  let buf := pack mode color
  [.setRect r, .setColor color, .setRect r']
    ++ setWindow K (BitVec.ofNat 16 r'.x) (BitVec.ofNat 16 r'.y) (BitVec.ofNat 16 (r'.x + r'.w - 1))
        (BitVec.ofNat 16 (r'.y + r'.h - 1))
    ++ [.setPixbuf buf] ++ pixelLoop K buf (r'.w * r'.h)

/-- The script of `drawSolidRect` in colour mode `mode` (R120): with no colour mode, a silent drop. -/
def drawSolidRect (K : Config) (mode : Mode) (r : Rect) (color : U32) : List Act :=
  if modeUnset mode then [] else streamRect K mode r color

/-- The script of `fill(color)` (R125). -/
def fill (K : Config) (mode : Mode) (color : U32) : List Act := drawSolidRect K mode (surface K) color

/-- `drawSolidRect(x, y, w, h, color)` (R120): first the `MODE = UNSET` test (R171), then the admitted subset, outside
which the spec refuses (R126). -/
def execDrawSolidRect (x y w h : U16) (color : U32) (s : State) : Host.Outcome State Fault Refusal :=
  if modeUnset s.mode || rectAdmitted s.K (rectOf x y w h) then
    operation s (drawSolidRect s.K s.mode (rectOf x y w h) color)
  else accepted s (.refused .rectNotAdmitted)

/-- `fill(color)` (R125): its operands always lie in the admitted subset. -/
def execFill (color : U32) (s : State) : Host.Outcome State Fault Refusal :=
  operation s (fill s.K s.mode color)

end Sys2Proof.Machine
end

