-- ==== Sys2Proof/Machine/Lifecycle.lean ====
section
/-! DEFINITION. The Lifecycle Controller operations (44_lifecycle.md R135 to R145). None records anything in the block
but pin levels (R146). -/

namespace Sys2Proof.Machine

/-- The script of `hardReset()` (R135): no transfer, so that it cannot fault. -/
def hardReset : List Act :=
  [.emit (.cs false), .emit (.rst true), .emit (.delay 50), .emit (.rst false), .emit (.delay 50), .emit (.rst true),
    .emit (.delay 150), .emit (.cs true)]

/-- The script of `softReset()` (R136). -/
def softReset (K : Config) : List Act := sendCommand K.CMD_SWRESET ++ [.emit (.delay 150)]

/-- The script of `setSleepMode(on)` (R137). -/
def setSleepMode (K : Config) (on : Bit) : List Act := sendCommand (if on then K.CMD_SLPIN else K.CMD_SLPOUT)

/-- The script of `setInversionMode(on)` (R138). -/
def setInversionMode (K : Config) (on : Bit) : List Act := sendCommand (if on then K.CMD_INVON else K.CMD_INVOFF)

/-- The script of `setDisplay(on)` (R139). -/
def setDisplay (K : Config) (on : Bit) : List Act := sendCommand (if on then K.CMD_DISPON else K.CMD_DISPOFF)

/-- The script of `setBacklight(on)` (R140). -/
def setBacklight (on : Bit) : List Act := [.emit (.bl on)]

/-- The script of `setRotation(rot)` (R141). -/
def setRotation (K : Config) (rot : Rot) : List Act := sendCommand K.CMD_MADCTL ++ sendData [rotByte K rot]

/-- The script of `setNormalMode()` (R142). -/
def setNormalMode (K : Config) : List Act := sendCommand K.CMD_NORON

/-- The script of `bringUp()` (R145): ten steps. The mode that the fill of step 8 reads is the one step 4 stored. -/
def bringUp (K : Config) : List Act :=
  hardReset ++ softReset K ++ setSleepMode K false ++ setBpp K K.INIT_MODE ++ setRotation K K.INIT_ROT
    ++ setInversionMode K true ++ setNormalMode K ++ fill K K.INIT_MODE K.INIT_COLOR ++ setBacklight true
    ++ setDisplay K true

/-- `hardReset()` (R135). -/
def execHardReset (s : State) : Host.Outcome State Fault Refusal := operation s hardReset

/-- `softReset()` (R136). -/
def execSoftReset (s : State) : Host.Outcome State Fault Refusal := operation s (softReset s.K)

/-- `setSleepMode(on)` (R137). -/
def execSetSleepMode (on : Bit) (s : State) : Host.Outcome State Fault Refusal := operation s (setSleepMode s.K on)

/-- `setInversionMode(on)` (R138). -/
def execSetInversionMode (on : Bit) (s : State) : Host.Outcome State Fault Refusal :=
  operation s (setInversionMode s.K on)

/-- `setDisplay(on)` (R139). -/
def execSetDisplay (on : Bit) (s : State) : Host.Outcome State Fault Refusal := operation s (setDisplay s.K on)

/-- `setBacklight(on)` (R140). -/
def execSetBacklight (on : Bit) (s : State) : Host.Outcome State Fault Refusal := operation s (setBacklight on)

/-- `setRotation(rot)` (R141). -/
def execSetRotation (rot : Rot) (s : State) : Host.Outcome State Fault Refusal := operation s (setRotation s.K rot)

/-- `setNormalMode()` (R142). -/
def execSetNormalMode (s : State) : Host.Outcome State Fault Refusal := operation s (setNormalMode s.K)

/-- `bringUp()` (R145). -/
def execBringUp (s : State) : Host.Outcome State Fault Refusal := operation s (bringUp s.K)

end Sys2Proof.Machine
end

