-- ==== Sys2Proof/Machine/Text.lean ====
section
/-! DEFINITION. The Text Renderer (45_text.md R150 to R156): host software over the rasterizer, and the style setters.
The cursor is plain integer arithmetic (R152). -/

namespace Sys2Proof.Machine

/-- The renderer between two cursor moves (R150): the cursor, whether it has stayed within `u16` (R152), and the calls
made so far, newest first. -/
structure Pen where
  renderX : Nat
  renderY : Nat
  within : Bool
  calls : List DrawCall
deriving DecidableEq, Repr

/-- The cursor takes new values (R150); past 65535 the text is outside the admitted subset (R152). -/
def Pen.moveTo (t : Pen) (x y : Nat) : Pen :=
  { t with renderX := x, renderY := y, within := t.within && decide (x ≤ 65535) && decide (y ≤ 65535) }

/-- `drawSolidRect(renderX, renderY, STYLE.SX, STYLE.SY, color)` is called (R150). -/
def Pen.block (t : Pen) (st : Style) (color : U32) : Pen :=
  { t with calls := ⟨⟨t.renderX, t.renderY, st.sx, st.sy⟩, color⟩ :: t.calls }

/-- One bit column of a glyph row (R150): foreground for a 1 bit; background, or nothing when transparent, for a 0 bit;
then one column to the right. -/
def Pen.column (st : Style) (g : Glyph) (row : Nat) (t : Pen) (col : Nat) : Pen :=
  let t :=
    if glyphBit g row col then t.block st st.fg
    else match st.bg with
      | some c => t.block st c
      | none => t
  t.moveTo (t.renderX + st.sx) t.renderY

/-- One glyph row (R150): bit columns 7 down to 0, then back to the left edge of the cell and one row down. -/
def Pen.row (st : Style) (g : Glyph) (t : Pen) (row : Nat) : Pen :=
  let t := [7, 6, 5, 4, 3, 2, 1, 0].foldl (Pen.column st g row) t
  t.moveTo (t.renderX - 8 * st.sx) (t.renderY + st.sy)

/-- One character (R150, R154): the newline goes to column `x` and one line down; any other code draws the glyph rows 0
to 7 and goes on to the next cell of the line. A code the font does not cover has no glyph (R156) and is never reached:
the whole text is refused before. -/
def Pen.char (K : Config) (st : Style) (x : Nat) (t : Pen) (ch : Nat) : Pen :=
  if ch = newline then t.moveTo x (t.renderY + 8 * st.sy)
  else match fontGlyph K ch with
    | none => t
    | some g =>
      let t := [0, 1, 2, 3, 4, 5, 6, 7].foldl (Pen.row st g) t
      t.moveTo (t.renderX + 8 * st.sx) (t.renderY - 8 * st.sy)

/-- The renderer at the end of `drawText(x, y, text)` (R150). -/
def renderText (K : Config) (st : Style) (x y : Nat) (text : List Nat) : Pen :=
  text.foldl (Pen.char K st x) ⟨x, y, true, []⟩

/-- The calls of `drawSolidRect` that `drawText(x, y, text)` makes, in order (R150). -/
def textCalls (K : Config) (st : Style) (x y : Nat) (text : List Nat) : List DrawCall :=
  (renderText K st x y text).calls.reverse

/-- The script of `drawText` (R150): its calls, one after another. -/
def drawCalls (K : Config) (mode : Mode) (calls : List DrawCall) : List Act :=
  calls.flatMap fun c => drawSolidRect K mode c.rect c.color

/-- `drawText(x, y, text)` (R150). Refused whole, before anything is drawn: a code the font does not cover (R156), a
cursor past 65535 (R152), and, with a colour mode set, a call outside the admitted subset of `drawSolidRect` (R126),
which only a scale of 0 can make. -/
def execDrawText (x y : U16) (text : List Nat) (s : State) : Host.Outcome State Fault Refusal :=
  match text.find? fun ch => !codeCovered s.K ch with
  | some ch => accepted s (.refused (.codeNotCovered ch))
  | none =>
    if (renderText s.K s.style x.toNat y.toNat text).within then
      let calls := textCalls s.K s.style x.toNat y.toNat text
      if modeUnset s.mode || calls.all (fun c => rectAdmitted s.K c.rect) then
        operation s (drawCalls s.K s.mode calls)
      else accepted s (.refused .rectNotAdmitted)
    else accepted s (.refused .cursorOverflow)

/-- `setForeground(color)` (R153). -/
def execSetForeground (color : U32) (s : State) : Host.Outcome State Fault Refusal :=
  accepted s (.next ({ s with style := { s.style with fg := color } }.operate [] none))

/-- `setBackground(bg)` (R153). -/
def execSetBackground (bg : Option U32) (s : State) : Host.Outcome State Fault Refusal :=
  accepted s (.next ({ s with style := { s.style with bg := bg } }.operate [] none))

/-- `setPixelScale(sx, sy)` (R153); a scale of 0 is refused. -/
def execSetPixelScale (sx sy : U16) (s : State) : Host.Outcome State Fault Refusal :=
  if 1 ≤ sx.toNat ∧ 1 ≤ sy.toNat then
    accepted s (.next ({ s with style := { s.style with sx := sx.toNat, sy := sy.toNat } }.operate [] none))
  else accepted s (.refused .zeroScale)

end Sys2Proof.Machine
end

