-- ==== Sys2Proof/Machine/Wire.lean ====
section
/-! DEFINITION. The wire rows of the opcode table (30_encoding.md R67, R60, R61): what the sink does when the frame
reaches it (20_memory.md R48). They act on the sink alone; the block never reads it (R47). -/

namespace Sys2Proof.Machine

/-- The sink receives the command frame with code `c`. -/
def State.sinkCommand (s : State) (c : Byte) : State := { s with sink := s.sink.command s.K s.mode c }

/-- The sink receives the data frame with bytes `bs`. -/
def State.sinkData (s : State) (bs : List Byte) : State := { s with sink := s.sink.data s.K bs }

/-- The frame of `K.CMD_SWRESET` (software-reset command) reaches the sink (R67, R48). -/
def execCmdSwreset (s : State) : Host.Outcome State Fault Refusal := .next (s.sinkCommand s.K.CMD_SWRESET)

/-- The frame of `K.CMD_SLPIN` (sleep in) reaches the sink (R67, R48). What the controller keeps while asleep the spec leaves
open (60_exceptions.md R178): the model keeps all (DESIGN CHOICE, log entry 30). -/
def execCmdSlpin (s : State) : Host.Outcome State Fault Refusal := .next (s.sinkCommand s.K.CMD_SLPIN)

/-- The frame of `K.CMD_SLPOUT` (sleep out) reaches the sink (R67, R48; log entry 30, as for sleep in). -/
def execCmdSlpout (s : State) : Host.Outcome State Fault Refusal := .next (s.sinkCommand s.K.CMD_SLPOUT)

/-- The frame of `K.CMD_NORON` (normal display mode) reaches the sink (R67, R48). -/
def execCmdNoron (s : State) : Host.Outcome State Fault Refusal := .next (s.sinkCommand s.K.CMD_NORON)

/-- The frame of `K.CMD_INVOFF` (inversion off) reaches the sink (R67, R48). -/
def execCmdInvoff (s : State) : Host.Outcome State Fault Refusal := .next (s.sinkCommand s.K.CMD_INVOFF)

/-- The frame of `K.CMD_INVON` (inversion on) reaches the sink (R67, R48). -/
def execCmdInvon (s : State) : Host.Outcome State Fault Refusal := .next (s.sinkCommand s.K.CMD_INVON)

/-- The frame of `K.CMD_DISPOFF` (display off) reaches the sink (R67, R48). -/
def execCmdDispoff (s : State) : Host.Outcome State Fault Refusal := .next (s.sinkCommand s.K.CMD_DISPOFF)

/-- The frame of `K.CMD_DISPON` (display on) reaches the sink (R67, R48). -/
def execCmdDispon (s : State) : Host.Outcome State Fault Refusal := .next (s.sinkCommand s.K.CMD_DISPON)

/-- The frame of `K.CMD_CASET` (column address set) reaches the sink (R67, R48). -/
def execCmdCaset (s : State) : Host.Outcome State Fault Refusal := .next (s.sinkCommand s.K.CMD_CASET)

/-- The frame of `K.CMD_RASET` (row address set) reaches the sink (R67, R48). -/
def execCmdRaset (s : State) : Host.Outcome State Fault Refusal := .next (s.sinkCommand s.K.CMD_RASET)

/-- The frame of `K.CMD_RAMWR` (memory write: a stream opens) reaches the sink (R67, R48). -/
def execCmdRamwr (s : State) : Host.Outcome State Fault Refusal := .next (s.sinkCommand s.K.CMD_RAMWR)

/-- The frame of `K.CMD_MADCTL` (memory-access-control) reaches the sink (R67, R48). -/
def execCmdMadctl (s : State) : Host.Outcome State Fault Refusal := .next (s.sinkCommand s.K.CMD_MADCTL)

/-- The frame of `K.CMD_COLMOD` (colour-mode set) reaches the sink (R67, R48). -/
def execCmdColmod (s : State) : Host.Outcome State Fault Refusal := .next (s.sinkCommand s.K.CMD_COLMOD)

/-- `CmdFrame(c)` reaches the sink, for a code `c` that no other row names (R60, R48, R50 (g)). -/
def execCmdFrame (c : Byte) (s : State) : Host.Outcome State Fault Refusal := .next (s.sinkCommand c)

/-- `DataFrame(bs)` reaches the sink (R61, R48). -/
def execDataFrame (bs : List Byte) (s : State) : Host.Outcome State Fault Refusal := .next (s.sinkData bs)

end Sys2Proof.Machine
end

