-- ==== Sys2Proof/Machine/Dispatch.lean ====
section
/-! DEFINITION. The dispatcher: one arm per constructor of Instr. -/

namespace Sys2Proof.Machine

def exec (i : Instr) (s : State) : Host.Outcome State Fault Refusal :=
  match i with
  | .sendCommand code => Sys2Proof.Machine.execSendCommand code s
  | .sendData bytes => Sys2Proof.Machine.execSendData bytes s
  | .setBpp mode => Sys2Proof.Machine.execSetBpp mode s
  | .getBpp => Sys2Proof.Machine.execGetBpp s
  | .setColumns start stop => Sys2Proof.Machine.execSetColumns start stop s
  | .setRows start stop => Sys2Proof.Machine.execSetRows start stop s
  | .setWindow x0 y0 x1 y1 => Sys2Proof.Machine.execSetWindow x0 y0 x1 y1 s
  | .drawSolidRect x y w h color => Sys2Proof.Machine.execDrawSolidRect x y w h color s
  | .fill color => Sys2Proof.Machine.execFill color s
  | .hardReset => Sys2Proof.Machine.execHardReset s
  | .softReset => Sys2Proof.Machine.execSoftReset s
  | .setSleepMode on => Sys2Proof.Machine.execSetSleepMode on s
  | .setInversionMode on => Sys2Proof.Machine.execSetInversionMode on s
  | .setDisplay on => Sys2Proof.Machine.execSetDisplay on s
  | .setBacklight on => Sys2Proof.Machine.execSetBacklight on s
  | .setRotation rot => Sys2Proof.Machine.execSetRotation rot s
  | .setNormalMode => Sys2Proof.Machine.execSetNormalMode s
  | .bringUp => Sys2Proof.Machine.execBringUp s
  | .drawText x y text => Sys2Proof.Machine.execDrawText x y text s
  | .setForeground color => Sys2Proof.Machine.execSetForeground color s
  | .setBackground bg => Sys2Proof.Machine.execSetBackground bg s
  | .setPixelScale sx sy => Sys2Proof.Machine.execSetPixelScale sx sy s
  | .cmdSwreset => Sys2Proof.Machine.execCmdSwreset s
  | .cmdSlpin => Sys2Proof.Machine.execCmdSlpin s
  | .cmdSlpout => Sys2Proof.Machine.execCmdSlpout s
  | .cmdNoron => Sys2Proof.Machine.execCmdNoron s
  | .cmdInvoff => Sys2Proof.Machine.execCmdInvoff s
  | .cmdInvon => Sys2Proof.Machine.execCmdInvon s
  | .cmdDispoff => Sys2Proof.Machine.execCmdDispoff s
  | .cmdDispon => Sys2Proof.Machine.execCmdDispon s
  | .cmdCaset => Sys2Proof.Machine.execCmdCaset s
  | .cmdRaset => Sys2Proof.Machine.execCmdRaset s
  | .cmdRamwr => Sys2Proof.Machine.execCmdRamwr s
  | .cmdMadctl => Sys2Proof.Machine.execCmdMadctl s
  | .cmdColmod => Sys2Proof.Machine.execCmdColmod s
  | .cmdFrame c => Sys2Proof.Machine.execCmdFrame c s
  | .dataFrame bs => Sys2Proof.Machine.execDataFrame bs s

end Sys2Proof.Machine
end

