-- ==== Sys2Proof/Machine/Fetch.lean ====
section
/-! DEFINITION. Where the next instruction comes from. Two agents share the machine: the sink, whose instructions are
the frames on the wire, and the block, whose instructions are the host's requests. A frame that is on the wire is read
by the sink before the block accepts the next request (20_memory.md R53: when an operation ends, every byte has been
handed to the link; log entry 9). The placing of a table word for the host's check stands here too. -/

namespace Sys2Proof.Machine

/-- What a fetch finds. -/
inductive Fetched where
  /-- An instruction to run, at a state from which its packet has been taken. -/
  | run (i : Instr) (s : State)
  /-- Nothing to run: the step's answer. -/
  | answer (o : Host.Outcome State Fault Refusal)
deriving Repr

/-- The state from which the next frame has been taken, when `rest` is what stays on the wire: the sink has passed over
every event before that. -/
def State.takeFrame (s : State) (rest : List Event) : State :=
  { s with wire := rest, sink := s.sink.passLines (s.wire.take (s.wire.length - rest.length)) }

/-- The sink reads the frame whose events are `bracket`; `rest` stays on the wire. -/
def fetchFrame (s : State) (bracket rest : List Event) : Fetched :=
  match decodeBracket s.K bracket with
  | .ok i => .run i (s.takeFrame rest)
  | .error e => .answer (.refused (.badFrame e))

/-- The block takes the oldest request; `rest` stays pending. -/
def fetchRequest (s : State) (r : Request) (rest : List Request) : Fetched :=
  match decodeRequest r with
  | .ok i => .run i { s with requests := rest }
  | .error e => .answer (.refused (.badRequest e))

/-- No frame on the wire and no request pending: an idle block waits (R31); one whose transfer never completes, and one
that has faulted, has no step left (R42, R169). -/
def idle (s : State) : Host.Outcome State Fault Refusal :=
  if s.busy then .fault .transferNeverCompletes else if s.fault then .fault .linkFaulted else .next s

/-- The next instruction: a frame on the wire, else a pending request, else none. -/
def fetch (s : State) : Fetched :=
  match nextFrame s.wire with
  | some (bracket, rest) => fetchFrame s bracket rest
  | none =>
    match s.requests with
    | r :: rest => fetchRequest s r rest
    | [] => .answer (idle s)

/-- The end of a step: when the block has stopped for good (R169, U14) and the sink has read every frame, no byte follows
any more, and a range command under way stays without the parameters it lacks (R196, log entry 29). -/
def State.settle (s : State) : State :=
  if (s.busy || s.fault) && (nextFrame s.wire).isNone then { s with sink := s.sink.closeCommand s.K } else s

/-- The outcome of a step from the outcome of the instruction it ran. -/
def settled (o : Host.Outcome State Fault Refusal) : Host.Outcome State Fault Refusal :=
  match o with
  | .next s => .next s.settle
  | .fault f => .fault f
  | .refused r => .refused r

/-- `s` with a packet where the next fetch finds it: a request at the head of the pending requests with no frame left on
the wire, or a frame alone on the wire. -/
def State.withPacket (s : State) (p : Packet) : State :=
  match p with
  | .request r => { s with wire := [], requests := r :: s.requests }
  | .frame evs => { s with wire := evs }

end Sys2Proof.Machine
end

