-- ==== Sys2Proof/Machine/Step.lean ====
section
/-! DEFINITION. One step of the machine: one frame read by the sink, or one request executed to its end by the block
(10_state.md R23, R26), or an idle wait. A step after which nothing can follow any more ends what was under way
in the sink (70_reset_and_hazards.md R196). -/

namespace Sys2Proof.Machine

/-- One step. -/
def step (s : State) : Host.Outcome State Fault Refusal :=
  match fetch s with
  | .run i s' => settled (exec i s')
  | .answer o => o

/-- `s` with the instruction of a table word where `step` fetches its next instruction (log entry 11). -/
def State.withFetchWord (s : State) (nbits w : Nat) : State := s.withPacket (tablePacket nbits w)

end Sys2Proof.Machine
end

