-- ==== Sys2Proof/Safety.lean ====
section
/-! DEFINITION. The terms claims are stated in: the launch premises of 70_reset_and_hazards.md R188, the invariant of
the machine, what an observer compares (10_state.md R32), and the counts of 43_rasterizer.md R128. -/

namespace Sys2Proof.Machine

/-- The block accepts a request (30_encoding.md R68): `BUSY = 0` and `FAULT = 0`. -/
abbrev State.Ready (s : State) : Prop := s.busy = false ∧ s.fault = false

/-- `NoFault` of R188. -/
abbrev State.NoFault (s : State) : Prop := s.fault = false

/-- `Idle` of R188. -/
abbrev State.Idle (s : State) : Prop := s.busy = false ∧ s.pins.cs = true

/-- `ModeSet` of R188. -/
abbrev State.ModeSet (s : State) : Prop := s.mode ≠ .unset

/-- A run of fault-free operations from a state: the host issues requests, and every step leaves the block ready. -/
inductive FaultFreeRun (s : State) : State → Prop where
  | start : FaultFreeRun s s
  | issue {t : State} (r : Request) (h : FaultFreeRun s t) : FaultFreeRun s { t with requests := t.requests ++ [r] }
  | step {t u : State} (h : FaultFreeRun s t) (hs : step t = .next u) (hr : u.Ready) : FaultFreeRun s u

/-- `BroughtUp` of R188: the trace so far is a fault-free `bringUp` of a block just constructed, followed by fault-free
operations. -/
def State.BroughtUp (s : State) : Prop :=
  ∃ (dc rst bl : Bit) (link : Option LinkFailure) (t : State),
    exec .bringUp (State.construct s.K dc rst bl link) = .next t ∧ t.Ready ∧ FaultFreeRun t s

/-- `LinkNeverFails` of R188: an assumption about the environment. -/
abbrev State.LinkNeverFails (s : State) : Prop := s.link = none

/-- `WindowKnown` of R188: the sink's four bounds are not `None`. -/
abbrev State.WindowKnown (s : State) : Prop :=
  s.sink.xs ≠ none ∧ s.sink.xe ≠ none ∧ s.sink.ys ≠ none ∧ s.sink.ye ≠ none

/-- The environment lets the next `n` transfers succeed (20_memory.md R42). -/
def State.linkCarries (s : State) (n : Nat) : Bool :=
  match s.link with
  | none => true
  | some f => decide (n ≤ f.after)

/-- What is left of the environment's choice after `n` transfers that succeeded. -/
def linkAfter (link : Option LinkFailure) (n : Nat) : Option LinkFailure :=
  link.map fun f => { f with after := f.after - n }

/-- The effective window of R49: `(Z.XS, Z.YS, Z.XE, Z.YE)`. -/
def Sink.window (z : Sink) : Option U16 × Option U16 × Option U16 × Option U16 := (z.xs, z.ys, z.xe, z.ye)

/-- The command and data frames that `setWindow` sends for an accepted column range and an accepted row range
(42_window.md R113). -/
def windowEvents (K : Config) (x0 y0 x1 y1 : U16) : List Event :=
  cmdFrameEvents K.CMD_CASET ++ dataFrameEvents [hi8 x0, lo8 x0, hi8 x1, lo8 x1]
    ++ cmdFrameEvents K.CMD_RASET ++ dataFrameEvents [hi8 y0, lo8 y0, hi8 y1, lo8 y1]
    ++ cmdFrameEvents K.CMD_RAMWR

/-- The number of pixel frames of a stream of `n` pixels (R124): none in 12-bit mode when `K.TWELVE_BIT_FRAMES` is
`no_frames`. -/
def pixelFrames (K : Config) (m : Mode) (n : Nat) : Nat :=
  if m = .b12 ∧ K.TWELVE_BIT_FRAMES = .noFrames then 0 else n

/-- The events of `drawSolidRect` in a set colour mode on an already clamped rectangle (43_rasterizer.md R120, R124): the
window, then one data frame per pixel. -/
def rectEvents (K : Config) (m : Mode) (r : Rect) (color : U32) : List Event :=
  windowEvents K (BitVec.ofNat 16 r.x) (BitVec.ofNat 16 r.y) (BitVec.ofNat 16 (r.x + r.w - 1))
      (BitVec.ofNat 16 (r.y + r.h - 1))
    ++ (List.replicate (pixelFrames K m (r.w * r.h)) (dataFrameEvents (pack m color))).flatten

/-- Whether chip-select events alternate, `level` being the line's level before them (40_link.md R92). -/
def csAlternates (level : Bit) (evs : List Event) : Bool :=
  match evs with
  | [] => true
  | .cs l :: rest => (l != level) && csAlternates l rest
  | _ :: rest => csAlternates level rest

/-- The frames of a trace (30_encoding.md R62), counted by their selector events: every frame has exactly one. -/
def frameCount (evs : List Event) : Nat :=
  evs.countP fun e => match e with
    | .dc _ => true
    | _ => false

/-- The bytes on a trace, counted by their `TX` events. -/
def byteCount (evs : List Event) : Nat :=
  evs.countP fun e => match e with
    | .tx _ => true
    | _ => false

/-- What a pin-level observer sees of a trace (R32): the events but for pin writes that do not change a level, from the
levels `p`. -/
def pinView (p : Pins) (evs : List Event) : List Event :=
  match evs with
  | [] => []
  | e :: rest =>
    let p' := p.drive e
    let seen := match e with
      | .tx _ => true
      | .delay _ => true
      | _ => p' != p
    if seen then e :: pinView p' rest else pinView p' rest

/-- The value an answer carries: that of `getBpp`, and none for any other answer (R68, R101). -/
def Response.value (r : Response) : Option Mode :=
  match r with
  | .done v => v
  | .fault _ => none

/-- The values `getBpp` has returned, oldest first. -/
def State.readings (s : State) : List Mode := s.responses.filterMap Response.value

/-- Two runs are the same behaviour (R32): the same trace, the same final `MODE`, `FAULT` and `STYLE`, and the same values
returned by `getBpp`. -/
abbrev sameBehaviour (s t : State) : Prop :=
  s.trace = t.trace ∧ s.mode = t.mode ∧ s.fault = t.fault ∧ s.style = t.style ∧ s.readings = t.readings

/-- The command latched last left nothing unfinished (R50 (e)): a range command has had its four bytes. -/
abbrev Sink.Complete (K : Config) (z : Sink) : Prop :=
  z.latched = some K.CMD_CASET ∨ z.latched = some K.CMD_RASET → 4 ≤ z.params.length

/-- The address at which pixel number `k` of a stream lands in a window whose left column is `xs`, whose right column is `xe`
and whose top row is `ys` (R49). -/
def pixelPlace (xs xe ys : U16) (k : Nat) : Nat :=
  pixelKey (xs.toNat + k % (xe.toNat + 1 - xs.toNat)) (ys.toNat + k / (xe.toNat + 1 - xs.toNat))

/-- The thirteen command rows with their codes (30_encoding.md R67). -/
def commandRows (K : Config) : List (Instr × Byte) :=
  [(.cmdSwreset, K.CMD_SWRESET), (.cmdSlpin, K.CMD_SLPIN), (.cmdSlpout, K.CMD_SLPOUT), (.cmdNoron, K.CMD_NORON),
    (.cmdInvoff, K.CMD_INVOFF), (.cmdInvon, K.CMD_INVON), (.cmdDispoff, K.CMD_DISPOFF), (.cmdDispon, K.CMD_DISPON),
    (.cmdCaset, K.CMD_CASET), (.cmdRaset, K.CMD_RASET), (.cmdRamwr, K.CMD_RAMWR), (.cmdMadctl, K.CMD_MADCTL),
    (.cmdColmod, K.CMD_COLMOD)]

/-- The call of `drawSolidRect` for bit `col` of glyph row `row` in a cell whose corner is `(x, y)` (45_text.md R152,
R155): foreground for a 1 bit, background if there is one for a 0 bit. -/
def cellCall (st : Style) (g : Glyph) (x y row col : Nat) : Option DrawCall :=
  (if glyphBit g row col then some st.fg else st.bg).map fun color =>
    ⟨⟨x + (7 - col) * st.sx, y + row * st.sy, st.sx, st.sy⟩, color⟩

/-- The transfers (one per frame) of `drawSolidRect` in a set colour mode on a rectangle (R128). -/
def rectTransfers (K : Config) (m : Mode) (r : Rect) : Nat :=
  5 + pixelFrames K m ((clamp K r).w * (clamp K r).h)

/-- The invariant of the machine: it holds at reset and every step keeps it. -/
structure State.Inv (s : State) : Prop where
  /-- The configuration is one the spec admits (R8). -/
  config : s.K.Wf
  /-- The scales are at least 1 (R28). -/
  scales : 1 ≤ s.style.sx ∧ 1 ≤ s.style.sy
  /-- Between operations chip-select is deasserted (R22). -/
  idleLine : s.busy = false → s.fault = false → s.pins.cs = true
  /-- After a fault, and while a transfer hangs, chip-select stays asserted (R168, R42). -/
  cutLine : s.busy = true ∨ s.fault = true → s.pins.cs = false
  /-- The fault ends the operation: `FAULT` and `BUSY` are never both 1 (R167). -/
  oneStop : ¬(s.busy = true ∧ s.fault = true)
  /-- `PIXBUF` holds 0, 2 or 3 bytes (R25). -/
  pixbuf : s.op.pixbuf.length = 0 ∨ s.op.pixbuf.length = 2 ∨ s.op.pixbuf.length = 3
  /-- `PIXCNT` is at most 65535 * 65535 (R20). -/
  pixcnt : s.op.pixcnt ≤ 65535 * 65535
  /-- What the sink has not read yet is the end of the trace (R53 (4)). -/
  unread : s.wire <:+ s.trace
  /-- The frame memory is in its canonical form. -/
  memory : s.sink.mem.wf
  /-- Once the block has stopped for good and every frame has been read, a range command under way has left its range open
  (R196, R50 (e)). -/
  cutCommand : s.busy = true ∨ s.fault = true → nextFrame s.wire = none → s.sink.closeCommand s.K = s.sink
  /-- While the last stream stands in the middle of a pixel, the place of that pixel is open (R50 (d)). -/
  halfSent : ∀ st ∈ s.sink.streams.getLast?, ∀ xs ∈ st.xs, ∀ xe ∈ st.xe, ∀ ys ∈ st.ys, ∀ p ∈ pixelSize st.mode,
    st.bytes.length % p ≠ 0 → s.sink.mem.read (pixelPlace xs xe ys (st.bytes.length / p)) = none

end Sys2Proof.Machine
end

