-- ==== Sys2Proof/Certificates/Slice0/Obligations.lean ====
section
/-! DEFINITION. The statements about the machine. Each says in its docstring which rule of spec/ it formalises; a
clause that rests on a choice of the model names its log entry. -/

open Sys2Proof Sys2Proof.Machine

/-! ## Encoding and decoding -/

/-- 30_encoding.md R69, R70, R60, R61, R67: the decoder reads back every well-formed instruction from its encoding, with
every operand at every value, under every configuration the spec admits. -/
def Obligations.DecodeEncodeAgree : Prop :=
  ∀ (K : Config) (i : Instr), K.Wf → i.wf K = true → decode K (encode K i) = .ok i

/-- 30_encoding.md R69, R70, R60, R61, R67: records and frames written out from the spec's tables decode to the
operations they stand for (one per family and per operand form). The command bytes are the defaults of R67. -/
def Obligations.SpecPacketsDecode : Prop :=
  decodeRequest { op := 0x01, a := 0xFF2C } = .ok (.sendCommand 0x2C) ∧
  decodeRequest { op := 0x02, payload := [0x11, 0x11, 0x22, 0x22] } = .ok (.sendData [0x11, 0x11, 0x22, 0x22]) ∧
  decodeRequest { op := 0x10, a := 2 } = .ok (.setBpp .b16) ∧
  decodeRequest { op := 0x20, a := 256, b := 319 } = .ok (.setColumns 256 319) ∧
  decodeRequest { op := 0x22, a := 1, b := 2, c := 2, d := 3 } = .ok (.setWindow 1 2 2 3) ∧
  decodeRequest { op := 0x30, a := 238, b := 239, c := 5, d := 5, e := 0x00ABCDEF } =
    .ok (.drawSolidRect 238 239 5 5 0x00ABCDEF) ∧
  decodeRequest { op := 0x42, a := 0xFFFE } = .ok (.setSleepMode false) ∧
  decodeRequest { op := 0x46, a := 3 } = .ok (.setRotation .landscape180) ∧
  decodeRequest { op := 0x50, a := 5, b := 5, payload := [0x41, 0x0A, 0x41] } = .ok (.drawText 5 5 [0x41, 0x0A, 0x41]) ∧
  decodeRequest { op := 0x52, a := 1, e := 0x0000FFFF } = .ok (.setBackground (some 0x0000FFFF)) ∧
  decode Config.K (.frame [.cs false, .dc false, .tx 0x2B, .cs true]) = .ok .cmdRaset ∧
  decode Config.K (.frame [.cs false, .dc false, .tx 0xB2, .cs true]) = .ok (.cmdFrame 0xB2) ∧
  decode Config.K (.frame [.cs false, .dc true, .tx 0xDE, .tx 0xAD, .cs true]) = .ok (.dataFrame [0xDE, 0xAD])

/-- 30_encoding.md R69 ("Every selector not in the table is reserved") and R72 (a), (b): a selector outside the table, and
a mode field of 5 to 7, are refused, by the decoder and by the step that would take the request; a selector in the table
never is. -/
def Obligations.ReservedRequestsRefused : Prop :=
  ∀ (r : Request),
    (decodeRequest r = .error (.reservedSelector r.op) ↔
      r.op.toNat ∉ [0x01, 0x02, 0x10, 0x11, 0x20, 0x21, 0x22, 0x30, 0x31, 0x40, 0x41, 0x42, 0x43, 0x44, 0x45, 0x46, 0x47,
        0x48, 0x50, 0x51, 0x52, 0x53]) ∧
    (∀ m : BitVec 3, decodeRequest r = .error (.reservedMode m) ↔
      r.op = 0x10 ∧ m = r.a.extractLsb' 0 3 ∧ 5 ≤ m.toNat) ∧
    (∀ (s : State) (rest : List Request) (e : DecodeError), nextFrame s.wire = none → s.requests = r :: rest →
      decodeRequest r = .error e → step s = .refused (.badRequest e))

/-! ## Reset and the step -/

/-- 10_state.md R31, R28: the state right after construction. The values of `PIN.DC`, `PIN.RST`, `PIN.BL` and of the
operand latches are open in the spec and not stated here. That the sink's pixel format is unknown is log entry 28. -/
def Obligations.ResetValues : Prop :=
  State.reset.mode = .unset ∧ State.reset.fault = false ∧ State.reset.busy = false ∧ State.reset.trace = [] ∧
  State.reset.pins.cs = true ∧ State.reset.style = ⟨State.reset.K.INIT_FG, State.reset.K.INIT_BG, State.reset.K.INIT_SX,
    State.reset.K.INIT_SY⟩ ∧
  State.reset.sink.latched = none ∧ State.reset.sink.params = [] ∧ State.reset.sink.streams = [] ∧
  State.reset.sink.window = (none, none, none, none) ∧ State.reset.sink.format = none ∧ State.reset.requests = [] ∧
  State.reset.wire = []

/-- The invariant holds at reset, whatever the OPEN fields, the free levels and the environment's choice are. -/
def Obligations.ResetMeetsInvariant : Prop := State.reset.Inv

/-- The invariant of the machine (10_state.md R20, R22, R25, R28; 20_memory.md R53 (4); 60_exceptions.md R167, R168;
70_reset_and_hazards.md R196 as log entry 29 reads it; the open place of a half-sent pixel: 20_memory.md R50 (d)) is kept by
every step from every state that meets it. -/
def Obligations.StepKeepsInvariant : Prop :=
  ∀ s t : State, s.Inv → step s = .next t → t.Inv

/-- 20_memory.md R55: with no frame left on the wire, the step runs the oldest pending request, at the state from which
that request has been taken. What the step adds is `settled`: nothing to a refusal or a fault, and to a next state nothing but
this: when the block has stopped for good and no frame is left, a range command under way that has fewer than four bytes has
left its range open (70_reset_and_hazards.md R196 as log entry 29 reads it). -/
def Obligations.StepRunsRequest : Prop :=
  (∀ (s : State) (r : Request) (rest : List Request) (i : Instr),
    nextFrame s.wire = none → s.requests = r :: rest → decodeRequest r = .ok i →
      step s = settled (exec i { s with requests := rest })) ∧
  (∀ t : State, t.K.Wf →
    let cut := fun c : Byte => (t.busy = true ∨ t.fault = true) ∧ nextFrame t.wire = none ∧ t.sink.params.length < 4 ∧
      t.sink.latched = some c
    (cut t.K.CMD_CASET → settled (.next t) = .next { t with sink := { t.sink with xs := none, xe := none } }) ∧
    (cut t.K.CMD_RASET → settled (.next t) = .next { t with sink := { t.sink with ys := none, ye := none } }) ∧
    (¬cut t.K.CMD_CASET → ¬cut t.K.CMD_RASET → settled (.next t) = .next t)) ∧
  (∀ f : Fault, settled (.fault f) = .fault f) ∧ (∀ r : Refusal, settled (.refused r) = .refused r)

/-- 20_memory.md R48, R53 (4): the sink reads the next frame on the wire, and the step runs it at the state from which
the frame has been taken, with `settled` around it (StepRunsRequest). The order (the sink before the next request) is log
entry 9; that a reset pulse among the events passed over leaves the controller's pixel format unknown is log entry 28, and
that it leaves the window and the frame memory as they were is log entry 25 (DEDUCED, unsafe). -/
def Obligations.StepReadsFrame : Prop :=
  ∀ (s : State) (before bracket rest : List Event) (i : Instr), s.wire = before ++ rest →
    nextFrame s.wire = some (bracket, rest) → decodeBracket s.K bracket = .ok i →
      step s = settled (exec i { s with
        wire := rest
        sink := { s.sink with format := if .rst false ∈ before then none else s.sink.format } })

/-- With no frame and no request: an idle block waits (10_state.md R31), a faulted one has no step left (60_exceptions.md
R169), and neither has one whose transfer never completes (20_memory.md R42). The faults' names are log entries 6
and 7. -/
def Obligations.StepWithNothingToDo : Prop :=
  ∀ s : State, nextFrame s.wire = none → s.requests = [] →
    (s.Ready → step s = .next s) ∧
    (s.busy = true → step s = .fault .transferNeverCompletes) ∧
    (s.busy = false → s.fault = true → step s = .fault .linkFaulted)

/-! ## Command/Data Link -/

/-- 40_link.md R90, 30_encoding.md R60: `sendCommand` of any code puts `CS(0), DC(0), TX(code), CS(1)` on the trace,
leaves chip-select at 1 and the selector at 0, answers done, and touches nothing else. -/
def Obligations.SendCommandFrame : Prop :=
  ∀ (s : State) (code : Byte), s.Ready → s.linkCarries 1 = true →
    exec (.sendCommand code) s = .next { s with
      pins := { s.pins with cs := true, dc := false }
      trace := s.trace ++ [.cs false, .dc false, .tx code, .cs true]
      wire := s.wire ++ [.cs false, .dc false, .tx code, .cs true]
      link := linkAfter s.link 1
      responses := s.responses ++ [.done none] }

/-- 40_link.md R91, 30_encoding.md R61: `sendData` of any payload, the empty one too, puts the bracketed bytes on the
trace in order, leaves chip-select and the selector at 1, answers done, and touches nothing else. -/
def Obligations.SendDataFrame : Prop :=
  ∀ (s : State) (bytes : List Byte), s.Ready → s.linkCarries 1 = true →
    exec (.sendData bytes) s = .next { s with
      pins := { s.pins with cs := true, dc := true }
      trace := s.trace ++ ([.cs false, .dc true] ++ bytes.map .tx ++ [.cs true])
      wire := s.wire ++ ([.cs false, .dc true] ++ bytes.map .tx ++ [.cs true])
      link := linkAfter s.link 1
      responses := s.responses ++ [.done none] }

/-! ## Color Mode Engine -/

/-- 41_color_mode.md R100: `setBpp` stores the mode, then sends the colour-mode command and the mode byte; nothing else
changes. R72 (b): of `UNSET` it is refused. -/
def Obligations.SetBppStoresAndSends : Prop :=
  ∀ (s : State) (m : Mode), s.Ready →
    (m ≠ .unset → s.linkCarries 2 = true →
      exec (.setBpp m) s = .next { s with
        mode := m
        pins := { s.pins with cs := true, dc := true }
        trace := s.trace ++ (cmdFrameEvents s.K.CMD_COLMOD ++ dataFrameEvents [modeByte s.K m])
        wire := s.wire ++ (cmdFrameEvents s.K.CMD_COLMOD ++ dataFrameEvents [modeByte s.K m])
        link := linkAfter s.link 2
        responses := s.responses ++ [.done none] }) ∧
    exec (.setBpp .unset) s = .refused .unsetMode

/-- 41_color_mode.md R101: `getBpp` answers `MODE`, puts nothing on the wire and changes nothing. -/
def Obligations.GetBppAnswersMode : Prop :=
  ∀ s : State, s.Ready →
    exec .getBpp s = .next { s with responses := s.responses ++ [.done (some s.mode)] }

/-- 41_color_mode.md R102: the mode bytes, the 18-bit one with the 12-bit depth bits; and their values under the
general-knowledge defaults. -/
def Obligations.ModeByteTable : Prop :=
  (∀ K : Config,
    modeByte K .b12 = K.IFACE_65K ||| K.DEPTH_12 ∧ modeByte K .b16 = K.IFACE_65K ||| K.DEPTH_16 ∧
    modeByte K .b16t = K.IFACE_65K ||| K.DEPTH_16T ∧ modeByte K .b18 = K.IFACE_262K ||| K.DEPTH_12 ∧
    modeByte K .unset = K.IFACE_65K ||| K.DEPTH_16) ∧
  modeByte Config.K .b12 = 0x53 ∧ modeByte Config.K .b16 = 0x55 ∧ modeByte Config.K .b16t = 0x57 ∧
  modeByte Config.K .b18 = 0x63 ∧ modeByte Config.K .unset = 0x55

/-- 41_color_mode.md R104: `Pack` truncates, byte by byte from the top of the listed bits, drops the bits above them, and
gives the corner values R104 lists. -/
def Obligations.PackTruncates : Prop :=
  (∀ c : U32,
    pack .b16 c = [BitVec.ofNat 8 (c.toNat / 256), BitVec.ofNat 8 c.toNat] ∧
    pack .b18 c = [BitVec.ofNat 8 (c.toNat / 65536), BitVec.ofNat 8 (c.toNat / 256), BitVec.ofNat 8 c.toNat] ∧
    pack .b16t c = [BitVec.ofNat 8 (c.toNat / 65536), BitVec.ofNat 8 (c.toNat / 256), BitVec.ofNat 8 c.toNat] ∧
    pack .b12 c = []) ∧
  (∀ (c d : U32), c.toNat % 65536 = d.toNat % 65536 → pack .b16 c = pack .b16 d) ∧
  (∀ (c d : U32), c.toNat % 16777216 = d.toNat % 16777216 → pack .b18 c = pack .b18 d ∧ pack .b16t c = pack .b16t d) ∧
  pack .b16 0x00FF0000 = [0x00, 0x00] ∧ pack .b18 0xFF000000 = [0x00, 0x00, 0x00] ∧
  pack .b16 0xFFFFFFFF = [0xFF, 0xFF] ∧ pack .b16 0x00123456 = [0x34, 0x56] ∧
  pack .b18 0x00123456 = [0x12, 0x34, 0x56]

/-- 41_color_mode.md R103: the bytes per pixel, and that they are the length of the packed pixel; none for `UNSET`. -/
def Obligations.BppIsPackLength : Prop :=
  bpp .b16 = some 2 ∧ bpp .b18 = some 3 ∧ bpp .b16t = some 3 ∧ bpp .b12 = some 0 ∧ bpp .unset = none ∧
  ∀ (m : Mode) (c : U32), m ≠ .unset → bpp m = some (pack m c).length

/-! ## Window Addressing -/

/-- 42_window.md R111, R112, R63: an accepted range is sent as the column (row) command and four bytes, big-endian start
then big-endian end; nothing but the pins changes in the block. -/
def Obligations.AcceptedRangesAreSent : Prop :=
  ∀ (s : State) (start stop : U16), s.Ready → s.linkCarries 2 = true → start ≤ stop →
    (stop < s.K.WIDTH →
      exec (.setColumns start stop) s = .next { s with
        pins := { s.pins with cs := true, dc := true }
        trace := s.trace ++ (cmdFrameEvents s.K.CMD_CASET ++
          dataFrameEvents [hi8 start, lo8 start, hi8 stop, lo8 stop])
        wire := s.wire ++ (cmdFrameEvents s.K.CMD_CASET ++
          dataFrameEvents [hi8 start, lo8 start, hi8 stop, lo8 stop])
        link := linkAfter s.link 2
        responses := s.responses ++ [.done none] }) ∧
    (stop < s.K.HEIGHT →
      exec (.setRows start stop) s = .next { s with
        pins := { s.pins with cs := true, dc := true }
        trace := s.trace ++ (cmdFrameEvents s.K.CMD_RASET ++
          dataFrameEvents [hi8 start, lo8 start, hi8 stop, lo8 stop])
        wire := s.wire ++ (cmdFrameEvents s.K.CMD_RASET ++
          dataFrameEvents [hi8 start, lo8 start, hi8 stop, lo8 stop])
        link := linkAfter s.link 2
        responses := s.responses ++ [.done none] })

/-- 42_window.md R115, R110: with `start > end` or `end >= dimension` the trace, every element of `S` and the sink are
unchanged, whatever the link would do; the host is told done. -/
def Obligations.RejectedRangesChangeNothing : Prop :=
  ∀ (s : State) (start stop : U16), s.Ready →
    (stop < start ∨ s.K.WIDTH ≤ stop →
      exec (.setColumns start stop) s = .next { s with responses := s.responses ++ [.done none] }) ∧
    (stop < start ∨ s.K.HEIGHT ≤ stop →
      exec (.setRows start stop) s = .next { s with responses := s.responses ++ [.done none] })

/-- 42_window.md R113: the four cases of `setWindow`; the memory-write command is issued in each of them. -/
def Obligations.SetWindowFourCases : Prop :=
  ∀ (s : State) (x0 y0 x1 y1 : U16), s.Ready →
    let columns := if x0 ≤ x1 ∧ x1 < s.K.WIDTH then
      cmdFrameEvents s.K.CMD_CASET ++ dataFrameEvents [hi8 x0, lo8 x0, hi8 x1, lo8 x1] else []
    let rows := if y0 ≤ y1 ∧ y1 < s.K.HEIGHT then
      cmdFrameEvents s.K.CMD_RASET ++ dataFrameEvents [hi8 y0, lo8 y0, hi8 y1, lo8 y1] else []
    let n := (if x0 ≤ x1 ∧ x1 < s.K.WIDTH then 2 else 0) + (if y0 ≤ y1 ∧ y1 < s.K.HEIGHT then 2 else 0) + 1
    s.linkCarries n = true →
    exec (.setWindow x0 y0 x1 y1) s = .next { s with
      pins := { s.pins with cs := true, dc := false }
      trace := s.trace ++ (columns ++ rows ++ cmdFrameEvents s.K.CMD_RAMWR)
      wire := s.wire ++ (columns ++ rows ++ cmdFrameEvents s.K.CMD_RAMWR)
      link := linkAfter s.link n
      responses := s.responses ++ [.done none] }

/-! ## Rasterizer -/

/-- 43_rasterizer.md R121: the clamp in closed form, and the consequences R121 lists. -/
def Obligations.ClampFitsTheSurface : Prop :=
  ∀ (K : Config) (r : Rect), 1 ≤ K.WIDTH.toNat → 1 ≤ K.HEIGHT.toNat →
    let W := K.WIDTH.toNat
    let H := K.HEIGHT.toNat
    let r' := clamp K r
    r'.x = (if r.x < W then r.x else W - 1) ∧ r'.y = (if r.y < H then r.y else H - 1) ∧
    r'.w = min r.w (W - r'.x) ∧ r'.h = min r.h (H - r'.y) ∧
    r'.x ≤ W - 1 ∧ r'.y ≤ H - 1 ∧ r'.w ≤ W - r'.x ∧ r'.h ≤ H - r'.y ∧
    (1 ≤ r.w → 1 ≤ r'.w) ∧ (1 ≤ r.h → 1 ≤ r'.h) ∧
    (W ≤ r.x → 1 ≤ r.w → r'.x = W - 1 ∧ r'.w = 1) ∧ (H ≤ r.y → 1 ≤ r.h → r'.y = H - 1 ∧ r'.h = 1) ∧
    (r.x + r.w ≤ W → r.y + r.h ≤ H → r.x < W → r.y < H → r' = r) ∧
    (r.w = 0 → r'.w = 0) ∧ (r.h = 0 → r'.h = 0) ∧
    (r.x < W → r'.x = r.x) ∧ (r.y < H → r'.y = r.y) ∧ r'.w ≤ r.w ∧ r'.h ≤ r.h

/-- 43_rasterizer.md R120, R170 (a): with no colour mode `drawSolidRect` (any operands), `fill`, and `drawText` of a text
it admits are silent drops: done, with nothing on the trace and nothing changed, whatever the link would do. -/
def Obligations.DrawsWithoutModeAreDropped : Prop :=
  ∀ s : State, s.Ready → s.mode = .unset →
    (∀ (x y w h : U16) (color : U32),
      exec (.drawSolidRect x y w h color) s = .next { s with responses := s.responses ++ [.done none] }) ∧
    (∀ color : U32, exec (.fill color) s = .next { s with responses := s.responses ++ [.done none] }) ∧
    (∀ (x y : U16) (text : List Nat), text.all (codeCovered s.K) = true →
      (renderText s.K s.style x.toNat y.toNat text).within = true →
      exec (.drawText x y text) s = .next { s with responses := s.responses ++ [.done none] })

/-- 43_rasterizer.md R120 to R124: in every set colour mode, inside the admitted subset, `drawSolidRect` sends the window
of the clamped rectangle and then one data frame with the packed pixel per pixel, and leaves the clamped operands in the
latches; nothing else changes. In 12-bit mode `K.TWELVE_BIT_FRAMES` says whether the empty frames are sent. That the
latches are loaded by this operation, and that `PIXCNT` ends at 0, are log entries 4 and 19. -/
def Obligations.DrawSolidRectStreams : Prop :=
  ∀ (s : State) (x y w h : U16) (color : U32), s.K.Wf → s.Ready → s.mode ≠ .unset →
    1 ≤ w.toNat → 1 ≤ h.toNat →
    let r := clamp s.K (rectOf x y w h)
    r.x + w.toNat ≤ 65535 → r.y + h.toNat ≤ 65535 →
    s.linkCarries (5 + pixelFrames s.K s.mode (r.w * r.h)) = true →
    exec (.drawSolidRect x y w h color) s = .next { s with
      op := ⟨BitVec.ofNat 16 r.x, BitVec.ofNat 16 r.y, BitVec.ofNat 16 r.w, BitVec.ofNat 16 r.h, color,
        pack s.mode color, 0⟩
      pins := { s.pins with cs := true, dc := decide (pixelFrames s.K s.mode (r.w * r.h) ≠ 0) }
      trace := s.trace ++ rectEvents s.K s.mode r color
      wire := s.wire ++ rectEvents s.K s.mode r color
      link := linkAfter s.link (5 + pixelFrames s.K s.mode (r.w * r.h))
      responses := s.responses ++ [.done none] }

/-- 43_rasterizer.md R126: with a colour mode set, a rectangle outside the admitted subset is refused. -/
def Obligations.RectOutsideSubsetRefused : Prop :=
  ∀ (s : State) (x y w h : U16) (color : U32), s.Ready → s.mode ≠ .unset →
    let W := s.K.WIDTH.toNat
    let H := s.K.HEIGHT.toNat
    (w = 0 ∨ h = 0 ∨ (if x.toNat < W then x.toNat else W - 1) + w.toNat > 65535 ∨
      (if y.toNat < H then y.toNat else H - 1) + h.toNat > 65535) →
    exec (.drawSolidRect x y w h color) s = .refused .rectNotAdmitted

/-- 43_rasterizer.md R125: `fill(color)` is `drawSolidRect(0, 0, K.WIDTH, K.HEIGHT, color)`, in every state and for every
choice of the environment. -/
def Obligations.FillIsTheSurfaceRect : Prop :=
  ∀ (s : State) (color : U32), s.K.Wf →
    exec (.fill color) s = exec (.drawSolidRect 0 0 s.K.WIDTH s.K.HEIGHT color) s

/-- 43_rasterizer.md R125, worked through R121: `fill` in a set colour mode sends the window `(0, 0, W - 1, H - 1)` and
`W * H` pixels. -/
def Obligations.FillStreamsTheSurface : Prop :=
  ∀ (s : State) (color : U32), s.K.Wf → s.Ready → s.mode ≠ .unset →
    let n := pixelFrames s.K s.mode (s.K.WIDTH.toNat * s.K.HEIGHT.toNat)
    let evs := windowEvents s.K 0 0 (s.K.WIDTH - 1) (s.K.HEIGHT - 1) ++
      (List.replicate n (dataFrameEvents (pack s.mode color))).flatten
    s.linkCarries (5 + n) = true →
    exec (.fill color) s = .next { s with
      op := ⟨0, 0, s.K.WIDTH, s.K.HEIGHT, color, pack s.mode color, 0⟩
      pins := { s.pins with cs := true, dc := decide (n ≠ 0) }
      trace := s.trace ++ evs
      wire := s.wire ++ evs
      link := linkAfter s.link (5 + n)
      responses := s.responses ++ [.done none] }

/-- 43_rasterizer.md R128: the frames, the bytes and the events that a fault-free `drawSolidRect` in its admitted subset adds
to the trace, `p` being `bpp` of the mode and `n` the pixels of the clamped rectangle; in 12-bit mode with `no_frames` there
are no pixel frames. -/
def Obligations.DrawCounts : Prop :=
  ∀ (s : State) (x y w h : U16) (color : U32) (p : Nat), s.K.Wf → s.Ready → s.mode ≠ .unset → bpp s.mode = some p →
    1 ≤ w.toNat → 1 ≤ h.toNat →
    let r := clamp s.K (rectOf x y w h)
    let n := r.w * r.h
    let frames := if s.mode = .b12 ∧ s.K.TWELVE_BIT_FRAMES = .noFrames then 0 else n
    r.x + w.toNat ≤ 65535 → r.y + h.toNat ≤ 65535 → s.linkCarries (5 + frames) = true →
    ∃ t evs, exec (.drawSolidRect x y w h color) s = .next t ∧ t.trace = s.trace ++ evs ∧
      frameCount evs = 5 + frames ∧ byteCount evs = 11 + n * p ∧ evs.length = 26 + frames * (3 + p)

/-! ## Lifecycle Controller -/

/-- 44_lifecycle.md R135: `hardReset` is the eight events, in every mode and whatever the link would do; `PIN.CS` ends at
1 and `PIN.RST` at 1, and nothing else changes. -/
def Obligations.HardResetPulses : Prop :=
  ∀ s : State, s.Ready →
    exec .hardReset s = .next { s with
      pins := { s.pins with cs := true, rst := true }
      trace := s.trace ++ [.cs false, .rst true, .delay 50, .rst false, .delay 50, .rst true, .delay 150, .cs true]
      wire := s.wire ++ [.cs false, .rst true, .delay 50, .rst false, .delay 50, .rst true, .delay 150, .cs true]
      responses := s.responses ++ [.done none] }

/-- 44_lifecycle.md R136: `softReset` is the software-reset command and a wait of 150 ms; `MODE` is not changed. When the
transfer of the command fails, the delay is not performed. -/
def Obligations.SoftResetWaits : Prop :=
  ∀ s : State, s.Ready →
    (s.linkCarries 1 = true →
      exec .softReset s = .next { s with
        pins := { s.pins with cs := true, dc := false }
        trace := s.trace ++ (cmdFrameEvents s.K.CMD_SWRESET ++ [.delay 150])
        wire := s.wire ++ (cmdFrameEvents s.K.CMD_SWRESET ++ [.delay 150])
        link := linkAfter s.link 1
        responses := s.responses ++ [.done none] }) ∧
    (∀ k, s.link = some ⟨0, k, false⟩ → ∃ t, exec .softReset s = .next t ∧ t.fault = true ∧ t.mode = s.mode ∧
      t.trace = s.trace ++ [.cs false, .dc false] ++ ([.tx s.K.CMD_SWRESET].take k))

/-- 44_lifecycle.md R137, R138, R139, R142: the operations of a single command with no parameters send the command of
their operand, in one frame, and change nothing but the pins. -/
def Obligations.SingleCommandOperations : Prop :=
  ∀ s : State, s.Ready → s.linkCarries 1 = true →
    let sent := fun c : Byte => { s with
      pins := { s.pins with cs := true, dc := false }
      trace := s.trace ++ cmdFrameEvents c
      wire := s.wire ++ cmdFrameEvents c
      link := linkAfter s.link 1
      responses := s.responses ++ [.done none] }
    exec (.setSleepMode true) s = .next (sent s.K.CMD_SLPIN) ∧
    exec (.setSleepMode false) s = .next (sent s.K.CMD_SLPOUT) ∧
    exec (.setInversionMode true) s = .next (sent s.K.CMD_INVON) ∧
    exec (.setInversionMode false) s = .next (sent s.K.CMD_INVOFF) ∧
    exec (.setDisplay true) s = .next (sent s.K.CMD_DISPON) ∧
    exec (.setDisplay false) s = .next (sent s.K.CMD_DISPOFF) ∧
    exec .setNormalMode s = .next (sent s.K.CMD_NORON)

/-- 44_lifecycle.md R140: `setBacklight` drives the backlight line and does nothing else; it cannot fault. -/
def Obligations.SetBacklightDrivesLine : Prop :=
  ∀ (s : State) (on : Bit), s.Ready →
    exec (.setBacklight on) s = .next { s with
      pins := { s.pins with bl := on }
      trace := s.trace ++ [.bl on]
      wire := s.wire ++ [.bl on]
      responses := s.responses ++ [.done none] }

/-- 44_lifecycle.md R141, R65, 70_reset_and_hazards.md R194: `setRotation` sends the memory-access-control command and
the rotation's byte; the block records nothing, and the dimensions stay as constructed. -/
def Obligations.SetRotationSendsByte : Prop :=
  ∀ (s : State) (rot : Rot), s.Ready → s.linkCarries 2 = true →
    let b := match rot with
      | .portrait => s.K.ROT_BYTE.portrait
      | .landscape => s.K.ROT_BYTE.landscape
      | .portrait180 => s.K.ROT_BYTE.portrait180
      | .landscape180 => s.K.ROT_BYTE.landscape180
    exec (.setRotation rot) s = .next { s with
      pins := { s.pins with cs := true, dc := true }
      trace := s.trace ++ (cmdFrameEvents s.K.CMD_MADCTL ++ dataFrameEvents [b])
      wire := s.wire ++ (cmdFrameEvents s.K.CMD_MADCTL ++ dataFrameEvents [b])
      link := linkAfter s.link 2
      responses := s.responses ++ [.done none] }

/-- 44_lifecycle.md R145, 70_reset_and_hazards.md R187: `bringUp` performs the ten steps in order and leaves the mode of
the configuration and the four lines at 1, 0, 1, 1. -/
def Obligations.BringUpTenSteps : Prop :=
  ∀ s : State, s.K.Wf → s.Ready →
    let n := pixelFrames s.K s.K.INIT_MODE (s.K.WIDTH.toNat * s.K.HEIGHT.toNat)
    let evs : List Event :=
      [.cs false, .rst true, .delay 50, .rst false, .delay 50, .rst true, .delay 150, .cs true]
      ++ (cmdFrameEvents s.K.CMD_SWRESET ++ [.delay 150])
      ++ cmdFrameEvents s.K.CMD_SLPOUT
      ++ (cmdFrameEvents s.K.CMD_COLMOD ++ dataFrameEvents [modeByte s.K s.K.INIT_MODE])
      ++ (cmdFrameEvents s.K.CMD_MADCTL ++ dataFrameEvents [rotByte s.K s.K.INIT_ROT])
      ++ cmdFrameEvents s.K.CMD_INVON
      ++ cmdFrameEvents s.K.CMD_NORON
      ++ (windowEvents s.K 0 0 (s.K.WIDTH - 1) (s.K.HEIGHT - 1) ++
          (List.replicate n (dataFrameEvents (pack s.K.INIT_MODE s.K.INIT_COLOR))).flatten)
      ++ [.bl true]
      ++ cmdFrameEvents s.K.CMD_DISPON
    s.linkCarries (14 + n) = true →
    exec .bringUp s = .next { s with
      mode := s.K.INIT_MODE
      op := ⟨0, 0, s.K.WIDTH, s.K.HEIGHT, s.K.INIT_COLOR, pack s.K.INIT_MODE s.K.INIT_COLOR, 0⟩
      pins := ⟨true, false, true, true⟩
      trace := s.trace ++ evs
      wire := s.wire ++ evs
      link := linkAfter s.link (14 + n)
      responses := s.responses ++ [.done none] }

/-! ## Text Renderer -/

/-- 45_text.md R150: in a set colour mode `drawText` of an admitted text draws its blocks one after another, each a full
`drawSolidRect`; nothing changes but the trace, the pins and the operand latches. -/
def Obligations.DrawTextDrawsItsBlocks : Prop :=
  ∀ (s : State) (x y : U16) (text : List Nat), s.K.Wf → s.Ready → s.mode ≠ .unset → 1 ≤ s.style.sx → 1 ≤ s.style.sy →
    text.all (codeCovered s.K) = true → (renderText s.K s.style x.toNat y.toNat text).within = true →
    let calls := textCalls s.K s.style x.toNat y.toNat text
    let evs := calls.flatMap fun c => rectEvents s.K s.mode (clamp s.K c.rect) c.color
    let n := (calls.map fun c => rectTransfers s.K s.mode c.rect).sum
    s.linkCarries n = true →
    ∃ op, exec (.drawText x y text) s = .next { s with
      op := op
      pins := evs.foldl Pins.drive s.pins
      trace := s.trace ++ evs
      wire := s.wire ++ evs
      link := linkAfter s.link n
      responses := s.responses ++ [.done none] }

/-- 45_text.md R152, R155: the blocks of one character, row by row from the top and bit by bit from bit 7, each at its
place in the cell; 64 of them with a background. -/
def Obligations.GlyphBlocks : Prop :=
  ∀ (K : Config) (st : Style) (x y ch : Nat) (g : Glyph), ch ≠ 0x0A → fontGlyph K ch = some g →
    textCalls K st x y [ch] =
      ([0, 1, 2, 3, 4, 5, 6, 7] : List Nat).flatMap (fun row =>
        ([7, 6, 5, 4, 3, 2, 1, 0] : List Nat).filterMap (cellCall st g x y row)) ∧
    (st.bg ≠ none → (textCalls K st x y [ch]).length = 64)

/-- 45_text.md R152, R154: the next character of a line starts `8 * SX` to the right; a newline draws nothing and starts
the rest at the operand `x`, `8 * SY` further down. -/
def Obligations.TextLayout : Prop :=
  ∀ (K : Config) (st : Style) (x y : Nat),
    textCalls K st x y [] = [] ∧
    (∀ (ch : Nat) (line : List Nat), ch ≠ 0x0A → (fontGlyph K ch).isSome → 0x0A ∉ line →
      textCalls K st x y (ch :: line) = textCalls K st x y [ch] ++ textCalls K st (x + 8 * st.sx) y line) ∧
    (∀ line rest : List Nat, 0x0A ∉ line →
      textCalls K st x y (line ++ 0x0A :: rest) = textCalls K st x y line ++ textCalls K st x (y + 8 * st.sy) rest)

/-- 45_text.md R152, R156: a text with a code that is neither the newline nor covered by the font is refused whole; so is
every other text that pushes the cursor past 65535, among them a line of characters and a text of newlines that does. Which
cursor values count is log entry 13's reading of R152. -/
def Obligations.TextOutsideSubsetRefused : Prop :=
  ∀ (s : State) (x y : U16) (text : List Nat), s.Ready →
    ((∃ ch ∈ text, ch ≠ 0x0A ∧ fontGlyph s.K ch = none) →
      ∃ ch ∈ text, ch ≠ 0x0A ∧ fontGlyph s.K ch = none ∧ exec (.drawText x y text) s = .refused (.codeNotCovered ch)) ∧
    ((∀ ch ∈ text, ch = 0x0A ∨ (fontGlyph s.K ch).isSome) →
      (renderText s.K s.style x.toNat y.toNat text).within = false →
      exec (.drawText x y text) s = .refused .cursorOverflow) ∧
    ((∀ ch ∈ text, ch ≠ 0x0A ∧ (fontGlyph s.K ch).isSome) → text ≠ [] →
      (65535 < x.toNat + 8 * s.style.sx * text.length ∨ 65535 < y.toNat + 8 * s.style.sy) →
      exec (.drawText x y text) s = .refused .cursorOverflow) ∧
    ((∀ ch ∈ text, ch = 0x0A) → 65535 < y.toNat + 8 * s.style.sy * text.length →
      exec (.drawText x y text) s = .refused .cursorOverflow)

/-- 45_text.md R152: a line of covered characters whose cells end at 65535 or before keeps the cursor within `u16`, so
that it is admitted (log entry 13). -/
def Obligations.LineWithinCursorRange : Prop :=
  ∀ (K : Config) (st : Style) (x y : Nat) (line : List Nat), (∀ ch ∈ line, ch ≠ 0x0A ∧ (fontGlyph K ch).isSome) →
    ((renderText K st x y line).within = true ↔
      line = [] ∨ (x + 8 * st.sx * line.length ≤ 65535 ∧ y + 8 * st.sy ≤ 65535))

/-- 45_text.md R153: the style setters write their part of `STYLE`, put nothing on the wire and cannot fault; a scale of
0 is refused. -/
def Obligations.StyleSetters : Prop :=
  ∀ s : State, s.Ready →
    (∀ color : U32, exec (.setForeground color) s = .next { s with
      style := { s.style with fg := color }, responses := s.responses ++ [.done none] }) ∧
    (∀ bg : Option U32, exec (.setBackground bg) s = .next { s with
      style := { s.style with bg := bg }, responses := s.responses ++ [.done none] }) ∧
    (∀ sx sy : U16, sx ≠ 0 → sy ≠ 0 → exec (.setPixelScale sx sy) s = .next { s with
      style := { s.style with sx := sx.toNat, sy := sy.toNat }, responses := s.responses ++ [.done none] }) ∧
    (∀ sx sy : U16, sx = 0 ∨ sy = 0 → exec (.setPixelScale sx sy) s = .refused .zeroScale)

/-! ## The exception -/

/-- 60_exceptions.md R165 to R168, R171, 20_memory.md R42: whichever transfer of whichever request fails, the request, with
every operation that called the one in flight, ends there. Its fault-free events are `before`, the frame of that transfer and
`after`: the trace has `before` and that frame up to the bytes sent, the frame is not closed, chip-select stays at 0 and the
selector at the frame's level, the other lines as they were before the frame, `FAULT` is 1, `BUSY` is 0, and the answer is
fault, with the index of the frame's first event (R165). The cases of `sendData` and `sendCommand` whole. -/
def Obligations.LinkFaultEntry : Prop :=
  (∀ (i : Instr) (s u : State) (evs : List Event) (f : LinkFailure), i.isHost = true → s.Ready → s.link = some f →
    f.hangs = false → exec i { s with link := none } = .next u → u.trace = s.trace ++ evs → f.after < frameCount evs →
    ∃ t before kind bs after, evs = before ++ frameEvents kind bs ++ after ∧ frameCount before = f.after ∧
      exec i s = .next t ∧ t.fault = true ∧ t.busy = false ∧ t.responses = s.responses ++ [.fault (s.trace.length + before.length)] ∧
      t.trace = s.trace ++ (before ++ [.cs false, .dc kind] ++ (bs.take f.sent).map .tx) ∧
      t.wire = s.wire ++ (before ++ [.cs false, .dc kind] ++ (bs.take f.sent).map .tx) ∧
      t.pins = { before.foldl Pins.drive s.pins with cs := false, dc := kind } ∧ t.link = none ∧
      t.style = s.style ∧ t.sink = s.sink ∧ t.requests = s.requests ∧ t.K = s.K) ∧
  (∀ (s : State) (k : Nat), s.Ready → s.link = some ⟨0, k, false⟩ →
    (∀ bytes : List Byte, exec (.sendData bytes) s = .next { s with
      pins := { s.pins with cs := false, dc := true }
      trace := s.trace ++ ([.cs false, .dc true] ++ (bytes.take k).map .tx)
      wire := s.wire ++ ([.cs false, .dc true] ++ (bytes.take k).map .tx)
      fault := true
      busy := false
      link := none
      responses := s.responses ++ [.fault s.trace.length] }) ∧
    (∀ code : Byte, exec (.sendCommand code) s = .next { s with
      pins := { s.pins with cs := false, dc := false }
      trace := s.trace ++ ([.cs false, .dc false] ++ ([code].take k).map .tx)
      wire := s.wire ++ ([.cs false, .dc false] ++ ([code].take k).map .tx)
      fault := true
      busy := false
      link := none
      responses := s.responses ++ [.fault s.trace.length] }))

/-- 41_color_mode.md R100, 60_exceptions.md R167: when a transfer of `setBpp` fails, the first or the second, `MODE`
already holds the new mode; the answer is fault, with the index of the failed frame's first event (R165). -/
def Obligations.SetBppFaultKeepsMode : Prop :=
  ∀ (s : State) (m : Mode) (f : LinkFailure), s.Ready → m ≠ .unset → s.link = some f → f.after < 2 → f.hangs = false →
    ∃ t, exec (.setBpp m) s = .next t ∧ t.fault = true ∧ t.busy = false ∧ t.mode = m ∧ t.pins.cs = false ∧
      t.responses = s.responses ++ [.fault (s.trace.length + 4 * f.after)] ∧
      t.style = s.style ∧ t.op = s.op ∧ t.sink = s.sink

/-- 60_exceptions.md R167: whatever the environment chooses, the trace of a request is a beginning of its fault-free
trace; if the request neither faults nor hangs, all of it, with the same state but for what is left of the
environment's choice. The request is refused in the one case if and only if it is refused in the other. -/
def Obligations.FaultTraceIsABeginning : Prop :=
  ∀ (i : Instr) (s : State), i.isHost = true → s.Ready →
    (∀ r, exec i s = .refused r ↔ exec i { s with link := none } = .refused r) ∧
    ∀ t, exec i s = .next t → ∃ u, exec i { s with link := none } = .next u ∧
      t.trace <+: u.trace ∧ u.fault = false ∧ u.busy = false ∧
      t.K = u.K ∧ t.style = u.style ∧ t.sink = u.sink ∧ t.requests = u.requests ∧
      (t.fault = false → t.busy = false → { t with link := none } = u)

/-- 30_encoding.md R68, 60_exceptions.md R169: while `BUSY = 1`, and while `FAULT = 1`, no request is accepted, whatever it
is. -/
def Obligations.NoRequestAcceptedWhenStopped : Prop :=
  ∀ (i : Instr) (s : State), i.isHost = true →
    (s.busy = true → exec i s = .refused .busy) ∧ (s.busy = false → s.fault = true → exec i s = .refused .faultLatched)

/-- 60_exceptions.md R169, 10_state.md R23: after a fault no step emits an event, answers a request or clears `FAULT`. And
70_reset_and_hazards.md R196, as log entry 29 reads it: after a step that leaves the block stopped for good (a fault, or a
transfer that never completes) with no frame left, a range whose command was latched last and has fewer than four bytes is
not known. -/
def Obligations.FaultIsTerminal : Prop :=
  (∀ s t : State, s.fault = true → step s = .next t →
    t.fault = true ∧ t.trace = s.trace ∧ t.responses = s.responses ∧ t.mode = s.mode ∧ t.pins = s.pins) ∧
  (∀ s t : State, step s = .next t → t.fault = true ∨ t.busy = true → nextFrame t.wire = none → t.sink.params.length < 4 →
    (t.sink.latched = some t.K.CMD_CASET → t.sink.xs = none ∧ t.sink.xe = none) ∧
    (t.K.Wf → t.sink.latched = some t.K.CMD_RASET → t.sink.ys = none ∧ t.sink.ye = none))

/-- 60_exceptions.md R166: the operations that make no transfer cannot fault, whatever the environment chooses; and no
operation faults when the environment lets every transfer succeed. -/
def Obligations.OnlyTransfersFault : Prop :=
  ∀ (i : Instr) (s t : State), exec i s = .next t →
    (i = .getBpp ∨ i = .hardReset ∨ (∃ on, i = .setBacklight on) ∨ (∃ c, i = .setForeground c) ∨
      (∃ b, i = .setBackground b) ∨ (∃ a b, i = .setPixelScale a b) ∨ s.link = none) →
    t.fault = s.fault ∧ t.busy = s.busy

/-- 20_memory.md R42, 10_state.md R23: a transfer that never completes, at any transfer of any request, leaves the block busy
with no answer: the trace has that frame begun and not closed and is a beginning of the fault-free one. The case of `sendData`
whole. And no step from there ends it. -/
def Obligations.HungTransferStaysBusy : Prop :=
  (∀ (i : Instr) (s u : State) (evs : List Event) (f : LinkFailure), i.isHost = true → s.Ready → s.link = some f →
    f.hangs = true → exec i { s with link := none } = .next u → u.trace = s.trace ++ evs → f.after < frameCount evs →
    ∃ t begun, exec i s = .next t ∧ t.busy = true ∧ t.fault = false ∧ t.responses = s.responses ∧ t.link = none ∧
      t.pins.cs = false ∧ begun <+: evs ∧ frameCount begun = f.after + 1 ∧ t.trace = s.trace ++ begun ∧
      t.wire = s.wire ++ begun ∧ t.style = s.style ∧ t.sink = s.sink ∧ t.requests = s.requests ∧ t.K = s.K) ∧
  (∀ (s : State) (bytes : List Byte) (k : Nat), s.Ready → s.link = some ⟨0, k, true⟩ →
    exec (.sendData bytes) s = .next { s with
      pins := { s.pins with cs := false, dc := true }
      trace := s.trace ++ ([.cs false, .dc true] ++ (bytes.take k).map .tx)
      wire := s.wire ++ ([.cs false, .dc true] ++ (bytes.take k).map .tx)
      busy := true
      link := none }) ∧
  ∀ t u : State, t.busy = true → step t = .next u → u.busy = true ∧ u.trace = t.trace ∧ u.responses = t.responses

/-! ## Whole-machine rules -/

/-- 10_state.md R21: `MODE` is written by `setBpp` and by `bringUp`, which runs it, and by nothing else; and once it is
not `UNSET` no step makes it `UNSET` again. So a block that is `BroughtUp` (70_reset_and_hazards.md R188) meets `NoFault` and
`ModeSet`. -/
def Obligations.ModeWrittenOnlyBySetBpp : Prop :=
  (∀ (i : Instr) (s t : State), exec i s = .next t → (∀ m, i ≠ .setBpp m) → i ≠ .bringUp → t.mode = s.mode) ∧
  (∀ s t : State, s.K.Wf → s.mode ≠ .unset → step s = .next t → t.mode ≠ .unset) ∧
  (∀ s : State, s.K.Wf → s.BroughtUp → s.NoFault ∧ s.ModeSet)

/-- 10_state.md R22, 20_memory.md R53 (1), (2), (4): a request only adds events to the end of the trace, the same events
to what the sink will read, and each latch then holds the level last written to its line. -/
def Obligations.PinsHoldLastLevel : Prop :=
  ∀ (i : Instr) (s t : State), i.isHost = true → exec i s = .next t →
    ∃ evs, t.trace = s.trace ++ evs ∧ t.wire = s.wire ++ evs ∧ t.pins = evs.foldl Pins.drive s.pins

/-- 40_link.md R92: from chip-select at 1, the chip-select events of a request alternate strictly, beginning with
`CS(0)`, also when a fault cuts it short. -/
def Obligations.ChipSelectAlternates : Prop :=
  ∀ (i : Instr) (s t : State), i.isHost = true → s.pins.cs = true → exec i s = .next t →
    ∃ evs, t.trace = s.trace ++ evs ∧ csAlternates true evs = true

/-- The frame of the host's requests (10_state.md R20, R29; 00_scope.md R8): none writes the configuration, the sink or
the pending requests; `STYLE` is written by its setters only, the operand latches by the draws only (log entry 4); at
most one answer is given, and only `getBpp` adds to the values an observer compares (R32). -/
def Obligations.RequestFrame : Prop :=
  ∀ (i : Instr) (s t : State), i.isHost = true → exec i s = .next t →
    t.K = s.K ∧ t.sink = s.sink ∧ t.requests = s.requests ∧
    (t.responses = s.responses ∨ ∃ r, t.responses = s.responses ++ [r]) ∧
    t.readings = s.readings ++ (if i = .getBpp then [s.mode] else []) ∧
    ((∀ c, i ≠ .setForeground c) → (∀ b, i ≠ .setBackground b) → (∀ a b, i ≠ .setPixelScale a b) →
      t.style = s.style) ∧
    ((∀ x y w h c, i ≠ .drawSolidRect x y w h c) → (∀ c, i ≠ .fill c) → i ≠ .bringUp → (∀ x y l, i ≠ .drawText x y l) →
      t.op = s.op)

/-! ## The sink -/

/-- 20_memory.md R47, R48: a wire row always completes and acts on the sink alone. -/
def Obligations.WireRowsActOnTheSinkAlone : Prop :=
  ∀ (i : Instr) (s : State), i.isHost = false → ∃ z, exec i s = .next { s with sink := z }

/-- 20_memory.md R48: a command frame of one of the twelve rows other than the memory write, arriving when the command
before it left nothing unfinished, is latched and clears the parameters. That window, streams and frame memory stay, after
the software-reset, memory-access-control and colour-mode commands too, is log entry 25 (DEDUCED, unsafe: the source does not
say what a reset does to the window); that they stay after the two sleep commands is log entry 30 (DESIGN CHOICE, unsafe: the
source does not say what the controller keeps while asleep); that the controller's pixel format is unknown after the
software-reset and the colour-mode command is log entry 28. -/
def Obligations.CommandFramesLatch : Prop :=
  ∀ s : State, s.K.Wf → s.sink.Complete s.K →
    let latch := fun (c : Byte) (format : Option Byte) =>
      (Host.Outcome.next { s with sink := { s.sink with latched := some c, params := [], format := format } } :
        Host.Outcome State Fault Refusal)
    exec .cmdSwreset s = latch s.K.CMD_SWRESET none ∧ exec .cmdSlpin s = latch s.K.CMD_SLPIN s.sink.format ∧
    exec .cmdSlpout s = latch s.K.CMD_SLPOUT s.sink.format ∧ exec .cmdNoron s = latch s.K.CMD_NORON s.sink.format ∧
    exec .cmdInvoff s = latch s.K.CMD_INVOFF s.sink.format ∧ exec .cmdInvon s = latch s.K.CMD_INVON s.sink.format ∧
    exec .cmdDispoff s = latch s.K.CMD_DISPOFF s.sink.format ∧ exec .cmdDispon s = latch s.K.CMD_DISPON s.sink.format ∧
    exec .cmdCaset s = latch s.K.CMD_CASET s.sink.format ∧ exec .cmdRaset s = latch s.K.CMD_RASET s.sink.format ∧
    exec .cmdMadctl s = latch s.K.CMD_MADCTL s.sink.format ∧ exec .cmdColmod s = latch s.K.CMD_COLMOD none

/-- 20_memory.md R48: the memory-write command is latched and opens a stream with the window in force. -/
def Obligations.MemoryWriteOpensStream : Prop :=
  ∀ s : State, s.K.Wf → s.sink.Complete s.K →
    exec .cmdRamwr s = .next { s with sink := { s.sink with
      latched := some s.K.CMD_RAMWR
      params := []
      streams := s.sink.streams ++ [⟨s.sink.xs, s.sink.xe, s.sink.ys, s.sink.ye, s.mode, []⟩] } }

/-- 20_memory.md R50 (d), (e), (g): what a command frame leaves open (log entry 14). A code of none of the thirteen rows is
latched, and nothing is known of the window and the frame memory after it. When any of the thirteen commands arrives and the
column (row) command before it has had fewer than four bytes, the column (row) range is open. After a stream, one that ends in
the middle of a pixel too, it leaves the frame memory as it was: the whole pixels have landed (R49), and the place of the cut
one is open already (UnspecifiedDataForgets). Beside that the command does what it always does: it is latched, the memory
write opens a stream with the window then in force, and after the software-reset and the colour-mode command the pixel format
is unknown (log entry 28). That the rest of the window and the frame memory stay, after the software-reset command too, is log
entry 25 (DEDUCED, unsafe: the source does not say what a reset does to the window); that they stay after the two sleep
commands is log entry 30 (DESIGN CHOICE, unsafe: the source does not say what the controller keeps while asleep). -/
def Obligations.CommandsThatLeaveTheSinkOpen : Prop :=
  ∀ s : State, s.K.Wf →
    (∀ c : Byte, c ∉ s.K.codes →
      exec (.cmdFrame c) s = .next { s with sink := { s.sink with
        latched := some c, params := [], xs := none, xe := none, ys := none, ye := none, format := none, mem := [] } }) ∧
    ∀ ic ∈ commandRows s.K,
      let arrive := fun z : Sink => { s with sink := { z with
        latched := some ic.2
        params := []
        format := if ic.1 = .cmdSwreset ∨ ic.1 = .cmdColmod then none else z.format
        streams := z.streams ++ (if ic.1 = .cmdRamwr then [⟨z.xs, z.xe, z.ys, z.ye, s.mode, []⟩] else []) } }
      (s.sink.params.length < 4 → s.sink.latched = some s.K.CMD_CASET →
        exec ic.1 s = .next (arrive { s.sink with xs := none, xe := none })) ∧
      (s.sink.params.length < 4 → s.sink.latched = some s.K.CMD_RASET →
        exec ic.1 s = .next (arrive { s.sink with ys := none, ye := none })) ∧
      (s.sink.latched = some s.K.CMD_RAMWR → exec ic.1 s = .next (arrive s.sink))

/-- 20_memory.md R48: a data frame joins `Z.PARAMS` and leaves the latched command; the frame of zero bytes changes
nothing. After a range command fewer than four bytes do nothing more. Parameters of the memory-access-control command do
nothing more either, and the single one of the colour-mode command sets the controller's pixel format, with window and frame
memory as they were: log entries 25 and 28. -/
def Obligations.DataFramesJoinParams : Prop :=
  ∀ (s : State) (bs : List Byte),
    exec (.dataFrame []) s = .next s ∧
    (∃ z, exec (.dataFrame bs) s = .next { s with sink := z } ∧ z.latched = s.sink.latched ∧
      z.params = s.sink.params ++ bs ∧ z.streams.length = s.sink.streams.length) ∧
    (s.K.Wf → bs ≠ [] →
      ((s.sink.latched = some s.K.CMD_MADCTL ∨
          (s.sink.latched = some s.K.CMD_CASET ∨ s.sink.latched = some s.K.CMD_RASET) ∧ (s.sink.params ++ bs).length < 4) →
        exec (.dataFrame bs) s = .next { s with sink := { s.sink with params := s.sink.params ++ bs } }) ∧
      (s.sink.latched = some s.K.CMD_COLMOD →
        exec (.dataFrame bs) s = .next { s with sink := { s.sink with
          params := s.sink.params ++ bs
          format := if (s.sink.params ++ bs).length = 1 then (s.sink.params ++ bs).head? else none } }))

/-- 20_memory.md R48: four data bytes after the column (row) command program the column (row) range, big-endian start and
end, in one frame or over several; everything else stays. -/
def Obligations.RangeDataProgramsWindow : Prop :=
  ∀ (s : State) (a b c d : Byte) (bs : List Byte), s.K.Wf → bs ≠ [] → s.sink.params ++ bs = [a, b, c, d] →
    (s.sink.latched = some s.K.CMD_CASET →
      exec (.dataFrame bs) s = .next { s with sink := { s.sink with
        params := [a, b, c, d]
        xs := some (BitVec.ofNat 16 (a.toNat * 256 + b.toNat))
        xe := some (BitVec.ofNat 16 (c.toNat * 256 + d.toNat)) } }) ∧
    (s.sink.latched = some s.K.CMD_RASET →
      exec (.dataFrame bs) s = .next { s with sink := { s.sink with
        params := [a, b, c, d]
        ys := some (BitVec.ofNat 16 (a.toNat * 256 + b.toNat))
        ye := some (BitVec.ofNat 16 (c.toNat * 256 + d.toNat)) } })

/-- 20_memory.md R48, R49, 40_link.md R94: data for a stream with a known window and pixel size, at most as much as the window
holds, starting and ending anywhere in a pixel: every pixel `j` it completes lands at column `xs + (j mod Wd)`, row
`ys + (j div Wd)`, where it then reads, and every pixel that it neither completes nor leaves half sent reads as before. The
pixel size is that of log entry 15, and it is known as long as the controller's pixel format was last set by the mode byte of
the stream's mode (70_reset_and_hazards.md R193, log entry 28). -/
def Obligations.PixelLands : Prop :=
  ∀ (s : State) (before : List Stream) (st : Stream) (xs xe ys ye : U16) (p : Nat) (bs : List Byte),
    s.K.Wf → s.sink.mem.wf → s.sink.latched = some s.K.CMD_RAMWR → s.sink.streams = before ++ [st] →
    st.xs = some xs → st.xe = some xe → st.ys = some ys → st.ye = some ye → pixelSize st.mode = some p →
    s.sink.format = some (modeByte s.K st.mode) → bs ≠ [] →
    let all := st.bytes ++ bs
    all.length ≤ (xe.toNat + 1 - xs.toNat) * (ye.toNat + 1 - ys.toNat) * p →
    ∃ m, exec (.dataFrame bs) s = .next { s with sink := { s.sink with
        params := s.sink.params ++ bs
        streams := before ++ [{ st with bytes := all }]
        mem := m } } ∧
      (∀ j, st.bytes.length / p ≤ j → j < all.length / p →
        m.read (pixelPlace xs xe ys j) = some ((all.drop (j * p)).take p)) ∧
      ∀ a, (∀ j, st.bytes.length / p ≤ j → j * p < all.length → a ≠ pixelPlace xs xe ys j) → m.read a = s.sink.mem.read a

/-- 20_memory.md R50 (a) to (g): data with no command latched, after one of the eight named commands that take no parameters,
or after a code of no row, leaves window and frame memory open; a fifth and later byte of a range command leaves its range
open; pixel data for a window not known, with a pixel size not known, or past the end of the window, leaves the frame memory
open; and while a stream stands in the middle of a pixel, the place of that pixel is open (log entry 14; the pixel size: log
entries 15 and 28). -/
def Obligations.UnspecifiedDataForgets : Prop :=
  ∀ (s : State) (bs : List Byte), s.K.Wf → bs ≠ [] →
    ((∀ c : Byte, s.sink.latched = some c →
        c ∉ [s.K.CMD_CASET, s.K.CMD_RASET, s.K.CMD_RAMWR, s.K.CMD_MADCTL, s.K.CMD_COLMOD]) →
      exec (.dataFrame bs) s = .next { s with sink := { s.sink with
        params := s.sink.params ++ bs, xs := none, xe := none, ys := none, ye := none, format := none, mem := [] } }) ∧
    (4 < (s.sink.params ++ bs).length → s.sink.latched = some s.K.CMD_CASET →
      exec (.dataFrame bs) s = .next { s with sink := { s.sink with
        params := s.sink.params ++ bs, xs := none, xe := none } }) ∧
    (4 < (s.sink.params ++ bs).length → s.sink.latched = some s.K.CMD_RASET →
      exec (.dataFrame bs) s = .next { s with sink := { s.sink with
        params := s.sink.params ++ bs, ys := none, ye := none } }) ∧
    ∀ (before : List Stream) (st : Stream), s.sink.latched = some s.K.CMD_RAMWR → s.sink.streams = before ++ [st] →
      ((st.xs = none ∨ st.xe = none ∨ st.ys = none ∨ st.ye = none ∨ pixelSize st.mode = none ∨
          s.sink.format ≠ some (modeByte s.K st.mode) ∨
          (∃ xs xe ys ye p, st.xs = some xs ∧ st.xe = some xe ∧ st.ys = some ys ∧ st.ye = some ye ∧
            pixelSize st.mode = some p ∧
            (xe.toNat + 1 - xs.toNat) * (ye.toNat + 1 - ys.toNat) * p < (st.bytes ++ bs).length)) →
        exec (.dataFrame bs) s = .next { s with sink := { s.sink with
          params := s.sink.params ++ bs
          streams := before ++ [{ st with bytes := st.bytes ++ bs }]
          mem := [] } }) ∧
      (∀ (xs xe ys ye : U16) (p : Nat), s.sink.mem.wf → st.xs = some xs → st.xe = some xe → st.ys = some ys →
        st.ye = some ye → pixelSize st.mode = some p → s.sink.format = some (modeByte s.K st.mode) →
        (st.bytes ++ bs).length ≤ (xe.toNat + 1 - xs.toNat) * (ye.toNat + 1 - ys.toNat) * p →
        (st.bytes ++ bs).length % p ≠ 0 →
        ∃ m, exec (.dataFrame bs) s = .next { s with sink := { s.sink with
            params := s.sink.params ++ bs
            streams := before ++ [{ st with bytes := st.bytes ++ bs }]
            mem := m } } ∧
          m.read (pixelPlace xs xe ys ((st.bytes ++ bs).length / p)) = none)

/-! ## From the request to the controller -/

/-- 43_rasterizer.md R122, 95_test_vectors.md S1: after `drawSolidRect` in its admitted subset, in any set colour mode,
with the wire read to its end, the sink's effective window is exactly the clamped rectangle, and it lies on the
surface. -/
def Obligations.DrawnWindowIsTheClampedRect : Prop :=
  ∀ (s t : State) (x y w h : U16) (color : U32), s.K.Wf → s.mode ≠ .unset → s.requests = [] →
    s.wire = [] →
    rectAdmitted s.K (rectOf x y w h) = true →
    let r := clamp s.K (rectOf x y w h)
    let n := pixelFrames s.K s.mode (r.w * r.h)
    s.linkCarries (5 + n) = true → exec (.drawSolidRect x y w h color) s = .next t →
    ∃ u, Sys2Proof.core.run (5 + n) t = .next u ∧ u.wire = [] ∧ u.trace = t.trace ∧
      u.sink.window = (some (BitVec.ofNat 16 r.x), some (BitVec.ofNat 16 r.y),
        some (BitVec.ofNat 16 (r.x + r.w - 1)), some (BitVec.ofNat 16 (r.y + r.h - 1))) ∧
      u.sink.latched = some s.K.CMD_RAMWR ∧
      r.x ≤ r.x + r.w - 1 ∧ r.x + r.w - 1 < s.K.WIDTH.toNat ∧ r.y ≤ r.y + r.h - 1 ∧ r.y + r.h - 1 < s.K.HEIGHT.toNat

/-- 43_rasterizer.md R124, 20_memory.md R49: in 16-bit and 16-bit-truncated mode, after `drawSolidRect` in its admitted
subset, with the wire read to its end, every pixel of the clamped rectangle holds the packed colour and every other
pixel of the frame memory reads as before. The pixel size is that of log entry 15; that the controller's pixel format was last
set by the mode's byte is the condition of 70_reset_and_hazards.md R193 (log entry 28). -/
def Obligations.DrawPaintsTheClampedRect : Prop :=
  ∀ (s t : State) (x y w h : U16) (color : U32), s.K.Wf → s.mode = .b16 ∨ s.mode = .b16t → s.requests = [] →
    s.wire = [] → s.sink.mem.wf → s.sink.Complete s.K → s.sink.format = some (modeByte s.K s.mode) →
    rectAdmitted s.K (rectOf x y w h) = true →
    let r := clamp s.K (rectOf x y w h)
    s.linkCarries (5 + r.w * r.h) = true → exec (.drawSolidRect x y w h color) s = .next t →
    ∃ u, Sys2Proof.core.run (5 + r.w * r.h) t = .next u ∧ u.wire = [] ∧
      ∀ column row : Nat, column < 65536 → row < 65536 →
        ((r.x ≤ column ∧ column < r.x + r.w ∧ r.y ≤ row ∧ row < r.y + r.h) →
          u.sink.mem.read (pixelKey column row) = some (pack s.mode color)) ∧
        (¬(r.x ≤ column ∧ column < r.x + r.w ∧ r.y ≤ row ∧ row < r.y + r.h) →
          u.sink.mem.read (pixelKey column row) = s.sink.mem.read (pixelKey column row))

/-- 70_reset_and_hazards.md R187: after a fault-free `bringUp` from a state whose wire has been read, with the wire read
again to its end, the sink's window is the whole surface, the last latched command is display-on, and one more stream
has been received, of `W * H` pixels of the starting colour; the controller's pixel format was last set by the mode's byte
(log entry 28). -/
def Obligations.BringUpReachesTheSink : Prop :=
  ∀ s t : State, s.K.Wf → s.requests = [] → s.wire = [] →
    let n := pixelFrames s.K s.K.INIT_MODE (s.K.WIDTH.toNat * s.K.HEIGHT.toNat)
    s.linkCarries (14 + n) = true → exec .bringUp s = .next t →
    ∃ u, Sys2Proof.core.run (14 + n) t = .next u ∧
      u.sink.window = (some 0, some 0, some (s.K.WIDTH - 1), some (s.K.HEIGHT - 1)) ∧
      u.sink.latched = some s.K.CMD_DISPON ∧ u.sink.format = some (modeByte s.K s.K.INIT_MODE) ∧
      u.sink.streams = s.sink.streams ++ [⟨some 0, some (s.K.WIDTH - 1), some 0, some (s.K.HEIGHT - 1), s.K.INIT_MODE,
        (List.replicate n (pack s.K.INIT_MODE s.K.INIT_COLOR)).flatten⟩]
end

