-- ==== Sys2Proof/Laws/Config.lean ====
section
/-! SUPPORT. The configuration of the model is one the spec admits (00_scope.md R8), whatever its OPEN fields are. -/

namespace Sys2Proof

/-- A settable mode is not the unset sentinel. -/
theorem Config.settableMode_ne_unset (n : Fin 4) : Config.settableMode n ≠ .unset := by
  revert n; decide

/-- `K` is well formed, its OPEN fields being free. -/
theorem Config.K_wf : Config.K.Wf := by
  refine ⟨?_, ?_, Config.settableMode_ne_unset _, Nat.le_add_left 1 _, Nat.le_add_left 1 _, by decide⟩
  · have := Config.openWidthLessOne.isLt
    simp only [Config.K, BitVec.toNat_ofNat]; omega
  · have := Config.openHeightLessOne.isLt
    simp only [Config.K, BitVec.toNat_ofNat]; omega

end Sys2Proof
end

