-- ==== Sys2Proof/Laws/Decode.lean ====
section
/-! SUPPORT. The scanner of the wire on the two frames: a frame is found, whole, with what follows it left on the
wire. -/

namespace Sys2Proof

/-- Inside a bracket the scanner collects bytes. -/
theorem nextBracket_tx (acc : List Event) (bs : List Byte) (rest : List Event) :
    nextBracket (some acc) (bs.map .tx ++ rest) = nextBracket (some ((bs.map Event.tx).reverse ++ acc)) rest := by
  induction bs generalizing acc with
  | nil => rfl
  | cons b bs ih => simp [nextBracket, ih]

/-- The bytes between two chip-select edges. -/
@[simp] theorem bracketBytes_frame (kind : Bit) (bs : List Byte) :
    bracketBytes (.dc kind :: bs.map .tx) = bs := by
  simp [bracketBytes, List.filterMap_map]

/-- The kind of a frame's bracket. -/
@[simp] theorem bracketKind_frame (kind : Bit) (bs : List Byte) :
    bracketKind (.dc kind :: bs.map .tx) = some kind := by
  cases bs <;> simp [bracketKind]

/-- A frame with a byte, or a data frame, is a frame to the scanner. -/
theorem isFrame_frame {kind : Bit} {bs : List Byte} (h : kind = true ∨ bs ≠ []) :
    isFrame (.dc kind :: bs.map .tx) = true := by
  simp only [isFrame, bracketBytes_frame, bracketKind_frame]
  rcases h with rfl | h
  · simp
  · cases bs with
    | nil => exact absurd rfl h
    | cons => simp

/-- The scanner finds a frame at the head of the wire. -/
theorem nextFrame_frame {kind : Bit} {bs : List Byte} (h : kind = true ∨ bs ≠ []) (rest : List Event) :
    nextFrame (frameEvents kind bs ++ rest) = some (.dc kind :: bs.map .tx, rest) := by
  have hf := isFrame_frame h
  simp only [nextFrame, frameEvents, List.cons_append, List.nil_append, List.append_assoc, nextBracket]
  rw [nextBracket_tx]
  simp [nextBracket, hf]

/-- The scanner finds a command frame. -/
theorem nextFrame_cmd (c : Byte) (rest : List Event) :
    nextFrame (cmdFrameEvents c ++ rest) = some ([.dc false, .tx c], rest) :=
  nextFrame_frame (.inr (by simp)) rest

/-- The scanner finds a data frame. -/
theorem nextFrame_data (bs : List Byte) (rest : List Event) :
    nextFrame (dataFrameEvents bs ++ rest) = some (.dc true :: bs.map .tx, rest) :=
  nextFrame_frame (.inl rfl) rest

/-- A command frame decodes to the row of its code. -/
@[simp] theorem decodeBracket_cmd (K : Config) (c : Byte) :
    decodeBracket K [.dc false, .tx c] = .ok (decodeCommand K c) := rfl

/-- A data frame decodes to its payload. -/
@[simp] theorem decodeBracket_data (K : Config) (bs : List Byte) :
    decodeBracket K (.dc true :: bs.map .tx) = .ok (.dataFrame bs) := by
  simp only [decodeBracket, bracketKind_frame, bracketBytes_frame]

/-- What the scanner leaves on the wire is an end of it. -/
theorem nextBracket_suffix {acc : Option (List Event)} {evs b rest : List Event}
    (h : nextBracket acc evs = some (b, rest)) : rest <:+ evs := by
  induction evs generalizing acc with
  | nil => cases acc <;> simp [nextBracket] at h; simp [h.2]
  | cons e evs ih =>
    have go : ∀ {acc'}, nextBracket acc' evs = some (b, rest) → rest <:+ e :: evs :=
      fun h => (ih h).trans (List.suffix_cons e evs)
    cases acc with
    | none => cases e with
      | cs l => cases l <;> exact go (by simpa [nextBracket] using h)
      | _ => exact go (by simpa [nextBracket] using h)
    | some a => cases e with
      | cs l =>
        cases l with
        | false => exact go (by simpa [nextBracket] using h)
        | true =>
          simp only [nextBracket] at h
          split at h
          · simp only [Option.some.injEq, Prod.mk.injEq] at h; exact h.2 ▸ List.suffix_cons _ _
          · exact go h
      | _ => exact go (by simpa [nextBracket] using h)

end Sys2Proof
end

