-- ==== Sys2Proof/Laws/State.lean ====
section
/-! SUPPORT. One lemma per field per named update of State, true by rfl, so that no later proof unfolds an update; what a
fresh machine holds (State.construct, State.reset); the pins after each event. -/

namespace Sys2Proof.Machine

variable (s : State)

/-! `State.record` -/

@[simp] theorem State.record_K (evs : List Event) : (s.record evs).K = s.K := rfl
@[simp] theorem State.record_mode (evs : List Event) : (s.record evs).mode = s.mode := rfl
@[simp] theorem State.record_pins (evs : List Event) : (s.record evs).pins = s.pins := rfl
@[simp] theorem State.record_fault (evs : List Event) : (s.record evs).fault = s.fault := rfl
@[simp] theorem State.record_busy (evs : List Event) : (s.record evs).busy = s.busy := rfl
@[simp] theorem State.record_op (evs : List Event) : (s.record evs).op = s.op := rfl
@[simp] theorem State.record_style (evs : List Event) : (s.record evs).style = s.style := rfl
@[simp] theorem State.record_trace (evs : List Event) : (s.record evs).trace = s.trace ++ evs := rfl
@[simp] theorem State.record_wire (evs : List Event) : (s.record evs).wire = s.wire ++ evs := rfl
@[simp] theorem State.record_requests (evs : List Event) : (s.record evs).requests = s.requests := rfl
@[simp] theorem State.record_responses (evs : List Event) : (s.record evs).responses = s.responses := rfl
@[simp] theorem State.record_link (evs : List Event) : (s.record evs).link = s.link := rfl
@[simp] theorem State.record_sink (evs : List Event) : (s.record evs).sink = s.sink := rfl

/-! `State.answer` -/

@[simp] theorem State.answer_K (r : Response) : (s.answer r).K = s.K := rfl
@[simp] theorem State.answer_mode (r : Response) : (s.answer r).mode = s.mode := rfl
@[simp] theorem State.answer_pins (r : Response) : (s.answer r).pins = s.pins := rfl
@[simp] theorem State.answer_fault (r : Response) : (s.answer r).fault = s.fault := rfl
@[simp] theorem State.answer_busy (r : Response) : (s.answer r).busy = s.busy := rfl
@[simp] theorem State.answer_op (r : Response) : (s.answer r).op = s.op := rfl
@[simp] theorem State.answer_style (r : Response) : (s.answer r).style = s.style := rfl
@[simp] theorem State.answer_trace (r : Response) : (s.answer r).trace = s.trace := rfl
@[simp] theorem State.answer_wire (r : Response) : (s.answer r).wire = s.wire := rfl
@[simp] theorem State.answer_requests (r : Response) : (s.answer r).requests = s.requests := rfl
@[simp] theorem State.answer_responses (r : Response) : (s.answer r).responses = s.responses ++ [r] := rfl
@[simp] theorem State.answer_link (r : Response) : (s.answer r).link = s.link := rfl
@[simp] theorem State.answer_sink (r : Response) : (s.answer r).sink = s.sink := rfl

/-! `State.takeLinkFault` -/

@[simp] theorem State.takeLinkFault_K (n : Nat) : (s.takeLinkFault n).K = s.K := rfl
@[simp] theorem State.takeLinkFault_mode (n : Nat) : (s.takeLinkFault n).mode = s.mode := rfl
@[simp] theorem State.takeLinkFault_pins (n : Nat) : (s.takeLinkFault n).pins = s.pins := rfl
@[simp] theorem State.takeLinkFault_fault (n : Nat) : (s.takeLinkFault n).fault = true := rfl
@[simp] theorem State.takeLinkFault_busy (n : Nat) : (s.takeLinkFault n).busy = false := rfl
@[simp] theorem State.takeLinkFault_op (n : Nat) : (s.takeLinkFault n).op = s.op := rfl
@[simp] theorem State.takeLinkFault_style (n : Nat) : (s.takeLinkFault n).style = s.style := rfl
@[simp] theorem State.takeLinkFault_trace (n : Nat) : (s.takeLinkFault n).trace = s.trace := rfl
@[simp] theorem State.takeLinkFault_wire (n : Nat) : (s.takeLinkFault n).wire = s.wire := rfl
@[simp] theorem State.takeLinkFault_requests (n : Nat) : (s.takeLinkFault n).requests = s.requests := rfl
@[simp] theorem State.takeLinkFault_responses (n : Nat) : (s.takeLinkFault n).responses = s.responses ++ [.fault (s.trace.length - (n + 2))] := rfl
@[simp] theorem State.takeLinkFault_link (n : Nat) : (s.takeLinkFault n).link = s.link := rfl
@[simp] theorem State.takeLinkFault_sink (n : Nat) : (s.takeLinkFault n).sink = s.sink := rfl

/-! `State.sinkCommand` -/

@[simp] theorem State.sinkCommand_K (c : Byte) : (s.sinkCommand c).K = s.K := rfl
@[simp] theorem State.sinkCommand_mode (c : Byte) : (s.sinkCommand c).mode = s.mode := rfl
@[simp] theorem State.sinkCommand_pins (c : Byte) : (s.sinkCommand c).pins = s.pins := rfl
@[simp] theorem State.sinkCommand_fault (c : Byte) : (s.sinkCommand c).fault = s.fault := rfl
@[simp] theorem State.sinkCommand_busy (c : Byte) : (s.sinkCommand c).busy = s.busy := rfl
@[simp] theorem State.sinkCommand_op (c : Byte) : (s.sinkCommand c).op = s.op := rfl
@[simp] theorem State.sinkCommand_style (c : Byte) : (s.sinkCommand c).style = s.style := rfl
@[simp] theorem State.sinkCommand_trace (c : Byte) : (s.sinkCommand c).trace = s.trace := rfl
@[simp] theorem State.sinkCommand_wire (c : Byte) : (s.sinkCommand c).wire = s.wire := rfl
@[simp] theorem State.sinkCommand_requests (c : Byte) : (s.sinkCommand c).requests = s.requests := rfl
@[simp] theorem State.sinkCommand_responses (c : Byte) : (s.sinkCommand c).responses = s.responses := rfl
@[simp] theorem State.sinkCommand_link (c : Byte) : (s.sinkCommand c).link = s.link := rfl
@[simp] theorem State.sinkCommand_sink (c : Byte) : (s.sinkCommand c).sink = s.sink.command s.K s.mode c := rfl

/-! `State.sinkData` -/

@[simp] theorem State.sinkData_K (bs : List Byte) : (s.sinkData bs).K = s.K := rfl
@[simp] theorem State.sinkData_mode (bs : List Byte) : (s.sinkData bs).mode = s.mode := rfl
@[simp] theorem State.sinkData_pins (bs : List Byte) : (s.sinkData bs).pins = s.pins := rfl
@[simp] theorem State.sinkData_fault (bs : List Byte) : (s.sinkData bs).fault = s.fault := rfl
@[simp] theorem State.sinkData_busy (bs : List Byte) : (s.sinkData bs).busy = s.busy := rfl
@[simp] theorem State.sinkData_op (bs : List Byte) : (s.sinkData bs).op = s.op := rfl
@[simp] theorem State.sinkData_style (bs : List Byte) : (s.sinkData bs).style = s.style := rfl
@[simp] theorem State.sinkData_trace (bs : List Byte) : (s.sinkData bs).trace = s.trace := rfl
@[simp] theorem State.sinkData_wire (bs : List Byte) : (s.sinkData bs).wire = s.wire := rfl
@[simp] theorem State.sinkData_requests (bs : List Byte) : (s.sinkData bs).requests = s.requests := rfl
@[simp] theorem State.sinkData_responses (bs : List Byte) : (s.sinkData bs).responses = s.responses := rfl
@[simp] theorem State.sinkData_link (bs : List Byte) : (s.sinkData bs).link = s.link := rfl
@[simp] theorem State.sinkData_sink (bs : List Byte) : (s.sinkData bs).sink = s.sink.data s.K bs := rfl

/-! `State.takeFrame` -/

@[simp] theorem State.takeFrame_K (rest : List Event) : (s.takeFrame rest).K = s.K := rfl
@[simp] theorem State.takeFrame_mode (rest : List Event) : (s.takeFrame rest).mode = s.mode := rfl
@[simp] theorem State.takeFrame_pins (rest : List Event) : (s.takeFrame rest).pins = s.pins := rfl
@[simp] theorem State.takeFrame_fault (rest : List Event) : (s.takeFrame rest).fault = s.fault := rfl
@[simp] theorem State.takeFrame_busy (rest : List Event) : (s.takeFrame rest).busy = s.busy := rfl
@[simp] theorem State.takeFrame_op (rest : List Event) : (s.takeFrame rest).op = s.op := rfl
@[simp] theorem State.takeFrame_style (rest : List Event) : (s.takeFrame rest).style = s.style := rfl
@[simp] theorem State.takeFrame_trace (rest : List Event) : (s.takeFrame rest).trace = s.trace := rfl
@[simp] theorem State.takeFrame_wire (rest : List Event) : (s.takeFrame rest).wire = rest := rfl
@[simp] theorem State.takeFrame_requests (rest : List Event) : (s.takeFrame rest).requests = s.requests := rfl
@[simp] theorem State.takeFrame_responses (rest : List Event) : (s.takeFrame rest).responses = s.responses := rfl
@[simp] theorem State.takeFrame_link (rest : List Event) : (s.takeFrame rest).link = s.link := rfl
@[simp] theorem State.takeFrame_sink (rest : List Event) : (s.takeFrame rest).sink = s.sink.passLines (s.wire.take (s.wire.length - rest.length)) := rfl

/-! `State.settle` -/

@[simp] theorem State.settle_K : (s.settle).K = s.K := by unfold State.settle; split <;> rfl
@[simp] theorem State.settle_mode : (s.settle).mode = s.mode := by unfold State.settle; split <;> rfl
@[simp] theorem State.settle_pins : (s.settle).pins = s.pins := by unfold State.settle; split <;> rfl
@[simp] theorem State.settle_fault : (s.settle).fault = s.fault := by unfold State.settle; split <;> rfl
@[simp] theorem State.settle_busy : (s.settle).busy = s.busy := by unfold State.settle; split <;> rfl
@[simp] theorem State.settle_op : (s.settle).op = s.op := by unfold State.settle; split <;> rfl
@[simp] theorem State.settle_style : (s.settle).style = s.style := by unfold State.settle; split <;> rfl
@[simp] theorem State.settle_trace : (s.settle).trace = s.trace := by unfold State.settle; split <;> rfl
@[simp] theorem State.settle_wire : (s.settle).wire = s.wire := by unfold State.settle; split <;> rfl
@[simp] theorem State.settle_requests : (s.settle).requests = s.requests := by unfold State.settle; split <;> rfl
@[simp] theorem State.settle_responses : (s.settle).responses = s.responses := by unfold State.settle; split <;> rfl
@[simp] theorem State.settle_link : (s.settle).link = s.link := by unfold State.settle; split <;> rfl

/-- A ready block leaves the sink alone at the end of a step. -/
@[simp] theorem State.settle_of_ready (h : s.busy = false ∧ s.fault = false) : s.settle = s := by simp [State.settle, h]

/-- The sink at the end of a step: with its command closed, if the block has stopped for good and no
frame is left, else as it was. -/
theorem State.settle_sink : s.settle.sink =
    if (s.busy || s.fault) && (nextFrame s.wire).isNone then s.sink.closeCommand s.K else s.sink := by
  unfold State.settle; split <;> rfl

/-- Nothing but the sink changes at the end of a step. -/
theorem State.settle_eq : s.settle = { s with sink := s.settle.sink } := by unfold State.settle; split <;> rfl

/-! An action leaves these fields alone whatever it is. -/

@[simp] theorem Act.apply_K (a : Act) : (Act.apply s a).K = s.K := by cases a <;> rfl
@[simp] theorem Act.apply_fault (a : Act) : (Act.apply s a).fault = s.fault := by cases a <;> rfl
@[simp] theorem Act.apply_busy (a : Act) : (Act.apply s a).busy = s.busy := by cases a <;> rfl
@[simp] theorem Act.apply_style (a : Act) : (Act.apply s a).style = s.style := by cases a <;> rfl
@[simp] theorem Act.apply_trace (a : Act) : (Act.apply s a).trace = s.trace := by cases a <;> rfl
@[simp] theorem Act.apply_wire (a : Act) : (Act.apply s a).wire = s.wire := by cases a <;> rfl
@[simp] theorem Act.apply_requests (a : Act) : (Act.apply s a).requests = s.requests := by cases a <;> rfl
@[simp] theorem Act.apply_responses (a : Act) : (Act.apply s a).responses = s.responses := by cases a <;> rfl
@[simp] theorem Act.apply_link (a : Act) : (Act.apply s a).link = s.link := by cases a <;> rfl
@[simp] theorem Act.apply_sink (a : Act) : (Act.apply s a).sink = s.sink := by cases a <;> rfl

/-! `State.construct` -/

@[simp] theorem State.construct_K (K : Config) (dc rst bl : Bit) (l : Option LinkFailure) :
    (State.construct K dc rst bl l).K = K := rfl
@[simp] theorem State.construct_mode (K : Config) (dc rst bl : Bit) (l : Option LinkFailure) :
    (State.construct K dc rst bl l).mode = .unset := rfl
@[simp] theorem State.construct_pins (K : Config) (dc rst bl : Bit) (l : Option LinkFailure) :
    (State.construct K dc rst bl l).pins = ⟨true, dc, rst, bl⟩ := rfl
@[simp] theorem State.construct_fault (K : Config) (dc rst bl : Bit) (l : Option LinkFailure) :
    (State.construct K dc rst bl l).fault = false := rfl
@[simp] theorem State.construct_busy (K : Config) (dc rst bl : Bit) (l : Option LinkFailure) :
    (State.construct K dc rst bl l).busy = false := rfl
@[simp] theorem State.construct_op (K : Config) (dc rst bl : Bit) (l : Option LinkFailure) :
    (State.construct K dc rst bl l).op = ⟨0, 0, 0, 0, 0, [], 0⟩ := rfl
@[simp] theorem State.construct_style (K : Config) (dc rst bl : Bit) (l : Option LinkFailure) :
    (State.construct K dc rst bl l).style = ⟨K.INIT_FG, K.INIT_BG, K.INIT_SX, K.INIT_SY⟩ := rfl
@[simp] theorem State.construct_trace (K : Config) (dc rst bl : Bit) (l : Option LinkFailure) :
    (State.construct K dc rst bl l).trace = [] := rfl
@[simp] theorem State.construct_wire (K : Config) (dc rst bl : Bit) (l : Option LinkFailure) :
    (State.construct K dc rst bl l).wire = [] := rfl
@[simp] theorem State.construct_requests (K : Config) (dc rst bl : Bit) (l : Option LinkFailure) :
    (State.construct K dc rst bl l).requests = [] := rfl
@[simp] theorem State.construct_responses (K : Config) (dc rst bl : Bit) (l : Option LinkFailure) :
    (State.construct K dc rst bl l).responses = [] := rfl
@[simp] theorem State.construct_link (K : Config) (dc rst bl : Bit) (l : Option LinkFailure) :
    (State.construct K dc rst bl l).link = l := rfl
@[simp] theorem State.construct_sink (K : Config) (dc rst bl : Bit) (l : Option LinkFailure) :
    (State.construct K dc rst bl l).sink = Sink.initial := rfl

/-! `Pins.drive` -/

@[simp] theorem Pins.drive_cs (p : Pins) (l : Bit) : p.drive (.cs l) = { p with cs := l } := rfl
@[simp] theorem Pins.drive_dc (p : Pins) (l : Bit) : p.drive (.dc l) = { p with dc := l } := rfl
@[simp] theorem Pins.drive_rst (p : Pins) (l : Bit) : p.drive (.rst l) = { p with rst := l } := rfl
@[simp] theorem Pins.drive_bl (p : Pins) (l : Bit) : p.drive (.bl l) = { p with bl := l } := rfl
@[simp] theorem Pins.drive_tx (p : Pins) (b : Byte) : p.drive (.tx b) = p := rfl
@[simp] theorem Pins.drive_delay (p : Pins) (n : Nat) : p.drive (.delay n) = p := rfl

/-- Transferred bytes drive no line. -/
@[simp] theorem Pins.foldl_drive_tx (p : Pins) (bs : List Byte) : (bs.map Event.tx).foldl Pins.drive p = p := by
  induction bs with
  | nil => rfl
  | cons b bs ih => simpa using ih

end Sys2Proof.Machine
end

