-- ==== Sys2Proof/Laws/Script.lean ====
section
/-! SUPPORT. What carrying out a script can do, said once: how far it gets when the environment lets its transfers
succeed, that what it did is always a beginning of the script, and what an accepted operation then leaves. -/

namespace Sys2Proof.Machine

/-- The number of transfer calls of a script (one per frame, 60_exceptions.md R166). -/
def transfers (acts : List Act) : Nat :=
  acts.countP fun a => match a with
    | .xfer _ => true
    | _ => false

@[simp] theorem transfers_nil : transfers [] = 0 := rfl
@[simp] theorem transfers_append (as bs : List Act) : transfers (as ++ bs) = transfers as + transfers bs := by
  simp [transfers]
@[simp] theorem transfers_xfer (bs : List Byte) (as : List Act) : transfers (.xfer bs :: as) = transfers as + 1 := by
  simp [transfers]
@[simp] theorem transfers_emit (e : Event) (as : List Act) : transfers (.emit e :: as) = transfers as := by
  simp [transfers]
@[simp] theorem transfers_setMode (m : Mode) (as : List Act) : transfers (.setMode m :: as) = transfers as := by
  simp [transfers]
@[simp] theorem transfers_setRect (r : Rect) (as : List Act) : transfers (.setRect r :: as) = transfers as := by
  simp [transfers]
@[simp] theorem transfers_setColor (c : U32) (as : List Act) : transfers (.setColor c :: as) = transfers as := by
  simp [transfers]
@[simp] theorem transfers_setPixbuf (b : List Byte) (as : List Act) :
    transfers (.setPixbuf b :: as) = transfers as := by simp [transfers]
@[simp] theorem transfers_setPixcnt (n : Nat) (as : List Act) : transfers (.setPixcnt n :: as) = transfers as := by
  simp [transfers]

/-- A script whose transfers all succeed is carried out whole. -/
theorem cutScript_of_le (f : LinkFailure) (acts : List Act) (n : Nat) (h : transfers acts ≤ n) :
    cutScript f acts n = ⟨acts, .completed, some { f with after := n - transfers acts }⟩ := by
  induction acts generalizing n with
  | nil => simp [cutScript]
  | cons a rest ih =>
    cases a with
    | xfer bs =>
      cases n with
      | zero => simp at h
      | succ n =>
        simp only [transfers_xfer] at h
        simp [cutScript, ih n (by omega)]
    | _ => simp at h; simp [cutScript, ih n h]

/-- Progress of a script whose transfers the environment carries. -/
theorem progress_of_carries {s : State} {acts : List Act} (h : s.linkCarries (transfers acts) = true) :
    progress s.link acts = ⟨acts, .completed, linkAfter s.link (transfers acts)⟩ := by
  unfold State.linkCarries at h
  unfold progress linkAfter
  cases hl : s.link with
  | none => rfl
  | some f => simp [hl] at h; simp [cutScript_of_le f acts f.after h]

/-- An accepted operation whose transfers succeed: every action is carried out, every event is on the trace and on the
wire, and the host is told done. -/
theorem operate_of_carries {s : State} {acts : List Act} (v : Option Mode)
    (h : s.linkCarries (transfers acts) = true) :
    s.operate acts v =
      { (({ (acts.foldl Act.apply { s with busy := true }) with link := linkAfter s.link (transfers acts) }.record
        (acts.flatMap Act.events)).answer (.done v)) with busy := false } := by
  simp only [State.operate, progress_of_carries h, State.carryOut, State.finish]
  rfl

/-- A cut script did a beginning of the script: whole actions, and at the end, if it did not complete, a transfer cut
short. -/
theorem cutScript_cases (f : LinkFailure) (acts : List Act) (n : Nat) :
    (∃ m, cutScript f acts n = ⟨acts, .completed, some { f with after := m }⟩) ∨
    (∃ pre bs post, acts = pre ++ .xfer bs :: post ∧
      cutScript f acts n = ⟨pre ++ [.xfer (bs.take f.sent)],
        if f.hangs then .hung else .failed (bs.take f.sent).length, none⟩) := by
  induction acts generalizing n with
  | nil => exact .inl ⟨n, rfl⟩
  | cons a rest ih =>
    cases a with
    | xfer bs =>
      cases n with
      | zero => exact .inr ⟨[], bs, rest, rfl, rfl⟩
      | succ n =>
        rcases ih n with ⟨m, h⟩ | ⟨pre, b, post, rfl, h⟩
        · exact .inl ⟨m, by simp [cutScript, h]⟩
        · exact .inr ⟨.xfer bs :: pre, b, post, rfl, by simp [cutScript, h]⟩
    | _ =>
      rcases ih n with ⟨m, h⟩ | ⟨pre, b, post, rfl, h⟩
      · exact .inl ⟨m, by simp [cutScript, h]⟩
      · exact .inr ⟨_ :: pre, b, post, rfl, by simp [cutScript, h]⟩

/-- Everything a script's progress can be, for any choice of the environment. -/
theorem progress_cases (link : Option LinkFailure) (acts : List Act) :
    (∃ l, progress link acts = ⟨acts, .completed, l⟩) ∨
    (∃ f pre bs post, link = some f ∧ acts = pre ++ .xfer bs :: post ∧
      progress link acts = ⟨pre ++ [.xfer (bs.take f.sent)],
        if f.hangs then .hung else .failed (bs.take f.sent).length, none⟩) := by
  cases link with
  | none => exact .inl ⟨none, rfl⟩
  | some f =>
    rcases cutScript_cases f acts f.after with ⟨m, h⟩ | ⟨pre, bs, post, h, h'⟩
    · exact .inl ⟨_, h⟩
    · exact .inr ⟨f, pre, bs, post, rfl, h, h'⟩

/-! What a script's actions leave alone. -/

section
variable (s : State) (acts : List Act)

@[simp] theorem foldl_apply_K : (acts.foldl Act.apply s).K = s.K := by
  induction acts generalizing s <;> simp_all
@[simp] theorem foldl_apply_fault : (acts.foldl Act.apply s).fault = s.fault := by
  induction acts generalizing s <;> simp_all
@[simp] theorem foldl_apply_busy : (acts.foldl Act.apply s).busy = s.busy := by
  induction acts generalizing s <;> simp_all
@[simp] theorem foldl_apply_style : (acts.foldl Act.apply s).style = s.style := by
  induction acts generalizing s <;> simp_all
@[simp] theorem foldl_apply_trace : (acts.foldl Act.apply s).trace = s.trace := by
  induction acts generalizing s <;> simp_all
@[simp] theorem foldl_apply_wire : (acts.foldl Act.apply s).wire = s.wire := by
  induction acts generalizing s <;> simp_all
@[simp] theorem foldl_apply_requests : (acts.foldl Act.apply s).requests = s.requests := by
  induction acts generalizing s <;> simp_all
@[simp] theorem foldl_apply_responses : (acts.foldl Act.apply s).responses = s.responses := by
  induction acts generalizing s <;> simp_all
@[simp] theorem foldl_apply_link : (acts.foldl Act.apply s).link = s.link := by
  induction acts generalizing s <;> simp_all
@[simp] theorem foldl_apply_sink : (acts.foldl Act.apply s).sink = s.sink := by
  induction acts generalizing s <;> simp_all

/-- The pins after a script: each line holds the level last written to it (10_state.md R22). -/
theorem foldl_apply_pins :
    (acts.foldl Act.apply s).pins = (acts.flatMap Act.events).foldl Pins.drive s.pins := by
  induction acts generalizing s with
  | nil => rfl
  | cons a rest ih => cases a <;> simp [Act.apply, Act.events, ih]

end

/-- Marking the block busy does not change what a script does. -/
theorem foldl_apply_busy_comm (s : State) (acts : List Act) (b : Bit) :
    acts.foldl Act.apply { s with busy := b } = { (acts.foldl Act.apply s) with busy := b } := by
  induction acts generalizing s with
  | nil => rfl
  | cons a rest ih => rw [List.foldl_cons, List.foldl_cons, ← ih]; cases a <;> rfl

/-- A script's actions write `MODE`, the latches and the pins alone. -/
theorem foldl_apply_eq (s : State) (acts : List Act) :
    acts.foldl Act.apply s = { s with
      mode := (acts.foldl Act.apply s).mode
      op := (acts.foldl Act.apply s).op
      pins := (acts.flatMap Act.events).foldl Pins.drive s.pins } := by
  rw [← foldl_apply_pins]
  induction acts generalizing s with
  | nil => rfl
  | cons a rest ih => rw [List.foldl_cons, ih]; cases a <;> rfl

/-- An accepted operation with nothing to do only answers; the environment's choice is left as it was. -/
theorem operate_nil (s : State) (v : Option Mode) :
    s.operate [] v = { s with busy := false, responses := s.responses ++ [.done v] } := by
  obtain ⟨K, mode, pins, fault, busy, op, style, trace, wire, requests, responses, link, sink⟩ := s
  cases link <;> simp [State.operate, progress, cutScript, State.carryOut, State.finish, State.record, State.answer]

/-- Whatever the environment chooses, an accepted operation leaves these fields alone and puts the events of what it
carried out on the trace and on the wire. -/
theorem operate_fields (s : State) (acts : List Act) (v : Option Mode) :
    (s.operate acts v).K = s.K ∧ (s.operate acts v).style = s.style ∧ (s.operate acts v).requests = s.requests ∧
    (s.operate acts v).sink = s.sink ∧
    (s.operate acts v).trace = s.trace ++ (progress s.link acts).done.flatMap Act.events ∧
    (s.operate acts v).wire = s.wire ++ (progress s.link acts).done.flatMap Act.events ∧
    (s.operate acts v).pins = ((progress s.link acts).done.flatMap Act.events).foldl Pins.drive s.pins ∧
    (s.operate acts v).mode = ((progress s.link acts).done.foldl Act.apply { s with busy := true }).mode ∧
    (s.operate acts v).op = ((progress s.link acts).done.foldl Act.apply { s with busy := true }).op := by
  simp only [State.operate, State.carryOut, State.finish]
  cases (progress s.link acts).ending <;> simp [foldl_apply_pins]

end Sys2Proof.Machine
end

