-- ==== Sys2Proof/Laws/Operations.lean ====
section
/-! SUPPORT. The scripts of the link, the window and the rasterizer: the events they put on the trace, the transfers they
make, and the registers they store to. Later proofs cite these lemmas and do not unfold a script. -/

namespace Sys2Proof.Machine

/-- The events of a script. -/
def scriptEvents (acts : List Act) : List Event := acts.flatMap Act.events

@[simp] theorem scriptEvents_nil : scriptEvents [] = [] := rfl
@[simp] theorem scriptEvents_append (as bs : List Act) :
    scriptEvents (as ++ bs) = scriptEvents as ++ scriptEvents bs := by simp [scriptEvents]

/-- What an accepted operation leaves when the environment lets its transfers succeed: the events of its script on the
trace and on the wire, the registers its script stores to, and the answer done. -/
theorem operation_of_carries {s : State} {acts : List Act} (hr : s.Ready)
    (h : s.linkCarries (transfers acts) = true) :
    operation s acts = .next { s with
      mode := (acts.foldl Act.apply s).mode
      op := (acts.foldl Act.apply s).op
      pins := (scriptEvents acts).foldl Pins.drive s.pins
      trace := s.trace ++ scriptEvents acts
      wire := s.wire ++ scriptEvents acts
      link := linkAfter s.link (transfers acts)
      responses := s.responses ++ [.done none] } := by
  unfold operation accepted
  rw [if_neg (by simp [hr.1]), if_neg (by simp [hr.2]), operate_of_carries none h, foldl_apply_busy_comm,
    foldl_apply_eq]
  obtain ⟨K, mode, pins, fault, busy, op, style, trace, wire, requests, responses, link, sink⟩ := s
  obtain ⟨rfl, rfl⟩ := hr
  rfl

@[simp] theorem scriptEvents_sendCommand (c : Byte) : scriptEvents (sendCommand c) = cmdFrameEvents c := rfl
@[simp] theorem scriptEvents_sendData (bs : List Byte) : scriptEvents (sendData bs) = dataFrameEvents bs := by
  simp [scriptEvents, sendData, Act.events, dataFrameEvents, frameEvents]

@[simp] theorem transfers_sendCommand (c : Byte) : transfers (sendCommand c) = 1 := rfl
@[simp] theorem transfers_sendData (bs : List Byte) : transfers (sendData bs) = 1 := rfl

@[simp] theorem setColumns_of_inRange {K : Config} {a b : U16} (h : inRange a b K.WIDTH = true) :
    setColumns K a b = sendCommand K.CMD_CASET ++ sendData (rangeParam a b) := by simp [setColumns, h]
@[simp] theorem setColumns_of_not_inRange {K : Config} {a b : U16} (h : inRange a b K.WIDTH = false) :
    setColumns K a b = [] := by simp [setColumns, h]
@[simp] theorem setRows_of_inRange {K : Config} {a b : U16} (h : inRange a b K.HEIGHT = true) :
    setRows K a b = sendCommand K.CMD_RASET ++ sendData (rangeParam a b) := by simp [setRows, h]
@[simp] theorem setRows_of_not_inRange {K : Config} {a b : U16} (h : inRange a b K.HEIGHT = false) :
    setRows K a b = [] := by simp [setRows, h]

/-- The registers a list of frames leaves: the frames of the two primitives store nothing. -/
theorem foldl_sendCommand (s : State) (c : Byte) :
    (sendCommand c).foldl Act.apply s = { s with pins := { s.pins with cs := true, dc := false } } := rfl
theorem foldl_sendData (s : State) (bs : List Byte) :
    (sendData bs).foldl Act.apply s = { s with pins := { s.pins with cs := true, dc := true } } := rfl

/-- The pixel loop has the events of one pixel frame per pixel. -/
theorem scriptEvents_pixelLoop (K : Config) (buf : List Byte) (n : Nat) :
    scriptEvents (pixelLoop K buf n) = (List.replicate n (scriptEvents (pixelFrame K buf))).flatten := by
  have hrep : ∀ l : List Nat, scriptEvents (l.flatMap fun k => pixelFrame K buf ++ [Act.setPixcnt (n - 1 - k)]) =
      (List.replicate l.length (scriptEvents (pixelFrame K buf))).flatten := by
    intro l
    induction l with
    | nil => rfl
    | cons k l ih => rw [List.flatMap_cons, scriptEvents_append, scriptEvents_append, ih]; simp [scriptEvents, Act.events, List.replicate_succ]
  have h0 : scriptEvents [Act.setPixcnt n] = [] := rfl
  rw [pixelLoop, scriptEvents_append, hrep, List.length_range, h0, List.nil_append]

/-- The pixel loop makes one transfer per pixel frame. -/
theorem transfers_pixelLoop (K : Config) (buf : List Byte) (n : Nat) :
    transfers (pixelLoop K buf n) = n * transfers (pixelFrame K buf) := by
  have hrep : ∀ l : List Nat, transfers (l.flatMap fun k => pixelFrame K buf ++ [Act.setPixcnt (n - 1 - k)]) =
      l.length * transfers (pixelFrame K buf) := by
    intro l
    induction l with
    | nil => simp
    | cons k l ih => rw [List.flatMap_cons, transfers_append, ih]; simp [Nat.succ_mul, Nat.add_comm]
  simp [pixelLoop, hrep]

/-- At the end of the pixel loop `PIXCNT` is 0; the pins are as the frames leave them, and nothing else has changed. -/
theorem foldl_pixelLoop (K : Config) (buf : List Byte) (n : Nat) (s : State) :
    (pixelLoop K buf n).foldl Act.apply s =
      { s with
        op := { s.op with pixcnt := 0 }
        pins := (scriptEvents (pixelLoop K buf n)).foldl Pins.drive s.pins } := by
  have hf : ∀ (t : State), (pixelFrame K buf).foldl Act.apply t =
      { t with pins := (scriptEvents (pixelFrame K buf)).foldl Pins.drive t.pins } := by
    intro t
    unfold pixelFrame
    split
    · rfl
    · rw [foldl_sendData, scriptEvents_sendData]; simp [dataFrameEvents, frameEvents]
  have hl : ∀ (l : List Nat) (t : State),
      (l.flatMap fun k => pixelFrame K buf ++ [Act.setPixcnt (n - 1 - k)]).foldl Act.apply t =
      { t with
        op := { t.op with pixcnt := ((l.getLast?).map fun k => n - 1 - k).getD t.op.pixcnt }
        pins := (scriptEvents (l.flatMap fun k => pixelFrame K buf ++ [Act.setPixcnt (n - 1 - k)])).foldl Pins.drive
          t.pins } := by
    intro l
    induction l with
    | nil => intro t; rfl
    | cons k l ih =>
      intro t
      rw [List.flatMap_cons, List.foldl_append, List.foldl_append, hf, List.foldl_cons, List.foldl_nil, ih,
        scriptEvents_append, scriptEvents_append, List.foldl_append, List.foldl_append]
      cases l with
      | nil => rfl
      | cons j l => simp [Act.apply, scriptEvents, Act.events, List.getLast?_cons]
  rw [pixelLoop, List.foldl_append, hl, scriptEvents_append, List.foldl_append]
  cases n with
  | zero => rfl
  | succ n => simp [Act.apply, scriptEvents, Act.events, List.getLast?_range]

/-- The clamp keeps the corner on the surface and the extents inside it (43_rasterizer.md R121). -/
theorem clamp_fits {K : Config} (hW : 1 ≤ K.WIDTH.toNat) (hH : 1 ≤ K.HEIGHT.toNat) (r : Rect) :
    (clamp K r).x < K.WIDTH.toNat ∧ (clamp K r).y < K.HEIGHT.toNat ∧
    (clamp K r).x + (clamp K r).w ≤ K.WIDTH.toNat ∧ (clamp K r).y + (clamp K r).h ≤ K.HEIGHT.toNat := by
  simp only [clamp]; repeat' split
  all_goals omega

/-- The clamp leaves at least one pixel of a rectangle that has one (R121). -/
theorem clamp_pos {K : Config} (hW : 1 ≤ K.WIDTH.toNat) (hH : 1 ≤ K.HEIGHT.toNat) {r : Rect} (hw : 1 ≤ r.w)
    (hh : 1 ≤ r.h) : 1 ≤ (clamp K r).w ∧ 1 ≤ (clamp K r).h := by
  simp only [clamp]; repeat' split
  all_goals omega

/-- The end bounds of a clamped rectangle are in range, so that both range commands of its window are sent (R122). -/
theorem clamp_inRange {K : Config} (hW : 1 ≤ K.WIDTH.toNat) (hH : 1 ≤ K.HEIGHT.toNat) {r : Rect} (hw : 1 ≤ r.w)
    (hh : 1 ≤ r.h) :
    inRange (BitVec.ofNat 16 (clamp K r).x) (BitVec.ofNat 16 ((clamp K r).x + (clamp K r).w - 1)) K.WIDTH = true ∧
    inRange (BitVec.ofNat 16 (clamp K r).y) (BitVec.ofNat 16 ((clamp K r).y + (clamp K r).h - 1)) K.HEIGHT = true := by
  obtain ⟨h1, h2, h3, h4⟩ := clamp_fits hW hH r
  obtain ⟨h5, h6⟩ := clamp_pos hW hH hw hh
  have := K.WIDTH.isLt
  have := K.HEIGHT.isLt
  simp only [inRange, BitVec.le_def, BitVec.lt_def, BitVec.toNat_ofNat, Bool.and_eq_true, decide_eq_true_eq]
  refine ⟨⟨?_, ?_⟩, ?_, ?_⟩ <;> omega

/-- The surface is left as it is by the clamp (43_rasterizer.md R125). -/
theorem clamp_surface {K : Config} (h : 1 ≤ K.WIDTH.toNat ∧ 1 ≤ K.HEIGHT.toNat) : clamp K (surface K) = surface K := by
  obtain ⟨h1, h2⟩ := h
  simp [clamp, surface, show K.WIDTH.toNat ≠ 0 by omega, show K.HEIGHT.toNat ≠ 0 by omega]

/-- The surface is in the admitted subset (R125). -/
theorem rectAdmitted_surface {K : Config} (h : 1 ≤ K.WIDTH.toNat ∧ 1 ≤ K.HEIGHT.toNat) :
    rectAdmitted K (surface K) = true := by
  have := K.WIDTH.isLt
  have := K.HEIGHT.isLt
  simp only [rectAdmitted, clamp_surface h, Bool.and_eq_true, decide_eq_true_eq]
  refine ⟨⟨h, ?_⟩, ?_⟩ <;> simp only [surface] <;> omega

theorem modeUnset_eq (m : Mode) : modeUnset m = decide (m = .unset) := by cases m <;> rfl

/-- A packed pixel has no bytes in 12-bit mode alone (41_color_mode.md R103). -/
theorem pack_eq_nil_iff {m : Mode} (hm : m ≠ .unset) (c : U32) : pack m c = [] ↔ m = .b12 := by
  cases m <;> simp_all [pack]

/-- `drawSolidRect` past its first step, on a rectangle with a pixel, in a set colour mode: its events, its transfers, and
the registers it leaves (R120 to R124). -/
theorem streamRect_spec {K : Config} (hW : 1 ≤ K.WIDTH.toNat) (hH : 1 ≤ K.HEIGHT.toNat) {m : Mode} (hm : m ≠ .unset)
    {r : Rect} (c : U32) (hw : 1 ≤ r.w) (hh : 1 ≤ r.h) :
    scriptEvents (streamRect K m r c) = rectEvents K m (clamp K r) c ∧
    transfers (streamRect K m r c) = rectTransfers K m r ∧
    ∀ s : State, ((streamRect K m r c).foldl Act.apply s).mode = s.mode ∧
      ((streamRect K m r c).foldl Act.apply s).op = ⟨BitVec.ofNat 16 (clamp K r).x, BitVec.ofNat 16 (clamp K r).y,
        BitVec.ofNat 16 (clamp K r).w, BitVec.ofNat 16 (clamp K r).h, c, pack m c, 0⟩ := by
  obtain ⟨h1, h2⟩ := clamp_inRange hW hH hw hh
  have hpf : pixelFrame K (pack m c) =
      if m = .b12 ∧ K.TWELVE_BIT_FRAMES = .noFrames then [] else sendData (pack m c) := by
    unfold pixelFrame; simp only [pack_eq_nil_iff hm c]
  refine ⟨?_, ?_, fun s => ⟨?_, ?_⟩⟩
  · simp only [streamRect, setWindow, setColumns_of_inRange h1, setRows_of_inRange h2, scriptEvents_append,
      scriptEvents_sendCommand, scriptEvents_sendData, scriptEvents_pixelLoop, hpf, rectEvents, windowEvents,
      pixelFrames, rangeParam]
    rw [show scriptEvents [.setRect r, .setColor c, .setRect (clamp K r)] = [] from rfl,
      show ∀ b, scriptEvents [.setPixbuf b] = [] from fun _ => rfl]
    split <;> simp
  · simp only [streamRect, setWindow, setColumns_of_inRange h1, setRows_of_inRange h2, transfers_append,
      transfers_sendCommand, transfers_sendData, transfers_pixelLoop, hpf, pixelFrames, rectTransfers]
    split <;> simp
  all_goals simp only [streamRect, setWindow, setColumns_of_inRange h1, setRows_of_inRange h2, List.foldl_append,
    foldl_pixelLoop, foldl_sendCommand, foldl_sendData, List.foldl_cons, List.foldl_nil, Act.apply]

/-- A frame leaves chip-select at 1 and the selector at its own level. -/
theorem foldl_drive_frame (p : Pins) (kind : Bit) (bs : List Byte) :
    (frameEvents kind bs).foldl Pins.drive p = { p with cs := true, dc := kind } := by simp [frameEvents]

/-- The lines after the events of a rectangle. -/
theorem foldl_drive_rectEvents (K : Config) (m : Mode) (r : Rect) (c : U32) (p : Pins) :
    (rectEvents K m r c).foldl Pins.drive p =
      { p with cs := true, dc := decide (pixelFrames K m (r.w * r.h) ≠ 0) } := by
  have hrep : ∀ (n : Nat) (q : Pins), q.cs = true →
      ((List.replicate n (dataFrameEvents (pack m c))).flatten).foldl Pins.drive q =
        if n = 0 then q else { q with dc := true } := by
    intro n
    induction n with
    | zero => intro q _; rfl
    | succ n ih =>
      intro q hq
      rw [List.replicate_succ, List.flatten_cons, List.foldl_append, dataFrameEvents, foldl_drive_frame,
        ← dataFrameEvents, ih _ rfl]
      cases q; simp_all
  have hw : ∀ (a b d e : U16) (q : Pins), (windowEvents K a b d e).foldl Pins.drive q =
      { q with cs := true, dc := false } := by
    intro a b d e q
    simp only [windowEvents, List.foldl_append, cmdFrameEvents, dataFrameEvents, foldl_drive_frame]
  rw [rectEvents, List.foldl_append, hw, hrep _ _ rfl]
  split <;> simp_all

/-- The script of `drawSolidRect` in a set colour mode. -/
@[simp] theorem drawSolidRect_of_set {K : Config} {m : Mode} (hm : m ≠ .unset) (r : Rect) (c : U32) :
    drawSolidRect K m r c = streamRect K m r c := by simp [drawSolidRect, modeUnset_eq, hm]

/-- With no colour mode there is nothing to do. -/
@[simp] theorem drawSolidRect_unset (K : Config) (r : Rect) (c : U32) : drawSolidRect K .unset r c = [] := rfl

end Sys2Proof.Machine
end

