-- ==== Sys2Proof/Laws/Exec.lean ====
section
/-! SUPPORT. Everything a meaning can do, said once: a host request that gives a next state was accepted, and the next
state is the one its script leaves; a wire row acts on the sink alone. Proofs about all instructions cite these lemmas
and unfold no meaning. -/

namespace Sys2Proof.Machine

/-- The script of a host request in state `s` (empty for the rows of the wire). -/
def hostScript (s : State) (i : Instr) : List Act :=
  match i with
  | .sendCommand code => sendCommand code
  | .sendData bytes => sendData bytes
  | .setBpp mode => setBpp s.K mode
  | .getBpp => []
  | .setColumns a b => setColumns s.K a b
  | .setRows a b => setRows s.K a b
  | .setWindow x0 y0 x1 y1 => setWindow s.K x0 y0 x1 y1
  | .drawSolidRect x y w h color => drawSolidRect s.K s.mode (rectOf x y w h) color
  | .fill color => fill s.K s.mode color
  | .hardReset => hardReset
  | .softReset => softReset s.K
  | .setSleepMode on => setSleepMode s.K on
  | .setInversionMode on => setInversionMode s.K on
  | .setDisplay on => setDisplay s.K on
  | .setBacklight on => setBacklight on
  | .setRotation rot => setRotation s.K rot
  | .setNormalMode => setNormalMode s.K
  | .bringUp => bringUp s.K
  | .drawText x y text => drawCalls s.K s.mode (textCalls s.K s.style x.toNat y.toNat text)
  | .setForeground _ | .setBackground _ | .setPixelScale _ _ => []
  | .cmdSwreset | .cmdSlpin | .cmdSlpout | .cmdNoron | .cmdInvoff | .cmdInvon | .cmdDispoff | .cmdDispon => []
  | .cmdCaset | .cmdRaset | .cmdRamwr | .cmdMadctl | .cmdColmod | .cmdFrame _ | .dataFrame _ => []

/-- `STYLE` after a host request (45_text.md R153). -/
def hostStyle (st : Style) (i : Instr) : Style :=
  match i with
  | .setForeground color => { st with fg := color }
  | .setBackground bg => { st with bg := bg }
  | .setPixelScale sx sy => { st with sx := sx.toNat, sy := sy.toNat }
  | _ => st

/-- The value a host request answers (41_color_mode.md R101). -/
def hostValue (s : State) (i : Instr) : Option Mode :=
  match i with
  | .getBpp => some s.mode
  | _ => none

/-- What a host request answers when the block is ready: the refusal of its operands, or nothing of the kind. It does not
depend on the link. -/
def hostRefusal (s : State) (i : Instr) : Option Refusal :=
  match i with
  | .setBpp mode => if modeUnset mode then some .unsetMode else none
  | .drawSolidRect x y w h _ =>
    if modeUnset s.mode || rectAdmitted s.K (rectOf x y w h) then none else some .rectNotAdmitted
  | .drawText x y text =>
    match text.find? fun ch => !codeCovered s.K ch with
    | some ch => some (.codeNotCovered ch)
    | none =>
      if (renderText s.K s.style x.toNat y.toNat text).within then
        if modeUnset s.mode || (textCalls s.K s.style x.toNat y.toNat text).all (fun c => rectAdmitted s.K c.rect) then
          none
        else some .rectNotAdmitted
      else some .cursorOverflow
  | .setPixelScale sx sy => if 1 ≤ sx.toNat ∧ 1 ≤ sy.toNat then none else some .zeroScale
  | _ => none

/-- A host request to a ready block: refused for its operands, or carried out. -/
theorem exec_host {i : Instr} {s : State} (hi : i.isHost = true) (hr : s.Ready) :
    exec i s = match hostRefusal s i with
      | some r => .refused r
      | none => .next (({ s with style := hostStyle s.style i }).operate (hostScript s i) (hostValue s i)) := by
  have ha : ∀ o, accepted s o = o := fun o => by simp [accepted, hr.1, hr.2]
  cases i
  case drawText x y text =>
    simp only [exec, execDrawText, hostRefusal, operation, ha]
    cases text.find? fun ch => !codeCovered s.K ch with
    | some ch => rfl
    | none =>
      simp only []
      split
      · split <;> rfl
      · rfl
  case setBpp m => simp only [exec, execSetBpp, hostRefusal, operation, ha]; split <;> rfl
  case drawSolidRect x y w h c => simp only [exec, execDrawSolidRect, hostRefusal, operation, ha]; split <;> rfl
  case setPixelScale a b => simp only [exec, execSetPixelScale, hostRefusal, ha]; split <;> rfl
  case getBpp => simp only [exec, execGetBpp, hostRefusal, ha]; rfl
  case setForeground c => simp only [exec, execSetForeground, hostRefusal, ha]; rfl
  case setBackground c => simp only [exec, execSetBackground, hostRefusal, ha]; rfl
  all_goals first
    | exact absurd hi (by decide)
    | exact ha _
    | exact absurd hi Bool.false_ne_true

/-- A host request to a block that is not ready is refused. -/
theorem exec_host_not_ready {i : Instr} {s : State} (hi : i.isHost = true) (hr : ¬s.Ready) :
    exec i s = .refused (if s.busy then .busy else .faultLatched) := by
  have ha : ∀ o, accepted s o = .refused (if s.busy then .busy else .faultLatched) := fun o => by
    unfold accepted
    cases hb : s.busy <;> cases hf : s.fault <;> simp_all
  cases i
  case drawText x y text =>
    simp only [exec, execDrawText, operation, ha]
    split
    · rfl
    · split
      · split <;> rfl
      · rfl
  case setBpp m => simp only [exec, execSetBpp, operation, ha, ite_self]
  case drawSolidRect x y w h c => simp only [exec, execDrawSolidRect, operation, ha, ite_self]
  case setPixelScale a b => simp only [exec, execSetPixelScale, ha, ite_self]
  all_goals first
    | exact absurd hi Bool.false_ne_true
    | exact ha _

/-- A host request that gives a next state: it was accepted, and its script says the rest. -/
theorem exec_host_next {i : Instr} {s t : State} (hi : i.isHost = true) (h : exec i s = .next t) :
    s.Ready ∧ hostRefusal s i = none ∧
      t = ({ s with style := hostStyle s.style i }).operate (hostScript s i) (hostValue s i) := by
  by_cases hr : s.Ready
  · rw [exec_host hi hr] at h
    split at h
    · cases h
    · exact ⟨hr, ‹_›, by cases h; rfl⟩
  · rw [exec_host_not_ready hi hr] at h; cases h

/-- A row of the wire always gives a next state, which differs in the sink alone: it has received a command or data. -/
theorem exec_wire {i : Instr} {s : State} (hi : i.isHost = false) :
    (∃ c, exec i s = .next (s.sinkCommand c)) ∨ ∃ bs, exec i s = .next (s.sinkData bs) := by
  cases i
  case dataFrame bs => exact .inr ⟨bs, rfl⟩
  all_goals first
    | exact absurd hi.symm Bool.false_ne_true
    | exact .inl ⟨_, rfl⟩

/-- Each of the thirteen command rows hands its code to the sink. -/
theorem exec_commandRow {s : State} {ic : Instr × Byte} (h : ic ∈ commandRows s.K) :
    exec ic.1 s = .next (s.sinkCommand ic.2) ∧ ic.2 ∈ s.K.codes := by
  simp only [commandRows, List.mem_cons, List.not_mem_nil, or_false] at h
  rcases h with rfl | rfl | rfl | rfl | rfl | rfl | rfl | rfl | rfl | rfl | rfl | rfl | rfl <;>
    exact ⟨rfl, by simp [Config.codes]⟩

/-- A settled outcome is a next state exactly when the outcome is. -/
theorem settled_eq_next {o : Host.Outcome State Fault Refusal} {t : State} :
    settled o = .next t ↔ ∃ u, o = .next u ∧ t = u.settle := by
  constructor
  · intro h
    cases o <;> cases h
    exact ⟨_, rfl, rfl⟩
  · rintro ⟨u, rfl, rfl⟩; rfl

/-- Everything a step that gives a next state did: the sink read a frame, the block took a request, or nothing was
there to do. -/
theorem step_cases {s t : State} (h : step s = .next t) :
    (∃ bracket rest i u, nextFrame s.wire = some (bracket, rest) ∧ decodeBracket s.K bracket = .ok i ∧
      exec i (s.takeFrame rest) = .next u ∧ t = u.settle) ∨
    (∃ r rest i u, nextFrame s.wire = none ∧ s.requests = r :: rest ∧ decodeRequest r = .ok i ∧
      exec i { s with requests := rest } = .next u ∧ t = u.settle) ∨
    (nextFrame s.wire = none ∧ s.requests = [] ∧ s.Ready ∧ t = s) := by
  unfold step fetch at h
  split at h <;> rename_i heq
  · obtain ⟨u, hu, rfl⟩ := settled_eq_next.mp h
    split at heq
    · rename_i bracket rest hw
      unfold fetchFrame at heq
      split at heq
      · cases heq; exact .inl ⟨bracket, rest, _, u, hw, ‹_›, hu, rfl⟩
      · cases heq
    · split at heq
      · rename_i hw _ r rest hq
        unfold fetchRequest at heq
        split at heq
        · cases heq; exact .inr (.inl ⟨r, rest, _, u, ‹_›, ‹_›, ‹_›, hu, rfl⟩)
        · cases heq
      · cases heq
  · split at heq
    · unfold fetchFrame at heq
      split at heq
      · cases heq
      · cases heq; cases h
    · split at heq
      · unfold fetchRequest at heq
        split at heq
        · cases heq
        · cases heq; cases h
      · cases heq
        unfold idle at h
        split at h
        · cases h
        · split at h
          · cases h
          · cases h; exact .inr (.inr ⟨‹_›, ‹_›, ⟨by simpa using ‹¬s.busy = true›, by simpa using ‹¬s.fault = true›⟩, rfl⟩)

end Sys2Proof.Machine
end

