-- ==== Sys2Proof/Laws/FrameMemory.lean ====
section
/-! SUPPORT. The laws of the controller's frame memory: a read after a write, at the same address and at another; and
that every operation keeps the canonical form. -/

namespace Sys2Proof.Machine

/-- Memory with nothing listed is canonical. -/
theorem Memory.wf_nil : Memory.wf [] := by simp [Memory.wf]

/-- Every address of `m.write a v` is `a` or an address of `m`. -/
theorem Memory.mem_write {m : Memory} {a : Nat} {v : List Byte} {c : PixelCell} (h : c ∈ m.write a v) :
    c = (a, v) ∧ v ≠ [] ∨ c ∈ m := by
  induction m with
  | nil => simp only [Memory.write] at h; split at h <;> simp_all
  | cons d rest ih =>
    obtain ⟨b, u⟩ := d
    simp only [Memory.write] at h
    split at h
    · split at h <;> simp_all
    · split at h
      · split at h
        · simp_all
        · simp_all; grind
      · rcases List.mem_cons.mp h with h | h
        · exact .inr (h ▸ List.mem_cons_self)
        · exact (ih h).imp_right (List.mem_cons_of_mem _)

/-- `MemWrite` keeps the canonical form. -/
theorem Memory.write_wf {m : Memory} (h : m.wf) (a : Nat) (v : List Byte) : (m.write a v).wf := by
  obtain ⟨ho, hv⟩ := h
  refine ⟨?_, fun c hc => (Memory.mem_write hc).elim (fun h => h.1 ▸ h.2) (hv c)⟩
  induction m with
  | nil => simp only [Memory.write]; split <;> simp
  | cons d rest ih =>
    obtain ⟨b, u⟩ := d
    simp only [List.map_cons, List.pairwise_cons] at ho
    have hrest := ih ho.2 fun c hc => hv c (List.mem_cons_of_mem _ hc)
    simp only [Memory.write]
    split
    · rename_i hab
      split
      · simpa using ho
      · simp only [List.map_cons, List.pairwise_cons, List.mem_cons]
        exact ⟨fun x hx => hx.elim (fun h => h ▸ hab) fun h => Nat.lt_trans hab (ho.1 x h), ho⟩
    · split
      · rename_i hab
        subst hab
        split
        · exact ho.2
        · simpa using ho
      · rename_i hab hne
        simp only [List.map_cons, List.pairwise_cons]
        refine ⟨fun x hx => ?_, hrest⟩
        obtain ⟨c, hc, rfl⟩ := List.mem_map.mp hx
        rcases Memory.mem_write hc with ⟨rfl, -⟩ | hc
        · exact Nat.lt_of_le_of_ne (Nat.le_of_not_lt hab) fun h => hne h.symm
        · exact ho.1 _ (List.mem_map_of_mem hc)

/-- A read after a write of a pixel to the same address gives the pixel. -/
theorem Memory.read_write_same (m : Memory) (a : Nat) {v : List Byte} (hv : v ≠ []) :
    (m.write a v).read a = some v := by
  induction m with
  | nil => simp [Memory.write, Memory.read, hv]
  | cons d rest ih =>
    obtain ⟨b, u⟩ := d
    simp only [Memory.write, hv, if_false]
    split
    · simp [Memory.read]
    · split
      · simp [Memory.read]
      · rename_i h1 h2
        simp only [Memory.read, ih]
        rw [if_neg fun h => h2 h.symm, if_neg h1]

/-- A write leaves every other address alone. -/
theorem Memory.read_write_other {m : Memory} (h : m.wf) {a b : Nat} (hab : b ≠ a) (v : List Byte) :
    (m.write a v).read b = m.read b := by
  obtain ⟨ho, -⟩ := h
  induction m with
  | nil => simp only [Memory.write]; split <;> simp [Memory.read, Ne.symm hab]
  | cons d rest ih =>
    obtain ⟨c, u⟩ := d
    simp only [List.map_cons, List.pairwise_cons] at ho
    have hskip : b < c → Memory.read rest b = none := fun hbc => by
      cases rest with
      | nil => rfl
      | cons e t =>
        have := ho.1 e.1 (by simp)
        simp [Memory.read, show e.1 ≠ b by omega, show b < e.1 by omega]
    simp only [Memory.write]
    split
    · split
      · rfl
      · simp only [Memory.read, if_neg (Ne.symm hab)]
        split
        · rw [if_neg (by omega), if_pos (by omega)]
        · rfl
    · split
      · rename_i h1 h2
        subst h2
        split
        · simp only [Memory.read, if_neg (Ne.symm hab)]
          split
          · exact hskip ‹_›
          · rfl
        · simp [Memory.read, Ne.symm hab]
      · simp only [Memory.read, ih ho.2]

/-- Forgetting an address keeps the canonical form. -/
theorem Memory.forget_wf {m : Memory} (h : m.wf) (a : Nat) : (m.forget a).wf := Memory.write_wf h a []

/-- A forgotten address reads as unspecified. -/
theorem Memory.read_forget_same {m : Memory} (h : m.wf) (a : Nat) : (m.forget a).read a = none := by
  obtain ⟨ho, -⟩ := h
  induction m with
  | nil => rfl
  | cons d rest ih =>
    obtain ⟨c, u⟩ := d
    simp only [List.map_cons, List.pairwise_cons] at ho
    have hskip : c ≥ a → Memory.read rest a = none := fun hca => by
      cases rest with
      | nil => rfl
      | cons e t =>
        have := ho.1 e.1 (by simp)
        simp [Memory.read, show e.1 ≠ a by omega, show a < e.1 by omega]
    have ih := ih ho.2
    unfold Memory.forget at *
    simp only [Memory.write]
    split
    · rename_i h1
      simp [Memory.read, show c ≠ a by omega, h1]
    · split
      · rename_i h1; simpa using hskip (Nat.le_of_eq h1)
      · rename_i h1 h2
        simp only [Memory.read, ih, Ne.symm h2, if_false, h1]

/-- Forgetting an address leaves every other one alone. -/
theorem Memory.read_forget_other {m : Memory} (h : m.wf) {a b : Nat} (hab : b ≠ a) : (m.forget a).read b = m.read b :=
  Memory.read_write_other h hab []

end Sys2Proof.Machine
end

