-- ==== Sys2Proof/Laws/Frames.lean ====
section
/-! SUPPORT. Every script is a sequence of whole frames, each with one transfer, and of actions that make none and write no
selector; so that a script the link cuts short ends inside one frame (60_exceptions.md R167). -/

namespace Sys2Proof.Machine

/-- An action outside the frames: it makes no transfer and does not write the selector. -/
def Act.outside (a : Act) : Bool :=
  match a with
  | .emit (.dc _) => false
  | .xfer _ => false
  | _ => true

/-- A script of whole frames with other actions between them. -/
inductive Framed : List Act → Prop where
  | nil : Framed []
  | frame (kind : Bit) (bs : List Byte) {rest : List Act} (h : Framed rest) :
    Framed (.emit (.cs false) :: .emit (.dc kind) :: .xfer bs :: .emit (.cs true) :: rest)
  | other {a : Act} {rest : List Act} (ha : a.outside = true) (h : Framed rest) : Framed (a :: rest)

theorem Framed.append {as bs : List Act} (ha : Framed as) (hb : Framed bs) : Framed (as ++ bs) := by
  induction ha with
  | nil => exact hb
  | frame kind ps _ ih => exact .frame kind ps ih
  | other h _ ih => exact .other h ih

theorem Framed.flatMap {α : Type} {l : List α} {f : α → List Act} (h : ∀ a ∈ l, Framed (f a)) : Framed (l.flatMap f) := by
  induction l with
  | nil => exact .nil
  | cons a l ih =>
    rw [List.flatMap_cons]
    exact (h a List.mem_cons_self).append (ih fun b hb => h b (List.mem_cons_of_mem _ hb))

theorem framed_sendCommand (c : Byte) : Framed (sendCommand c) := .frame false [c] .nil
theorem framed_sendData (bs : List Byte) : Framed (sendData bs) := .frame true bs .nil

theorem framed_setBpp (K : Config) (m : Mode) : Framed (setBpp K m) :=
  .other rfl ((framed_sendCommand _).append (framed_sendData _))

theorem framed_setRotation (K : Config) (r : Rot) : Framed (setRotation K r) :=
  (framed_sendCommand _).append (framed_sendData _)

theorem framed_setColumns (K : Config) (a b : U16) : Framed (setColumns K a b) := by
  unfold setColumns
  split
  · exact (framed_sendCommand _).append (framed_sendData _)
  · exact .nil

theorem framed_setRows (K : Config) (a b : U16) : Framed (setRows K a b) := by
  unfold setRows
  split
  · exact (framed_sendCommand _).append (framed_sendData _)
  · exact .nil

theorem framed_setWindow (K : Config) (x0 y0 x1 y1 : U16) : Framed (setWindow K x0 y0 x1 y1) :=
  ((framed_setColumns K x0 x1).append (framed_setRows K y0 y1)).append (framed_sendCommand _)

theorem framed_drawSolidRect (K : Config) (m : Mode) (r : Rect) (color : U32) : Framed (drawSolidRect K m r color) := by
  unfold drawSolidRect
  split
  · exact .nil
  · have hp : ∀ buf n, Framed (pixelLoop K buf n) := fun buf n =>
      .other rfl (.flatMap fun k _ => .append (by unfold pixelFrame; split; exact .nil; exact framed_sendData _) (.other rfl .nil))
    exact .other rfl (.other rfl (.other rfl (((framed_setWindow _ _ _ _ _).append (.other rfl .nil)).append (hp _ _))))

theorem framed_hardReset : Framed hardReset :=
  .other rfl (.other rfl (.other rfl (.other rfl (.other rfl (.other rfl (.other rfl (.other rfl .nil)))))))

theorem framed_softReset (K : Config) : Framed (softReset K) := (framed_sendCommand _).append (.other rfl .nil)

theorem framed_bringUp (K : Config) : Framed (bringUp K) :=
  ((((((((framed_hardReset.append (framed_softReset K)).append (framed_sendCommand _)).append (framed_setBpp K _)).append
    (framed_setRotation K _)).append (framed_sendCommand _)).append (framed_sendCommand _)).append
    (framed_drawSolidRect K _ _ _)).append (.other rfl .nil)).append (framed_sendCommand _)

/-- Every request's script is of whole frames. -/
theorem framed_hostScript (s : State) (i : Instr) : Framed (hostScript s i) := by
  cases i with
  | sendCommand c => exact framed_sendCommand c
  | sendData bs => exact framed_sendData bs
  | setBpp m => exact framed_setBpp _ m
  | setColumns a b => exact framed_setColumns _ a b
  | setRows a b => exact framed_setRows _ a b
  | setWindow x0 y0 x1 y1 => exact framed_setWindow _ x0 y0 x1 y1
  | drawSolidRect x y w h c => exact framed_drawSolidRect _ _ _ c
  | fill c => exact framed_drawSolidRect _ _ _ c
  | hardReset => exact framed_hardReset
  | softReset => exact framed_softReset _
  | setSleepMode on => exact framed_sendCommand _
  | setInversionMode on => exact framed_sendCommand _
  | setDisplay on => exact framed_sendCommand _
  | setBacklight on => exact .other rfl .nil
  | setRotation r => exact framed_setRotation _ r
  | setNormalMode => exact framed_sendCommand _
  | bringUp => exact framed_bringUp _
  | drawText x y text => exact .flatMap fun c _ => framed_drawSolidRect _ _ _ _
  | _ => exact .nil

/-- The selector events of an action outside the frames: none. -/
theorem frameCount_outside {a : Act} (h : a.outside = true) : frameCount a.events = 0 := by
  cases a with
  | emit e => cases e <;> first | rfl | exact absurd h Bool.false_ne_true
  | xfer bs => exact absurd h Bool.false_ne_true
  | _ => rfl

theorem frameCount_append (as bs : List Event) : frameCount (as ++ bs) = frameCount as + frameCount bs :=
  List.countP_append

@[simp] theorem frameCount_frameEvents (kind : Bit) (bs : List Byte) : frameCount (frameEvents kind bs) = 1 := by
  simp [frameCount, frameEvents, List.countP_eq_zero]

/-- One transfer per frame. -/
theorem Framed.frameCount_eq {acts : List Act} (h : Framed acts) : frameCount (scriptEvents acts) = transfers acts := by
  induction h with
  | nil => rfl
  | frame kind bs _ ih =>
    rename_i rest _
    rw [show scriptEvents (.emit (.cs false) :: .emit (.dc kind) :: .xfer bs :: .emit (.cs true) :: rest) =
        frameEvents kind bs ++ scriptEvents rest by simp [scriptEvents, Act.events, frameEvents],
      frameCount_append, frameCount_frameEvents, ih]
    simp [Nat.add_comm]
  | other ha _ ih =>
    rename_i a rest _
    rw [show scriptEvents (a :: rest) = a.events ++ scriptEvents rest from rfl, frameCount_append, frameCount_outside ha, ih]
    cases a <;> first | exact absurd ha Bool.false_ne_true | simp

/-- Where the link cuts a framed script whose transfer number `n` (from 0) does not succeed: inside the frame of that
transfer, with `n` whole frames before it. -/
theorem Framed.cut {acts : List Act} (h : Framed acts) (f : LinkFailure) {n : Nat} (hn : n < transfers acts) :
    ∃ before kind bs rest, acts = before ++ (.emit (.cs false) :: .emit (.dc kind) :: .xfer bs :: .emit (.cs true) :: rest) ∧
      Framed before ∧ transfers before = n ∧
      cutScript f acts n = ⟨before ++ [.emit (.cs false), .emit (.dc kind), .xfer (bs.take f.sent)],
        if f.hangs then .hung else .failed (bs.take f.sent).length, none⟩ := by
  induction h generalizing n with
  | nil => simp at hn
  | frame kind bs h ih =>
    rename_i rest
    cases n with
    | zero => exact ⟨[], kind, bs, rest, rfl, .nil, rfl, rfl⟩
    | succ n =>
      simp only [transfers_emit, transfers_xfer] at hn
      obtain ⟨before, k, ps, r, rfl, hb, ht, hc⟩ := ih (n := n) (by omega)
      exact ⟨_, k, ps, r, rfl, .frame kind bs hb, by simp [ht], by simp [cutScript, hc]⟩
  | other ha h ih =>
    rename_i a rest
    have ht : transfers (a :: rest) = transfers rest := by
      cases a <;> first | exact absurd ha Bool.false_ne_true | simp
    obtain ⟨before, k, ps, r, rfl, hb, htr, hc⟩ := ih (n := n) (by omega)
    refine ⟨a :: before, k, ps, r, rfl, .other ha hb, ?_, ?_⟩
    · cases a <;> first | exact absurd ha Bool.false_ne_true | simpa using htr
    · cases a <;> first | exact absurd ha Bool.false_ne_true | simp [cutScript, hc]

end Sys2Proof.Machine
end

