-- ==== Sys2Proof/Laws/PerInstr.lean ====
section
/-! SUPPORT. Facts about every instruction as syntax, one lemma per constructor. PacketKind: a HOST row of the opcode
table encodes as a request record, a wire row as the events of a frame (30_encoding.md R76). -/

namespace Sys2Proof.Laws.PacketKind

/-- The instruction's encoding is of the kind its table row says. -/
def Statement (i : Instr) : Prop :=
  ∀ K : Config, (i.isHost = true ∧ ∃ r, encode K i = .request r) ∨ (i.isHost = false ∧ ∃ evs, encode K i = .frame evs)

theorem sendCommand (code : Byte) : Statement (.sendCommand code) := fun _ => .inl ⟨rfl, _, rfl⟩
theorem sendData (bytes : List Byte) : Statement (.sendData bytes) := fun _ => .inl ⟨rfl, _, rfl⟩
theorem setBpp (mode : Mode) : Statement (.setBpp mode) := fun _ => .inl ⟨rfl, _, rfl⟩
theorem getBpp : Statement (.getBpp) := fun _ => .inl ⟨rfl, _, rfl⟩
theorem setColumns (start stop : U16) : Statement (.setColumns start stop) := fun _ => .inl ⟨rfl, _, rfl⟩
theorem setRows (start stop : U16) : Statement (.setRows start stop) := fun _ => .inl ⟨rfl, _, rfl⟩
theorem setWindow (x0 y0 x1 y1 : U16) : Statement (.setWindow x0 y0 x1 y1) := fun _ => .inl ⟨rfl, _, rfl⟩
theorem drawSolidRect (x y w h : U16) (color : U32) : Statement (.drawSolidRect x y w h color) := fun _ => .inl ⟨rfl, _, rfl⟩
theorem fill (color : U32) : Statement (.fill color) := fun _ => .inl ⟨rfl, _, rfl⟩
theorem hardReset : Statement (.hardReset) := fun _ => .inl ⟨rfl, _, rfl⟩
theorem softReset : Statement (.softReset) := fun _ => .inl ⟨rfl, _, rfl⟩
theorem setSleepMode (on : Bit) : Statement (.setSleepMode on) := fun _ => .inl ⟨rfl, _, rfl⟩
theorem setInversionMode (on : Bit) : Statement (.setInversionMode on) := fun _ => .inl ⟨rfl, _, rfl⟩
theorem setDisplay (on : Bit) : Statement (.setDisplay on) := fun _ => .inl ⟨rfl, _, rfl⟩
theorem setBacklight (on : Bit) : Statement (.setBacklight on) := fun _ => .inl ⟨rfl, _, rfl⟩
theorem setRotation (rot : Rot) : Statement (.setRotation rot) := fun _ => .inl ⟨rfl, _, rfl⟩
theorem setNormalMode : Statement (.setNormalMode) := fun _ => .inl ⟨rfl, _, rfl⟩
theorem bringUp : Statement (.bringUp) := fun _ => .inl ⟨rfl, _, rfl⟩
theorem drawText (x y : U16) (text : List Nat) : Statement (.drawText x y text) := fun _ => .inl ⟨rfl, _, rfl⟩
theorem setForeground (color : U32) : Statement (.setForeground color) := fun _ => .inl ⟨rfl, _, rfl⟩
theorem setBackground (bg : Option U32) : Statement (.setBackground bg) := by
  intro K; cases bg <;> exact .inl ⟨rfl, _, rfl⟩
theorem setPixelScale (sx sy : U16) : Statement (.setPixelScale sx sy) := fun _ => .inl ⟨rfl, _, rfl⟩
theorem cmdSwreset : Statement (.cmdSwreset) := fun _ => .inr ⟨rfl, _, rfl⟩
theorem cmdSlpin : Statement (.cmdSlpin) := fun _ => .inr ⟨rfl, _, rfl⟩
theorem cmdSlpout : Statement (.cmdSlpout) := fun _ => .inr ⟨rfl, _, rfl⟩
theorem cmdNoron : Statement (.cmdNoron) := fun _ => .inr ⟨rfl, _, rfl⟩
theorem cmdInvoff : Statement (.cmdInvoff) := fun _ => .inr ⟨rfl, _, rfl⟩
theorem cmdInvon : Statement (.cmdInvon) := fun _ => .inr ⟨rfl, _, rfl⟩
theorem cmdDispoff : Statement (.cmdDispoff) := fun _ => .inr ⟨rfl, _, rfl⟩
theorem cmdDispon : Statement (.cmdDispon) := fun _ => .inr ⟨rfl, _, rfl⟩
theorem cmdCaset : Statement (.cmdCaset) := fun _ => .inr ⟨rfl, _, rfl⟩
theorem cmdRaset : Statement (.cmdRaset) := fun _ => .inr ⟨rfl, _, rfl⟩
theorem cmdRamwr : Statement (.cmdRamwr) := fun _ => .inr ⟨rfl, _, rfl⟩
theorem cmdMadctl : Statement (.cmdMadctl) := fun _ => .inr ⟨rfl, _, rfl⟩
theorem cmdColmod : Statement (.cmdColmod) := fun _ => .inr ⟨rfl, _, rfl⟩
theorem cmdFrame (c : Byte) : Statement (.cmdFrame c) := fun _ => .inr ⟨rfl, _, rfl⟩
theorem dataFrame (bs : List Byte) : Statement (.dataFrame bs) := fun _ => .inr ⟨rfl, _, rfl⟩

end Sys2Proof.Laws.PacketKind
end

