-- ==== Sys2Proof/Laws/Sink.lean ====
section
/-! SUPPORT. What every sink operation keeps: the canonical form of the frame memory. Where landing pixels writes. And what
closing a command leaves alone. -/

namespace Sys2Proof.Machine

/-- Landing pixels keeps the canonical form. -/
theorem landPixels_wf (xs ys width p : Nat) (bytes : List Byte) (k n : Nat) {m : Memory} (h : m.wf) :
    (landPixels xs ys width p bytes k n m).wf := by
  induction n generalizing k m with
  | zero => exact h
  | succ n ih => exact ih _ (Memory.write_wf h _ _)

/-- Appending bytes to a stream keeps the canonical form. -/
theorem Stream.land_wf (st : Stream) (size : Option Nat) (bs : List Byte) {m : Memory} (h : m.wf) :
    (st.land size bs m).wf := by
  unfold Stream.land
  split
  · simp only []
    split
    · split
      · exact landPixels_wf _ _ _ _ _ _ _ h
      · exact Memory.forget_wf (landPixels_wf _ _ _ _ _ _ _ h) _
    · exact Memory.wf_nil
  · exact Memory.wf_nil

/-- Different pixels of a stream have different places (20_memory.md R49). -/
theorem pixelPlace_inj {xs xe ys : U16} {i j : Nat} (hw : 0 < xe.toNat + 1 - xs.toNat)
    (h : pixelPlace xs xe ys i = pixelPlace xs xe ys j) : i = j := by
  have hmi := Nat.mod_lt i hw
  have hmj := Nat.mod_lt j hw
  have := xe.isLt
  unfold pixelPlace pixelKey at h
  rw [← Nat.div_add_mod i (xe.toNat + 1 - xs.toNat), ← Nat.div_add_mod j (xe.toNat + 1 - xs.toNat)]
  have : i % (xe.toNat + 1 - xs.toNat) = j % (xe.toNat + 1 - xs.toNat) ∧
    i / (xe.toNat + 1 - xs.toNat) = j / (xe.toNat + 1 - xs.toNat) := by omega
  rw [this.1, this.2]

/-- Landing pixels `k` to `k + n - 1` leaves every address but their places. -/
theorem landPixels_read_other {xs xe ys : U16} {p k n a : Nat} {bytes : List Byte} {m : Memory} (hm : m.wf)
    (h : ∀ j, k ≤ j → j < k + n → a ≠ pixelPlace xs xe ys j) :
    (landPixels xs.toNat ys.toNat (xe.toNat + 1 - xs.toNat) p bytes k n m).read a = m.read a := by
  induction n generalizing k m with
  | zero => rfl
  | succ n ih =>
    rw [landPixels, ih (Memory.write_wf hm _ _) fun j h1 h2 => h j (by omega) (by omega)]
    exact Memory.read_write_other hm (h k (by omega) (by omega)) _

/-- Landing pixels `k` to `k + n - 1` of a window they fit puts each at its place. -/
theorem landPixels_read_same {xs xe ys : U16} {p k n ht j : Nat} {bytes : List Byte} {m : Memory} (hm : m.wf) (hp : 0 < p)
    (hfit : k + n ≤ (xe.toNat + 1 - xs.toNat) * ht) (hlen : (k + n) * p ≤ bytes.length) (h1 : k ≤ j) (h2 : j < k + n) :
    (landPixels xs.toNat ys.toNat (xe.toNat + 1 - xs.toNat) p bytes k n m).read (pixelPlace xs xe ys j) =
      some ((bytes.drop (j * p)).take p) := by
  induction n generalizing k m with
  | zero => omega
  | succ n ih =>
    rw [landPixels]
    rcases Nat.eq_or_lt_of_le h1 with rfl | hj
    · have hne : (bytes.drop (k * p)).take p ≠ [] := by
        have : (k + (n + 1)) * p = k * p + n * p + p := by rw [← Nat.add_assoc, Nat.succ_mul, Nat.add_mul]
        intro h
        have := congrArg List.length h
        simp at this
        omega
      rw [landPixels_read_other (Memory.write_wf hm _ _)]
      · exact Memory.read_write_same _ _ hne
      · intro i hi hi' e
        have := pixelPlace_inj (Nat.pos_of_ne_zero fun h0 => by simp [h0] at hfit) e
        omega
    · exact ih (Memory.write_wf hm _ _) (by omega) (by rw [show k + 1 + n = k + (n + 1) by omega]; exact hlen) (by omega) (by omega)

theorem Sink.forgetAll_wf (z : Sink) : z.forgetAll.mem.wf := Memory.wf_nil

/-- A command that left nothing unfinished leaves nothing open when no more bytes can come. -/
theorem Sink.closeCommand_of_complete {K : Config} {z : Sink} (h : z.Complete K) : z.closeCommand K = z := by
  unfold Sink.closeCommand
  split
  · rfl
  · rename_i hn
    rw [if_neg fun hl => hn (h (.inl hl)), if_neg fun hl => hn (h (.inr hl))]

/-! What closing a command leaves alone. -/

section
variable (K : Config) (z : Sink)

@[simp] theorem Sink.closeCommand_latched : (z.closeCommand K).latched = z.latched := by
  unfold Sink.closeCommand; repeat' split
  all_goals rfl
@[simp] theorem Sink.closeCommand_params : (z.closeCommand K).params = z.params := by
  unfold Sink.closeCommand; repeat' split
  all_goals rfl
@[simp] theorem Sink.closeCommand_streams : (z.closeCommand K).streams = z.streams := by
  unfold Sink.closeCommand; repeat' split
  all_goals rfl
@[simp] theorem Sink.closeCommand_format : (z.closeCommand K).format = z.format := by
  unfold Sink.closeCommand; repeat' split
  all_goals rfl
@[simp] theorem Sink.closeCommand_mem : (z.closeCommand K).mem = z.mem := by
  unfold Sink.closeCommand; repeat' split
  all_goals rfl

/-- A closed command has nothing more to leave open. -/
@[simp] theorem Sink.closeCommand_closeCommand : (z.closeCommand K).closeCommand K = z.closeCommand K := by
  by_cases h4 : 4 ≤ z.params.length
  · simp [Sink.closeCommand, h4]
  by_cases hc : z.latched = some K.CMD_CASET
  · simp [Sink.closeCommand, Sink.forgetColumns, h4, hc]
  by_cases hr : z.latched = some K.CMD_RASET
  · have hne : K.CMD_RASET ≠ K.CMD_CASET := fun h => hc (h ▸ hr)
    simp [Sink.closeCommand, Sink.forgetRows, h4, hr, hne]
  · simp [Sink.closeCommand, h4, hc, hr]

end

/-- A command frame keeps the canonical form. -/
theorem Sink.command_wf (K : Config) (m : Mode) (c : Byte) {z : Sink} (h : z.mem.wf) :
    (z.command K m c).mem.wf := by
  have h1 : (z.closeCommand K).mem.wf := by simpa using h
  unfold Sink.command
  simp only []
  repeat' split
  all_goals first | exact h1 | exact Memory.wf_nil

/-- A data frame keeps the canonical form. -/
theorem Sink.data_wf (K : Config) (bs : List Byte) {z : Sink} (h : z.mem.wf) : (z.data K bs).mem.wf := by
  unfold Sink.data Sink.columnData Sink.rowData Sink.pixelData Sink.formatData
  simp only []
  repeat' split
  all_goals first | exact h | exact Memory.wf_nil | exact Stream.land_wf _ _ _ h

/-- What passing over events tells the sink is nothing about its frame memory. -/
@[simp] theorem Sink.passLines_mem (evs : List Event) (z : Sink) : (z.passLines evs).mem = z.mem := by
  unfold Sink.passLines; split <;> rfl

end Sys2Proof.Machine
end

