-- ==== Sys2Proof/Laws/Text.lean ====
section
/-! SUPPORT. The text renderer: a text whose cursor stays within u16 makes only calls of drawSolidRect in its admitted
subset (45_text.md R152, 43_rasterizer.md R126). -/

namespace Sys2Proof.Machine

/-- A block of the current style whose far corner is within u16, or which lies in the glyph row `y` that is being
drawn. -/
def callWithin (st : Style) (y : Option Nat) (c : DrawCall) : Prop :=
  c.rect.w = st.sx ∧ c.rect.h = st.sy ∧ c.rect.x + st.sx ≤ 65535 ∧ (c.rect.y + st.sy ≤ 65535 ∨ y = some c.rect.y)

/-- While a glyph row is being drawn. -/
theorem Pen.column_within {st : Style} {t : Pen} (g : Glyph) (row col : Nat)
    (h : t.within = true → ∀ c ∈ t.calls, callWithin st (some t.renderY) c) :
    (Pen.column st g row t col).renderY = t.renderY ∧
    ((Pen.column st g row t col).within = true → ∀ c ∈ (Pen.column st g row t col).calls, callWithin st (some t.renderY) c) := by
  have hb : ∀ color, (((t.block st color).moveTo (t.renderX + st.sx) t.renderY).within = true →
      ∀ c ∈ ((t.block st color).moveTo (t.renderX + st.sx) t.renderY).calls, callWithin st (some t.renderY) c) := by
    intro color hw c hc
    simp only [Pen.moveTo, Pen.block, Bool.and_eq_true, decide_eq_true_eq] at hw hc
    rcases List.mem_cons.mp hc with rfl | hc
    · exact ⟨rfl, rfl, hw.1.2, .inr rfl⟩
    · exact h hw.1.1 c hc
  unfold Pen.column
  split
  · exact ⟨rfl, hb _⟩
  · split
    · exact ⟨rfl, hb _⟩
    · refine ⟨rfl, fun hw c hc => ?_⟩
      simp only [Pen.moveTo, Bool.and_eq_true, decide_eq_true_eq] at hw hc
      exact h hw.1.1 c hc

/-- A glyph row leaves only blocks within u16. -/
theorem Pen.row_within {st : Style} {t : Pen} (g : Glyph) (row : Nat)
    (h : t.within = true → ∀ c ∈ t.calls, callWithin st none c) :
    (Pen.row st g t row).within = true → ∀ c ∈ (Pen.row st g t row).calls, callWithin st none c := by
  have hl : ∀ (l : List Nat) (u : Pen), (u.within = true → ∀ c ∈ u.calls, callWithin st (some u.renderY) c) →
      (l.foldl (Pen.column st g row) u).renderY = u.renderY ∧
      ((l.foldl (Pen.column st g row) u).within = true →
        ∀ c ∈ (l.foldl (Pen.column st g row) u).calls, callWithin st (some u.renderY) c) := by
    intro l
    induction l with
    | nil => exact fun u hu => ⟨rfl, hu⟩
    | cons col l ih =>
      intro u hu
      obtain ⟨h1, h2⟩ := Pen.column_within g row col hu
      have := ih (Pen.column st g row u col) (by rw [h1]; exact h2)
      rwa [h1] at this
  obtain ⟨h1, h2⟩ := hl [7, 6, 5, 4, 3, 2, 1, 0] t fun hw c hc =>
    ⟨(h hw c hc).1, (h hw c hc).2.1, (h hw c hc).2.2.1, .inl ((h hw c hc).2.2.2.resolve_right (by simp))⟩
  intro hw c hc
  simp only [Pen.row, Pen.moveTo, Bool.and_eq_true, decide_eq_true_eq] at hw hc
  obtain ⟨k1, k2, k3, k4⟩ := h2 hw.1.1 c hc
  refine ⟨k1, k2, k3, .inl (k4.elim id fun he => ?_)⟩
  simp only [Option.some.injEq] at he
  omega

/-- A character leaves only blocks within u16. -/
theorem Pen.char_within {K : Config} {st : Style} {x : Nat} {t : Pen} (ch : Nat)
    (h : t.within = true → ∀ c ∈ t.calls, callWithin st none c) :
    (Pen.char K st x t ch).within = true → ∀ c ∈ (Pen.char K st x t ch).calls, callWithin st none c := by
  have hm : ∀ (u : Pen) (a b : Nat), (u.within = true → ∀ c ∈ u.calls, callWithin st none c) →
      ((u.moveTo a b).within = true → ∀ c ∈ (u.moveTo a b).calls, callWithin st none c) := by
    intro u a b hu hw c hc
    simp only [Pen.moveTo, Bool.and_eq_true] at hw hc
    exact hu hw.1.1 c hc
  unfold Pen.char
  split
  · exact hm _ _ _ h
  · split
    · exact h
    · refine hm _ _ _ ?_
      generalize [0, 1, 2, 3, 4, 5, 6, 7] = l
      induction l generalizing t with
      | nil => exact h
      | cons row l ih => exact ih (Pen.row_within _ row h)

/-- Every call of a text whose cursor stays within u16 is in the admitted subset of `drawSolidRect`, for scales of at
least 1. -/
theorem renderText_admitted {K : Config} {st : Style} (hx : 1 ≤ st.sx) (hy : 1 ≤ st.sy) {x y : Nat} {text : List Nat}
    (h : (renderText K st x y text).within = true) :
    ∀ c ∈ textCalls K st x y text, 1 ≤ c.rect.w ∧ 1 ≤ c.rect.h ∧ rectAdmitted K c.rect = true := by
  have key : ∀ (l : List Nat) (t : Pen), (t.within = true → ∀ c ∈ t.calls, callWithin st none c) →
      (l.foldl (Pen.char K st x) t).within = true → ∀ c ∈ (l.foldl (Pen.char K st x) t).calls, callWithin st none c := by
    intro l
    induction l with
    | nil => exact fun t ht => ht
    | cons ch l ih => exact fun t ht => ih _ (Pen.char_within ch ht)
  intro c hc
  obtain ⟨h1, h2, h3, h4⟩ := key text ⟨x, y, true, []⟩ (by simp) h c (List.mem_reverse.mp hc)
  have h4 := h4.resolve_right (by simp)
  rw [h1, h2]
  refine ⟨hx, hy, ?_⟩
  simp only [rectAdmitted, clamp, h1, h2, Bool.and_eq_true, decide_eq_true_eq]
  refine ⟨⟨⟨hx, hy⟩, ?_⟩, ?_⟩ <;> split <;> omega

end Sys2Proof.Machine
end

