-- ==== Sys2Proof/Tests/Slice0.lean ====
section
/-! SUPPORT. The model's own tests: what the well-formedness checks refuse; a word written out from the spec's encoding
for every constructor; the spec's vectors (95_test_vectors.md), one step each; and, for every statement with hypotheses,
states and operands that meet them. -/

namespace Sys2Proof.Tests

open Sys2Proof.Machine

/-! ## Helpers -/

/-- The made-up glyph `G` of 95_test_vectors.md 2.6. -/
def glyphG : Glyph := #v[0x80, 0, 0, 0, 0, 0, 0, 0x01]

/-- A configuration with every field a value: the example values of 95_test_vectors.md. -/
def conf (width height : U16) : Config :=
  { Config.K with
    WIDTH := width, HEIGHT := height, LINKCFG := ⟨0, 0, 0, 0, 0⟩, ROT_BYTE := ⟨0x00, 0x60, 0xC0, 0xA0⟩
    INIT_MODE := .b16, INIT_ROT := .portrait, INIT_COLOR := 0x0000F800
    FONT := [(0x41, glyphG), (0x42, #v[0xFF, 0, 0, 0, 0, 0, 0, 0])]
    INIT_FG := 0x0000FFFF, INIT_BG := none, INIT_SX := 1, INIT_SY := 1 }

/-- A block right after construction, with `MODE` set. -/
def block (width height : U16) (mode : Mode) : State :=
  { State.construct (conf width height) false false false none with mode := mode }

/-- A block whose link fails: `n` transfers succeed, and `k` bytes of the next one reach the wire. -/
def failing (n k : Nat) (mode : Mode) : State := { block 2 1 mode with link := some ⟨n, k, false⟩ }

/-- What a step left, looked at through `f`. -/
def after {α : Type} (o : Host.Outcome State Fault Refusal) (f : State → α) : Option α :=
  match o with
  | .next t => some (f t)
  | .fault _ => none
  | .refused _ => none

/-- The refusal a step ended in. -/
def refusal (o : Host.Outcome State Fault Refusal) : Option Refusal :=
  match o with
  | .next _ => none
  | .fault _ => none
  | .refused r => some r

/-! ## What the checks of WellFormed refuse -/

theorem test_wf_setBpp_unset_refused : (Instr.setBpp .unset).wf (conf 240 240) = false := by decide
theorem test_wf_rect_no_width_refused : (Instr.drawSolidRect 5 5 0 3 7).wf (conf 240 240) = false := by decide
theorem test_wf_rect_no_height_refused : (Instr.drawSolidRect 5 5 3 0 7).wf (conf 240 240) = false := by decide
theorem test_wf_rect_wide_refused : (Instr.drawSolidRect 1 0 65535 1 7).wf (conf 240 240) = false := by decide
theorem test_wf_rect_high_refused : (Instr.drawSolidRect 0 1 1 65535 7).wf (conf 240 240) = false := by decide
theorem test_wf_text_uncovered_refused : (Instr.drawText 0 0 [0x41, 0x43]).wf (conf 240 240) = false := by decide
theorem test_wf_scale_zero_refused : (Instr.setPixelScale 0 1).wf (conf 240 240) = false ∧
    (Instr.setPixelScale 1 0).wf (conf 240 240) = false := by decide
theorem test_wf_cmdFrame_named_refused : (Instr.cmdFrame 0x2C).wf (conf 240 240) = false := by decide
theorem test_wf_config_refused : ¬(conf 0 240).Wf ∧ ¬(conf 240 0).Wf ∧ ¬{ conf 240 240 with INIT_MODE := .unset }.Wf ∧
    ¬{ conf 240 240 with INIT_SX := 0 }.Wf ∧ ¬{ conf 240 240 with INIT_SY := 0 }.Wf ∧
    ¬{ conf 240 240 with CMD_RAMWR := 0x2B }.Wf := by decide
/-- Also the witness of FillIsTheSurfaceRect. -/
theorem test_wf_accepted : (conf 240 240).Wf ∧ (Instr.drawSolidRect 0 239 65535 1 7).wf (conf 240 240) = true ∧
    (Instr.drawText 5 5 [0x41, 0x0A, 0x41]).wf (conf 240 240) = true := by decide

/-! ## Decoding: the records of 30_encoding.md R69 and R70, and the frames of R60, R61 and R67 -/

theorem test_decode_link : decodeRequest { op := 0x01, a := 0xFFB2 } = .ok (.sendCommand 0xB2) ∧
    decodeRequest { op := 0x02, payload := [0xDE, 0xAD] } = .ok (.sendData [0xDE, 0xAD]) ∧
    decodeRequest { op := 0x02, payload := [256] } = .error .payloadNotBytes := by decide
theorem test_decode_mode : decodeRequest { op := 0x10, a := 1 } = .ok (.setBpp .b12) ∧
    decodeRequest { op := 0x10, a := 2 } = .ok (.setBpp .b16) ∧ decodeRequest { op := 0x10, a := 3 } = .ok (.setBpp .b18) ∧
    decodeRequest { op := 0x10, a := 4 } = .ok (.setBpp .b16t) ∧
    decodeRequest { op := 0x10, a := 5 } = .error (.reservedMode 5) ∧ decodeRequest { op := 0x11 } = .ok .getBpp := by
  decide
theorem test_decode_window : decodeRequest { op := 0x20, a := 1, b := 2 } = .ok (.setColumns 1 2) ∧
    decodeRequest { op := 0x21, a := 20, b := 21 } = .ok (.setRows 20 21) ∧
    decodeRequest { op := 0x22, a := 10, b := 20, c := 12, d := 21 } = .ok (.setWindow 10 20 12 21) := by decide
theorem test_decode_raster : decodeRequest { op := 0x30, a := 10, b := 20, c := 3, d := 2, e := 0x00123456 } =
      .ok (.drawSolidRect 10 20 3 2 0x00123456) ∧
    decodeRequest { op := 0x31, a := 9, e := 0x0000F800 } = .ok (.fill 0x0000F800) := by decide
theorem test_decode_lifecycle : decodeRequest { op := 0x40 } = .ok .hardReset ∧
    decodeRequest { op := 0x41 } = .ok .softReset ∧ decodeRequest { op := 0x42, a := 1 } = .ok (.setSleepMode true) ∧
    decodeRequest { op := 0x43, a := 0 } = .ok (.setInversionMode false) ∧
    decodeRequest { op := 0x44, a := 3 } = .ok (.setDisplay true) ∧
    decodeRequest { op := 0x45, a := 1 } = .ok (.setBacklight true) ∧
    decodeRequest { op := 0x46, a := 1 } = .ok (.setRotation .landscape) ∧
    decodeRequest { op := 0x46, a := 2 } = .ok (.setRotation .portrait180) ∧
    decodeRequest { op := 0x47 } = .ok .setNormalMode ∧ decodeRequest { op := 0x48 } = .ok .bringUp := by decide
theorem test_decode_text : decodeRequest { op := 0x50, a := 5, b := 6, payload := [0x41, 0x0A] } =
      .ok (.drawText 5 6 [0x41, 0x0A]) ∧
    decodeRequest { op := 0x51, e := 0xFFFF } = .ok (.setForeground 0xFFFF) ∧
    decodeRequest { op := 0x52, a := 0, e := 7 } = .ok (.setBackground none) ∧
    decodeRequest { op := 0x52, a := 1, e := 7 } = .ok (.setBackground (some 7)) ∧
    decodeRequest { op := 0x53, a := 2, b := 3 } = .ok (.setPixelScale 2 3) := by decide
theorem test_decode_commands :
    [(0x01, Instr.cmdSwreset), (0x10, .cmdSlpin), (0x11, .cmdSlpout), (0x13, .cmdNoron), (0x20, .cmdInvoff),
      (0x21, .cmdInvon), (0x28, .cmdDispoff), (0x29, .cmdDispon), (0x2A, .cmdCaset), (0x2B, .cmdRaset),
      (0x2C, .cmdRamwr), (0x36, .cmdMadctl), (0x3A, .cmdColmod), (0xB2, .cmdFrame 0xB2)].all (fun c : Byte × Instr =>
        decode (conf 3 2) (.frame [.cs false, .dc false, .tx c.1, .cs true]) == .ok c.2) = true := by decide
theorem test_decode_data :
    decode (conf 3 2) (.frame [.cs false, .dc true, .tx 0xDE, .tx 0xAD, .cs true]) = .ok (.dataFrame [0xDE, 0xAD]) ∧
    decode (conf 3 2) (.frame [.cs false, .dc true, .cs true]) = .ok (.dataFrame []) ∧
    decode (conf 3 2) (.frame [.cs false, .dc false, .tx 1, .tx 2, .cs true]) = .error (.commandLength 2) := by decide
theorem test_decode_reserved : decodeRequest { op := 0x00 } = .error (.reservedSelector 0x00) ∧
    decodeRequest { op := 0xFF } = .error (.reservedSelector 0xFF) := by decide
theorem test_decodeTableWord : decodeTableWord 8 0x48 = some .bringUp ∧ decodeTableWord 8 0x2C = some .cmdRamwr ∧
    decodeTableWord 56 0x03000200022022 = some (.setWindow 0x0220 0x0200 0x0300 0x0000) := by decide

/-! ## The spec's vectors: one step each -/

theorem test_L1_L3_sendCommand : after (exec (.sendCommand 0x3A) (block 240 240 .unset)) (fun t => (t.trace, t.mode)) =
    some ([.cs false, .dc false, .tx 0x3A, .cs true], .unset) := by decide
theorem test_L8_sendCommand_fails : after (exec (.sendCommand 0x29) (failing 0 0 .unset)) (fun t => (t.trace, t.fault, t.pins.cs)) =
    some ([.cs false, .dc false], true, false) := by decide
theorem test_L5_sendData_empty : after (exec (.sendData []) (block 240 240 .unset)) (fun t => (t.trace, t.pins.dc)) =
    some ([.cs false, .dc true, .cs true], true) := by decide
theorem test_L7_sendData_fails : after (exec (.sendData [1, 2, 3]) (failing 0 2 .unset))
      (fun t => (t.trace, t.fault, t.pins.cs, t.responses)) =
    some ([.cs false, .dc true, .tx 1, .tx 2], true, false, [.fault 0]) := by decide
theorem test_M5_setBpp : after (exec (.setBpp .b18) (block 240 240 .unset)) (fun t => (t.trace, t.mode)) =
    some ([.cs false, .dc false, .tx 0x3A, .cs true, .cs false, .dc true, .tx 0x63, .cs true], .b18) := by decide
theorem test_M9_setBpp_fails : after (exec (.setBpp .b16) (failing 0 0 .unset)) (fun t => (t.trace, t.mode, t.fault)) =
    some ([.cs false, .dc false], .b16, true) := by decide
theorem test_M1_getBpp : after (exec .getBpp (block 240 240 .unset)) (fun t => (t.trace, t.responses)) =
    some ([], [.done (some .unset)]) := by decide
theorem test_W12_setColumns : after (exec (.setColumns 4660 65534) (block 65535 240 .unset)) State.trace =
    some [.cs false, .dc false, .tx 0x2A, .cs true, .cs false, .dc true, .tx 0x12, .tx 0x34, .tx 0xFF, .tx 0xFE,
      .cs true] := by decide
theorem test_W4_setColumns_rejected : after (exec (.setColumns 0 240) (block 240 240 .unset)) (fun t => (t.trace, t.responses)) =
    some ([], [.done none]) := by decide
theorem test_W9_setRows : after (exec (.setRows 20 21) (block 240 240 .unset)) State.trace =
    some [.cs false, .dc false, .tx 0x2B, .cs true, .cs false, .dc true, .tx 0, .tx 0x14, .tx 0, .tx 0x15, .cs true] := by
  decide
theorem test_W15_setWindow : after (exec (.setWindow 10 20 300 21) (block 240 240 .unset)) State.trace =
    some [.cs false, .dc false, .tx 0x2B, .cs true, .cs false, .dc true, .tx 0, .tx 0x14, .tx 0, .tx 0x15, .cs true,
      .cs false, .dc false, .tx 0x2C, .cs true] := by decide
theorem test_R5_drawSolidRect : after (exec (.drawSolidRect 238 239 5 5 0x0000BEEF) (block 240 240 .b16))
      (fun t => (t.op, t.trace.length, t.trace.drop 26)) =
    some (⟨238, 239, 2, 1, 0xBEEF, [0xBE, 0xEF], 0⟩, 36,
      [.cs false, .dc true, .tx 0xBE, .tx 0xEF, .cs true, .cs false, .dc true, .tx 0xBE, .tx 0xEF, .cs true]) := by
  decide
theorem test_R13_drawSolidRect_refused :
    refusal (exec (.drawSolidRect 1 0 65535 1 7) (block 240 240 .b16)) = some .rectNotAdmitted := by decide
theorem test_P4_fill_fails : after (exec (.fill 0x00112233) (failing 6 1 .b16t)) (fun t => (t.trace.drop 26, t.pins.cs, t.fault)) =
    some ([.cs false, .dc true, .tx 0x11, .tx 0x22, .tx 0x33, .cs true, .cs false, .dc true, .tx 0x11], false, true) := by
  decide
theorem test_R16_fill_unset : after (exec (.fill 0xFFFF) (block 2 1 .unset)) (fun t => (t.trace, t.responses)) =
    some ([], [.done none]) := by decide
theorem test_C1_hardReset : after (exec .hardReset (block 240 240 .b16)) (fun t => (t.trace, t.mode)) =
    some ([.cs false, .rst true, .delay 50, .rst false, .delay 50, .rst true, .delay 150, .cs true], .b16) := by decide
theorem test_C2_softReset : after (exec .softReset (block 240 240 .b16)) State.trace =
    some [.cs false, .dc false, .tx 0x01, .cs true, .delay 150] := by decide
theorem test_C3_setSleepMode : after (exec (.setSleepMode true) (block 1 1 .unset)) (fun t => t.trace[2]?) =
    some (some (.tx 0x10)) := by decide
theorem test_C4_setInversionMode : after (exec (.setInversionMode true) (block 1 1 .unset)) (fun t => t.trace[2]?) =
    some (some (.tx 0x21)) := by decide
theorem test_C5_setDisplay : after (exec (.setDisplay false) (block 1 1 .unset)) (fun t => t.trace[2]?) =
    some (some (.tx 0x28)) := by decide
theorem test_C6_setBacklight : after (exec (.setBacklight true) (block 1 1 .unset)) (fun t => (t.trace, t.pins.bl)) =
    some ([.bl true], true) := by decide
theorem test_C7_setRotation : after (exec (.setRotation .landscape) (block 1 1 .unset)) State.trace =
    some [.cs false, .dc false, .tx 0x36, .cs true, .cs false, .dc true, .tx 0x60, .cs true] := by decide
theorem test_C8_setNormalMode : after (exec .setNormalMode (block 1 1 .unset)) (fun t => t.trace[2]?) =
    some (some (.tx 0x13)) := by decide
theorem test_P1_bringUp : after (exec .bringUp (block 3 2 .unset)) (fun t => (t.trace.length, t.mode, t.pins, t.trace.drop 63)) =
    some (102, .b16, ⟨true, false, true, true⟩,
      [.cs false, .dc false, .tx 0x2C, .cs true] ++
      (List.replicate 6 [Event.cs false, .dc true, .tx 0xF8, .tx 0x00, .cs true]).flatten ++
      [.bl true, .cs false, .dc false, .tx 0x29, .cs true]) := by decide
theorem test_T6_drawText_calls : textCalls (conf 240 240) ⟨7, none, 3, 1⟩ 10 10 [0x41, 0x41] =
    [⟨⟨10, 10, 3, 1⟩, 7⟩, ⟨⟨31, 17, 3, 1⟩, 7⟩, ⟨⟨34, 10, 3, 1⟩, 7⟩, ⟨⟨55, 17, 3, 1⟩, 7⟩] := by decide
theorem test_T8_drawText_uncovered : refusal (exec (.drawText 0 0 [0x43]) (block 240 240 .b16)) =
    some (.codeNotCovered 0x43) := by decide
theorem test_P5_setForeground : after (exec (.setForeground 9) (block 1 1 .unset)) (fun t => (t.style.fg, t.trace)) =
    some (9, []) := by decide
theorem test_P5_setBackground : after (exec (.setBackground (some 9)) (block 1 1 .unset)) (fun t => t.style.bg) =
    some (some 9) := by decide
theorem test_P5_setPixelScale : after (exec (.setPixelScale 2 3) (block 1 1 .unset)) (fun t => (t.style.sx, t.style.sy)) =
    some (2, 3) := by decide
theorem test_setPixelScale_zero : refusal (exec (.setPixelScale 0 3) (block 1 1 .unset)) = some .zeroScale := by decide

/-! ## The sink: what each wire row leaves (20_memory.md R48 to R50) -/

/-- A sink that has latched `c` and received `ps` after it, with a known window, the pixel format of the block's mode and a
pixel in its frame memory. -/
def sinkAt (c : Byte) (ps : List Byte) (mode : Mode) : State :=
  { block 4 4 mode with
    sink := ⟨some c, ps, some 1, some 2, some 2, some 3, [], some (modeByte (conf 4 4) mode), [(pixelKey 1 2, [9, 9])]⟩ }

/-- That sink in a stream that has received `ps`. -/
def streamAt (ps : List Byte) (mode : Mode) : State :=
  { sinkAt 0x2C ps mode with
    sink := { (sinkAt 0x2C ps mode).sink with streams := [⟨some 1, some 2, some 2, some 3, mode, ps⟩] } }

theorem test_cmd_rows_latch : [Instr.cmdSwreset, .cmdSlpin, .cmdSlpout, .cmdNoron, .cmdInvoff, .cmdInvon, .cmdDispoff,
      .cmdDispon, .cmdCaset, .cmdRaset, .cmdRamwr, .cmdMadctl, .cmdColmod].map
        (fun i => after (exec i (sinkAt 0x29 [] .b16)) (fun t => (t.sink.latched, t.sink.xs, t.trace))) =
    [0x01, 0x10, 0x11, 0x13, 0x20, 0x21, 0x28, 0x29, 0x2A, 0x2B, 0x2C, 0x36, 0x3A].map
      (fun c : Byte => some (some c, some 1, [])) := by decide
theorem test_cmdRamwr_opens_stream : after (exec .cmdRamwr (sinkAt 0x2B [0, 2, 0, 3] .b16)) (fun t => t.sink.streams) =
    some [⟨some 1, some 2, some 2, some 3, .b16, []⟩] := by decide
theorem test_cmdFrame_forgets : after (exec (.cmdFrame 0xB2) (sinkAt 0x29 [] .b16)) (fun t => (t.sink.latched, t.sink.xs, t.sink.mem)) =
    some (some 0xB2, none, []) := by decide
theorem test_dataFrame_columns : after (exec (.dataFrame [0x01, 0x3F]) (sinkAt 0x2A [0x01, 0x00] .b16))
      (fun t => (t.sink.xs, t.sink.xe, t.sink.ys)) = some (some 256, some 319, some 2) := by decide
theorem test_P2_dataFrame_lands :
    after (exec (.dataFrame [0x11, 0x11, 0x22, 0x22, 0x33, 0x33]) (streamAt [] .b16)) (fun t => t.sink.mem) =
      some [(pixelKey 1 2, [0x11, 0x11]), (pixelKey 2 2, [0x22, 0x22]), (pixelKey 1 3, [0x33, 0x33])] := by decide
/-- R50 (d): the place of a half-sent pixel is open, and the pixel that is then sent whole lands. -/
theorem test_R50d_half_pixel :
    after (exec (.dataFrame [0x11]) (streamAt [] .b16)) (fun t => t.sink.mem) = some [] ∧
    after (exec (.dataFrame [0x22]) (streamAt [0x11] .b16)) (fun t => t.sink.mem) =
      some [(pixelKey 1 2, [0x11, 0x22])] := by decide
/-- R193 (b): a colour-mode byte sent by hand parts the controller's format from `MODE`. -/
theorem test_R193b_format : after (exec (.dataFrame [0x57]) (sinkAt 0x3A [] .b16)) (fun t => (t.sink.format, t.mode)) =
    some (some 0x57, .b16) := by decide
/-- R193 (a): a frame that follows the pulse of `hardReset` finds the controller's format unknown. -/
theorem test_R193a_hardReset :
    let s : State := { sinkAt 0x29 [] .b16 with wire := hardReset.flatMap Act.events ++ cmdFrameEvents 0x2C }
    after (step s) (fun t => (t.sink.format, t.sink.latched, t.wire)) = some (none, some 0x2C, []) := by decide
/-- P4, R50 (d): the cut frame joins the stream, the whole pixel before it stays, and the place of the cut one is open. -/
theorem test_P4_cut_frame :
    let z := { (streamAt [0x11, 0x22, 0x33] .b16t).sink with
      mem := [(pixelKey 1 2, [0x11, 0x22, 0x33]), (pixelKey 2 2, [0, 0, 0])] }
    let s : State := { block 4 4 .b16t with sink := z, fault := true, wire := [.cs false, .dc true, .tx 0x11] }
    after (step s) (fun t => (t.sink.streams.map Stream.bytes, t.sink.mem, t.sink.xs)) =
      some ([[0x11, 0x22, 0x33, 0x11]], [(pixelKey 1 2, [0x11, 0x22, 0x33])], some 1) := by decide
/-- R48, R50 (e): when the next frame is cut before its first byte, a range whose four bytes have come stays, and one that has
had three is open. -/
theorem test_R48_range_at_fault : [[0, 1, 0, 2], [0, 1, 0]].map (fun ps =>
      after (step { sinkAt 0x2A ps .b16 with link := some ⟨0, 0, false⟩, requests := [{ op := 0x01, a := 0x2B }] })
        (fun t => (t.fault, t.sink.xs, t.sink.xe, t.sink.ys))) =
    [some (true, some 1, some 2, some 2), some (true, none, none, some 2)] := by decide

/-! ## Witnesses: states and operands that meet the hypotheses of each statement -/

theorem test_witness_DecodeEncodeAgree :
    (conf 3 2).Wf ∧ (Instr.drawSolidRect 0 0 3 2 0).wf (conf 3 2) = true ∧ (Instr.cmdFrame 0xB2).wf (conf 3 2) = true := by
  decide
theorem test_witness_ReservedRequestsRefused :
    let s := { block 3 2 .b16 with requests := [{ op := 0x54 }] }
    nextFrame s.wire = none ∧ s.requests = [{ op := 0x54 }] ∧
      decodeRequest { op := 0x54 } = .error (.reservedSelector 0x54) ∧
      decodeRequest { op := 0x10, a := 7 } = .error (.reservedMode 7) := by decide
theorem test_block_inv : (block 3 2 .b16).Inv where
  config := by decide
  scales := by decide
  idleLine := fun _ _ => rfl
  cutLine := fun h => by rcases h with h | h <;> exact absurd h Bool.false_ne_true
  oneStop := fun h => absurd h.1 Bool.false_ne_true
  pixbuf := .inl rfl
  pixcnt := Nat.zero_le _
  unread := List.suffix_refl _
  memory := ⟨List.Pairwise.nil, fun _ h => absurd h List.not_mem_nil⟩
  cutCommand := fun h => by rcases h with h | h <;> exact absurd h Bool.false_ne_true
  halfSent := fun _ h => nomatch h
theorem test_witness_StepKeepsInvariant :
    ∃ s t, s.Inv ∧ s.requests ≠ [] ∧ step s = .next t :=
  ⟨{ block 3 2 .b16 with requests := [{ op := 0x48 }] }, _, ⟨test_block_inv.1, test_block_inv.2, test_block_inv.3, test_block_inv.4,
    test_block_inv.5, test_block_inv.6, test_block_inv.7, test_block_inv.8, test_block_inv.9, test_block_inv.10,
    test_block_inv.11⟩, by decide, rfl⟩
theorem test_witness_StepRunsRequest :
    let s := { block 3 2 .b16 with requests := [{ op := 0x31, e := 5 }] }
    let cut := fun (c : Byte) (ps : List Byte) => { sinkAt c ps .b16 with fault := true }
    nextFrame s.wire = none ∧ s.requests = { op := 0x31, e := 5 } :: [] ∧
      decodeRequest { op := 0x31, e := 5 } = .ok (.fill 5) ∧ (cut 0x2A []).K.Wf ∧ nextFrame (cut 0x2A []).wire = none ∧
      (cut 0x2A []).sink.params.length < 4 ∧ (cut 0x2A []).sink.latched = some (conf 4 4).CMD_CASET ∧
      (cut 0x2B [0, 1, 0]).sink.params.length < 4 ∧ (cut 0x2B [0, 1, 0]).sink.latched = some (conf 4 4).CMD_RASET ∧
      ¬(cut 0x2A [0, 1, 0, 2]).sink.params.length < 4 := by decide
theorem test_witness_StepReadsFrame :
    let s := { block 3 2 .b16 with wire := [Event.rst false] ++ cmdFrameEvents 0x2C ++ [Event.delay 5] }
    s.wire = ([Event.rst false] ++ cmdFrameEvents 0x2C) ++ [Event.delay 5] ∧
      nextFrame s.wire = some ([.dc false, .tx 0x2C], [Event.delay 5]) ∧
      decodeBracket s.K [.dc false, .tx 0x2C] = .ok .cmdRamwr ∧ Event.rst false ∉ cmdFrameEvents 0x2C := by decide
theorem test_witness_StepWithNothingToDo :
    let s := block 3 2 .b16
    nextFrame s.wire = none ∧ s.requests = [] ∧ s.Ready ∧ { s with busy := true }.busy = true ∧
      { s with fault := true }.busy = false ∧ { s with fault := true }.fault = true := by decide
/-- For SendCommandFrame, SendDataFrame, SingleCommandOperations, and (its first clause) GetBppAnswersMode, HardResetPulses
and SetBacklightDrivesLine. -/
theorem test_witness_one_transfer : (block 3 2 .b16).Ready ∧ (block 3 2 .b16).linkCarries 1 = true ∧
    (failing 1 0 .b16).Ready ∧ (failing 1 0 .b16).linkCarries 1 = true ∧ (failing 0 0 .b16).linkCarries 1 = false := by
  decide
theorem test_witness_SetBppStoresAndSends :
    (failing 2 0 .unset).Ready ∧ Mode.b12 ≠ .unset ∧ (failing 2 0 .unset).linkCarries 2 = true := by decide
theorem test_witness_PackTruncates : (0x00010000 : U32).toNat % 65536 = (0 : U32).toNat % 65536 ∧
    (0xFF000000 : U32).toNat % 16777216 = (0 : U32).toNat % 16777216 := by decide
theorem test_witness_AcceptedRangesAreSent :
    let s := block 3 2 .unset
    s.Ready ∧ s.linkCarries 2 = true ∧ (2 : U16) ≤ 2 ∧ (2 : U16) < s.K.WIDTH ∧ (1 : U16) ≤ 1 ∧ (1 : U16) < s.K.HEIGHT := by
  decide
theorem test_witness_RejectedRangesChangeNothing :
    let s := block 3 2 .unset
    s.Ready ∧ (1 : U16) < 2 ∧ s.K.WIDTH ≤ 3 ∧ s.K.HEIGHT ≤ 2 := by decide
theorem test_witness_SetWindowFourCases :
    let s := { block 3 2 .unset with link := some ⟨5, 0, false⟩ }
    s.Ready ∧ s.linkCarries (2 + 2 + 1) = true ∧ s.linkCarries (0 + 2 + 1) = true ∧ s.linkCarries (2 + 0 + 1) = true ∧
      s.linkCarries (0 + 0 + 1) = true ∧ ((0 : U16) ≤ 2 ∧ (2 : U16) < s.K.WIDTH) ∧ ¬((0 : U16) ≤ 3 ∧ (3 : U16) < s.K.WIDTH) ∧
      ((0 : U16) ≤ 1 ∧ (1 : U16) < s.K.HEIGHT) ∧ ¬((1 : U16) ≤ 0 ∧ (0 : U16) < s.K.HEIGHT) := by decide
theorem test_witness_ClampFitsTheSurface :
    let K := conf 3 2
    1 ≤ K.WIDTH.toNat ∧ 1 ≤ K.HEIGHT.toNat ∧ clamp K ⟨3, 2, 1, 1⟩ = ⟨2, 1, 1, 1⟩ ∧ clamp K ⟨0, 0, 3, 2⟩ = ⟨0, 0, 3, 2⟩ ∧
      clamp K ⟨2, 1, 9, 9⟩ = ⟨2, 1, 1, 1⟩ ∧ clamp K ⟨1, 1, 0, 0⟩ = ⟨1, 1, 0, 0⟩ := by decide
theorem test_witness_DrawsWithoutModeAreDropped :
    let s := { block 3 2 .unset with link := some ⟨0, 0, false⟩ }
    s.Ready ∧ s.mode = .unset ∧ [0x41, 0x0A].all (codeCovered s.K) = true ∧
      (renderText s.K s.style (5 : U16).toNat (5 : U16).toNat [0x41, 0x0A]).within = true := by decide +kernel
theorem test_witness_DrawSolidRectStreams :
    let s := { block 240 240 .b12 with link := some ⟨245, 0, false⟩ }
    let r := clamp s.K (rectOf 0 239 65535 1)
    s.K.Wf ∧ s.Ready ∧ s.mode ≠ .unset ∧ 1 ≤ (65535 : U16).toNat ∧ 1 ≤ (1 : U16).toNat ∧
      r.x + (65535 : U16).toNat ≤ 65535 ∧ r.y + (1 : U16).toNat ≤ 65535 ∧
      s.linkCarries (5 + pixelFrames s.K s.mode (r.w * r.h)) = true := by decide +kernel
theorem test_witness_DrawCounts :
    let s := { block 3 2 .b12 with link := some ⟨7, 0, false⟩ }
    let r := clamp s.K (rectOf 1 0 9 1)
    s.K.Wf ∧ s.Ready ∧ s.mode ≠ .unset ∧ bpp s.mode = some 0 ∧ bpp .b18 = some 3 ∧ 1 ≤ (9 : U16).toNat ∧
      1 ≤ (1 : U16).toNat ∧ r.x + (9 : U16).toNat ≤ 65535 ∧ r.y + (1 : U16).toNat ≤ 65535 ∧
      s.linkCarries (5 + if s.mode = .b12 ∧ s.K.TWELVE_BIT_FRAMES = .noFrames then 0 else r.w * r.h) = true := by decide
theorem test_witness_RectOutsideSubsetRefused :
    let s := block 240 240 .b16
    s.Ready ∧ s.mode ≠ .unset ∧ (if (1 : U16).toNat < 240 then (1 : U16).toNat else 240 - 1) + (65535 : U16).toNat > 65535 ∧
      (if (65535 : U16).toNat < 240 then (65535 : U16).toNat else 240 - 1) + (65297 : U16).toNat > 65535 := by decide
theorem test_witness_FillStreamsTheSurface :
    let s := { block 3 2 .b18 with link := some ⟨11, 0, false⟩ }
    s.K.Wf ∧ s.Ready ∧ s.mode ≠ .unset ∧
      s.linkCarries (5 + pixelFrames s.K s.mode (s.K.WIDTH.toNat * s.K.HEIGHT.toNat)) = true := by decide
theorem test_witness_SoftResetWaits : (failing 1 0 .b16).Ready ∧ (failing 1 0 .b16).linkCarries 1 = true ∧
    (failing 0 1 .b16).Ready ∧ (failing 0 1 .b16).link = some ⟨0, 1, false⟩ := by decide
theorem test_witness_SetRotationSendsByte : (failing 2 0 .b16).Ready ∧ (failing 2 0 .b16).linkCarries 2 = true := by decide
theorem test_witness_BringUpTenSteps :
    let s := { block 3 2 .unset with link := some ⟨20, 0, false⟩ }
    s.K.Wf ∧ s.Ready ∧ s.linkCarries (14 + pixelFrames s.K s.K.INIT_MODE (s.K.WIDTH.toNat * s.K.HEIGHT.toNat)) = true := by
  decide
theorem test_witness_DrawTextDrawsItsBlocks :
    let s := block 240 240 .b16
    s.K.Wf ∧ s.Ready ∧ s.mode ≠ .unset ∧ 1 ≤ s.style.sx ∧ 1 ≤ s.style.sy ∧ [0x41].all (codeCovered s.K) = true ∧
      (renderText s.K s.style (5 : U16).toNat (5 : U16).toNat [0x41]).within = true ∧
      s.linkCarries ((textCalls s.K s.style (5 : U16).toNat (5 : U16).toNat [0x41]).map
        fun c => rectTransfers s.K s.mode c.rect).sum = true := by decide +kernel
theorem test_witness_GlyphBlocks : (0x41 : Nat) ≠ 0x0A ∧ fontGlyph (conf 3 2) 0x41 = some glyphG ∧
    (⟨1, some 2, 1, 1⟩ : Style).bg ≠ none := by decide
theorem test_witness_TextLayout : (0x41 : Nat) ≠ 0x0A ∧ (fontGlyph (conf 3 2) 0x41).isSome ∧ 0x0A ∉ [0x41, 0x42] := by decide
theorem test_witness_TextOutsideSubsetRefused :
    let s := block 240 240 .b16
    s.Ready ∧ (∃ ch ∈ [0x41, 0x43], ch ≠ 0x0A ∧ fontGlyph s.K ch = none) ∧
      (∀ ch ∈ [0x41], ch ≠ 0x0A ∧ (fontGlyph s.K ch).isSome) ∧ 65535 < (65528 : U16).toNat + 8 * s.style.sx * 1 ∧
      65535 < (65528 : U16).toNat + 8 * s.style.sy ∧
      (∀ ch ∈ [0x41, 0x0A], ch = 0x0A ∨ (fontGlyph s.K ch).isSome) ∧
      (renderText s.K s.style (0 : U16).toNat (65520 : U16).toNat [0x41, 0x0A, 0x0A]).within = false ∧
      (∀ ch ∈ [0x0A], ch = 0x0A) ∧ 65535 < (65528 : U16).toNat + 8 * s.style.sy * [0x0A].length := by decide +kernel
theorem test_witness_LineWithinCursorRange :
    (∀ ch ∈ [0x41], ch ≠ 0x0A ∧ (fontGlyph (conf 3 2) ch).isSome) ∧
      (renderText (conf 3 2) ⟨1, none, 1, 1⟩ 65527 65527 [0x41]).within = true ∧
      (renderText (conf 3 2) ⟨1, none, 1, 1⟩ 65528 0 [0x41]).within = false ∧
      (renderText (conf 3 2) ⟨1, none, 1, 1⟩ 0 65528 [0x41]).within = false := by decide +kernel
theorem test_witness_StyleSetters : (block 3 2 .unset).Ready ∧ (1 : U16) ≠ 0 := by decide
theorem test_witness_LinkFaultEntry :
    (∃ (s u : State) (evs : List Event), (Instr.fill 0x00112233).isHost = true ∧ s.Ready ∧ s.link = some ⟨6, 1, false⟩ ∧
      exec (.fill 0x00112233) { s with link := none } = .next u ∧ u.trace = s.trace ++ evs ∧ 6 < frameCount evs) ∧
    (failing 0 1 .b16).Ready ∧ (failing 0 1 .b16).link = some ⟨0, 1, false⟩ :=
  ⟨⟨failing 6 1 .b16t, _, rectEvents (conf 2 1) .b16t ⟨0, 0, 2, 1⟩ 0x00112233, rfl, by decide, rfl, rfl, rfl, by decide⟩,
    by decide, rfl⟩
theorem test_witness_SetBppFaultKeepsMode : (failing 1 0 .b16).Ready ∧ Mode.b18 ≠ .unset ∧
    (failing 1 0 .b16).link = some ⟨1, 0, false⟩ ∧ (failing 0 0 .b16).link = some ⟨0, 0, false⟩ ∧
    LinkFailure.after ⟨1, 0, false⟩ < 2 ∧ LinkFailure.after ⟨0, 0, false⟩ < 2 := by decide
theorem test_witness_FaultTraceIsABeginning : (Instr.fill 0x00112233).isHost = true ∧ (failing 6 1 .b16t).Ready ∧
    (∃ t, exec (.fill 0x00112233) (failing 6 1 .b16t) = .next t ∧ t.fault = true) ∧
    ∃ t, exec (.fill 0x00112233) (failing 7 1 .b16t) = .next t ∧ t.fault = false ∧ t.busy = false :=
  ⟨rfl, by decide, ⟨_, rfl, rfl⟩, _, rfl, rfl, rfl⟩
theorem test_witness_NoRequestAcceptedWhenStopped : Instr.getBpp.isHost = true ∧ { block 3 2 .b16 with busy := true }.busy = true ∧
    { block 3 2 .b16 with fault := true }.busy = false ∧ { block 3 2 .b16 with fault := true }.fault = true := by decide
theorem test_witness_FaultIsTerminal :
    (∃ s t, s.fault = true ∧ s.wire ≠ [] ∧ step s = .next t) ∧
    (∃ s t, step s = .next t ∧ t.fault = true ∧ nextFrame t.wire = none ∧ t.sink.params.length < 4 ∧
      t.sink.latched = some t.K.CMD_CASET) ∧
    ∃ s t, step s = .next t ∧ t.busy = true ∧ nextFrame t.wire = none ∧ t.sink.params.length < 4 ∧ t.K.Wf ∧
      t.sink.latched = some t.K.CMD_RASET :=
  ⟨⟨{ block 3 2 .b16 with fault := true, wire := cmdFrameEvents 0x2C }, _, rfl, by decide, rfl⟩,
    ⟨{ sinkAt 0x2A [0, 1] .b16 with fault := true, wire := [.cs false, .dc true, .tx 0] }, _, rfl, rfl, rfl, by decide, rfl⟩,
    { sinkAt 0x2B [0, 1] .b16 with busy := true, wire := [.cs false, .dc true, .tx 0] }, _, rfl, rfl, rfl, by decide,
      by decide, rfl⟩
theorem test_witness_OnlyTransfersFault : let s := failing 0 0 .b16
    (∃ t, exec .getBpp s = .next t) ∧ (∃ t, exec .hardReset s = .next t) ∧ (∃ t, exec (.setBacklight true) s = .next t) ∧
    (∃ t, exec (.setForeground 1) s = .next t) ∧ (∃ t, exec (.setBackground none) s = .next t) ∧
    (∃ t, exec (.setPixelScale 1 1) s = .next t) ∧ (∃ t, exec .bringUp (block 3 2 .b16) = .next t) ∧
    (block 3 2 .b16).link = none := ⟨⟨_, rfl⟩, ⟨_, rfl⟩, ⟨_, rfl⟩, ⟨_, rfl⟩, ⟨_, rfl⟩, ⟨_, rfl⟩, ⟨_, rfl⟩, rfl⟩
theorem test_witness_HungTransferStaysBusy :
    (∃ s : State, s.Ready ∧ s.link = some ⟨0, 1, true⟩) ∧
    (∃ (s u : State) (evs : List Event), (Instr.setBpp .b16).isHost = true ∧ s.Ready ∧ s.link = some ⟨1, 0, true⟩ ∧
      exec (.setBpp .b16) { s with link := none } = .next u ∧ u.trace = s.trace ++ evs ∧ 1 < frameCount evs) ∧
    ∃ t u : State, t.busy = true ∧ step t = .next u :=
  ⟨⟨{ block 3 2 .b16 with link := some ⟨0, 1, true⟩ }, by decide, rfl⟩,
    ⟨{ block 3 2 .b16 with link := some ⟨1, 0, true⟩ }, _, cmdFrameEvents 0x3A ++ dataFrameEvents [0x55], rfl, by decide,
      rfl, rfl, rfl, by decide⟩,
    { block 3 2 .b16 with busy := true, wire := cmdFrameEvents 0x2C }, _, rfl, rfl⟩
theorem test_witness_ModeWrittenOnlyBySetBpp :
    (∃ t, exec (.sendCommand 0x3A) (block 3 2 .unset) = .next t) ∧ (block 3 2 .b16).K.Wf ∧ (block 3 2 .b16).mode ≠ .unset ∧
      (∃ t, step { block 3 2 .b16 with requests := [{ op := 0x10, a := 3 }] } = .next t) ∧
      ∃ s : State, s.K.Wf ∧ s.wire ≠ [] ∧ s.BroughtUp :=
  ⟨⟨_, rfl⟩, by decide, by decide, ⟨_, rfl⟩, (after (exec .bringUp (State.construct (conf 1 1) false false false none)) id).get rfl,
    by decide, by decide, false, false, false, none, _, rfl, by decide, .start⟩
/-- For PinsHoldLastLevel, ChipSelectAlternates and RequestFrame. -/
theorem test_witness_requests_complete : (block 3 2 .b16).pins.cs = true ∧
    (∃ t, exec (.fill 5) (block 3 2 .b16) = .next t) ∧ (∃ t, exec (.fill 5) (failing 6 1 .b16) = .next t) ∧
    ∃ t, exec (.setForeground 5) (block 3 2 .b16) = .next t := ⟨rfl, ⟨_, rfl⟩, ⟨_, rfl⟩, _, rfl⟩
/-- For WireRowsActOnTheSinkAlone. -/
theorem test_witness_wire_rows : Instr.cmdNoron.isHost = false ∧ (Instr.dataFrame []).isHost = false := by decide
/-- For CommandFramesLatch and MemoryWriteOpensStream. -/
theorem test_witness_CommandFramesLatch :
    let s := sinkAt 0x2A [0, 1, 0, 2] .b16
    let u : State := { block 3 2 .b16 with sink := { Sink.initial with
      latched := some 0x2C, streams := [⟨some 0, some 1, some 0, some 1, .b16, [1, 2, 3]⟩] } }
    s.K.Wf ∧ s.sink.Complete s.K ∧ u.sink.Complete u.K ∧ (block 3 2 .b16).sink.Complete (conf 3 2) := by
  decide
theorem test_witness_CommandsThatLeaveTheSinkOpen :
    (0xB2 : Byte) ∉ (conf 4 4).codes ∧ (Instr.cmdRamwr, (0x2C : Byte)) ∈ commandRows (conf 4 4) ∧
      (sinkAt 0x2A [0, 1, 0] .b16).sink.params.length < 4 ∧
      (sinkAt 0x2A [0, 1, 0] .b16).sink.latched = some (conf 4 4).CMD_CASET ∧
      (sinkAt 0x2B [] .b16).sink.params.length < 4 ∧ (sinkAt 0x2B [] .b16).sink.latched = some (conf 4 4).CMD_RASET ∧
      (streamAt [1, 2, 3] .b16).sink.latched = some (conf 4 4).CMD_RAMWR := by
  decide
theorem test_witness_DataFramesJoinParams : (sinkAt 0x36 [] .b16).K.Wf ∧ ([0x60] : List Byte) ≠ [] ∧
    (sinkAt 0x36 [] .b16).sink.latched = some (conf 4 4).CMD_MADCTL ∧
    (sinkAt 0x3A [] .b16).sink.latched = some (conf 4 4).CMD_COLMOD ∧
    (sinkAt 0x2A [0, 1] .b16).sink.latched = some (conf 4 4).CMD_CASET ∧
    ((sinkAt 0x2A [0, 1] .b16).sink.params ++ [0x60]).length < 4 := by decide
theorem test_witness_RangeDataProgramsWindow : (sinkAt 0x2A [0, 1] .b16).K.Wf ∧
    (sinkAt 0x2A [0, 1] .b16).sink.params ++ [0, 2] = [0, 1, 0, 2] ∧
    (sinkAt 0x2A [0, 1] .b16).sink.latched = some (conf 4 4).CMD_CASET ∧
    (sinkAt 0x2B [] .b16).sink.params ++ [0, 1, 0, 2] = [0, 1, 0, 2] ∧
    (sinkAt 0x2B [] .b16).sink.latched = some (conf 4 4).CMD_RASET := by decide
/-- Two pixels in one frame from the middle of one, to the last place of the window and to the middle of it. -/
theorem test_witness_PixelLands :
    let st : Stream := ⟨some 1, some 2, some 2, some 3, .b16, [1, 2, 3]⟩
    let s : State := streamAt [1, 2, 3] .b16
    s.K.Wf ∧ s.sink.mem.wf ∧ s.sink.latched = some s.K.CMD_RAMWR ∧ s.sink.streams = [] ++ [st] ∧
      pixelSize st.mode = some 2 ∧ s.sink.format = some (modeByte s.K st.mode) ∧
      (∀ bs ∈ ([[4, 5, 6, 7], [4, 5, 6, 7, 8]] : List (List Byte)), (st.bytes ++ bs).length ≤
        ((2 : U16).toNat + 1 - (1 : U16).toNat) * ((3 : U16).toNat + 1 - (2 : U16).toNat) * 2 ∧
        st.bytes.length / 2 ≤ 2 ∧ 2 < (st.bytes ++ bs).length / 2) ∧
      pixelPlace 1 2 2 2 = pixelKey 1 3 ∧ (st.bytes ++ [4, 5, 6, 7]).length % 2 ≠ 0 ∧
      (st.bytes ++ [4, 5, 6, 7, 8]).length = (2 * 2) * 2 ∧ pixelKey 0 0 ≠ pixelPlace 1 2 2 1 := by decide
theorem test_witness_UnspecifiedDataForgets :
    let K := conf 4 4
    let st : Stream := ⟨some 1, some 2, some 2, some 3, .b16, [1, 2, 3, 4, 5, 6]⟩
    let s : State := streamAt [1, 2, 3, 4, 5, 6] .b16
    (block 4 4 .b16).sink.latched = none ∧
      (∀ c ∈ [0x01, 0x10, 0x11, 0x13, 0x20, 0x21, 0x28, 0x29, 0xB2], (sinkAt c [] .b16).sink.latched = some c ∧
        c ∉ [K.CMD_CASET, K.CMD_RASET, K.CMD_RAMWR, K.CMD_MADCTL, K.CMD_COLMOD]) ∧
      4 < ((sinkAt 0x2A [0, 1, 0, 2] .b16).sink.params ++ [9]).length ∧
      (sinkAt 0x2A [0, 1, 0, 2] .b16).sink.latched = some K.CMD_CASET ∧
      (sinkAt 0x2B [0, 1, 0, 2] .b16).sink.latched = some K.CMD_RASET ∧
      pixelSize .b18 = none ∧ (sinkAt 0x3A [] .b16t).sink.format ≠ some (modeByte K .b16) ∧
      s.sink.latched = some s.K.CMD_RAMWR ∧ s.sink.streams = [] ++ [st] ∧ s.sink.mem.wf ∧
      s.sink.format = some (modeByte s.K st.mode) ∧ pixelSize st.mode = some 2 ∧
      ((2 : U16).toNat + 1 - (1 : U16).toNat) * ((3 : U16).toNat + 1 - (2 : U16).toNat) * 2 <
        (st.bytes ++ [7, 8, 9]).length ∧
      (st.bytes ++ [7]).length ≤ ((2 : U16).toNat + 1 - (1 : U16).toNat) * ((3 : U16).toNat + 1 - (2 : U16).toNat) * 2 ∧
      (st.bytes ++ [7]).length % 2 ≠ 0 ∧
      -- a range sent by hand with its end before its start holds no pixel (log entry 27)
      ((1 : U16).toNat + 1 - (2 : U16).toNat) * ((2 : U16).toNat + 1 - (3 : U16).toNat) * 2 < ([7] : List Byte).length := by
  decide
theorem test_witness_DrawnWindowIsTheClampedRect :
    let s := block 3 2 .b18
    s.K.Wf ∧ s.mode ≠ .unset ∧ s.requests = [] ∧ s.wire = [] ∧ rectAdmitted s.K (rectOf 2 5 4 4) = true ∧
      s.linkCarries (5 + pixelFrames s.K s.mode ((clamp s.K (rectOf 2 5 4 4)).w * (clamp s.K (rectOf 2 5 4 4)).h)) = true ∧
      ∃ t, exec (.drawSolidRect 2 5 4 4 7) s = .next t :=
  ⟨by decide, by decide, rfl, rfl, by decide, by decide, _, rfl⟩
theorem test_witness_DrawPaintsTheClampedRect :
    let s := { block 3 2 .b16t with sink := { Sink.initial with format := some 0x57 } }
    s.K.Wf ∧ (s.mode = .b16 ∨ s.mode = .b16t) ∧ s.requests = [] ∧ s.wire = [] ∧ s.sink.mem.wf ∧ s.sink.Complete s.K ∧
      s.sink.format = some (modeByte s.K s.mode) ∧ rectAdmitted s.K (rectOf 0 0 3 1) = true ∧
      s.linkCarries (5 + (clamp s.K (rectOf 0 0 3 1)).w * (clamp s.K (rectOf 0 0 3 1)).h) = true ∧
      ∃ t, exec (.drawSolidRect 0 0 3 1 7) s = .next t :=
  ⟨by decide, by decide, rfl, rfl, by decide, by decide, by decide, by decide, by decide, _, rfl⟩
theorem test_witness_BringUpReachesTheSink :
    let s := block 3 2 .unset
    s.K.Wf ∧ s.requests = [] ∧ s.wire = [] ∧
      s.linkCarries (14 + pixelFrames s.K s.K.INIT_MODE (s.K.WIDTH.toNat * s.K.HEIGHT.toNat)) = true ∧
      ∃ t, exec .bringUp s = .next t := ⟨by decide, rfl, rfl, by decide, _, rfl⟩

end Sys2Proof.Tests
end

/-! SUPPORT. The invariant of the machine (10_state.md R20, R22, R25, R28; 20_memory.md R50, R53; 60_exceptions.md R167,
R168; 70_reset_and_hazards.md R196) holds at reset, and every step keeps it. Its clauses fall into groups, each kept for a
reason of its own: the stop flags with chip-select (by what a script of whole frames can do), the operand latches (by what a
script stores), and the sink (by what a frame does to streams and memory). `State.Core` is the invariant without the one
clause that only the end of a step establishes, `State.settle`. -/

namespace Sys2Proof.Machine

/-! ## The stop flags and chip-select -/

/-- A ready block has chip-select deasserted; a stopped one has exactly one of `BUSY` and `FAULT`, and chip-select asserted
(R22, R167, R168). -/
def State.LinesAgree (s : State) : Prop :=
  (s.Ready ∧ s.pins.cs = true) ∨ (s.busy ≠ s.fault ∧ s.pins.cs = false)

/-- `State.LinesAgree` is the three clauses of the invariant on the stop flags and chip-select. -/
theorem State.linesAgree_iff {s : State} : s.LinesAgree ↔
    (s.busy = false → s.fault = false → s.pins.cs = true) ∧ (s.busy = true ∨ s.fault = true → s.pins.cs = false) ∧
      ¬(s.busy = true ∧ s.fault = true) := by
  unfold State.LinesAgree State.Ready
  cases s.busy <;> cases s.fault <;> simp

theorem State.LinesAgree.of_eq {s t : State} (h : s.LinesAgree) (hb : t.busy = s.busy) (hf : t.fault = s.fault)
    (hp : t.pins = s.pins) : t.LinesAgree := by
  unfold State.LinesAgree State.Ready at h ⊢
  rwa [hb, hf, hp]

/-! ## What a script stores and how it leaves chip-select -/

/-- The ranges of `PIXBUF` and `PIXCNT` (R25, R20). -/
def Latches.Within (l : Latches) : Prop :=
  (l.pixbuf.length = 0 ∨ l.pixbuf.length = 2 ∨ l.pixbuf.length = 3) ∧ l.pixcnt ≤ 65535 * 65535

/-- An action that loads `PIXBUF` or `PIXCNT` does so within its range. -/
def Act.storesWithin (a : Act) : Prop :=
  match a with
  | .setPixbuf bs => bs.length = 0 ∨ bs.length = 2 ∨ bs.length = 3
  | .setPixcnt n => n ≤ 65535 * 65535
  | .emit _ | .xfer _ | .setMode _ | .setRect _ | .setColor _ => True

theorem Act.apply_op_within {s : State} {a : Act} (hs : s.op.Within) (ha : a.storesWithin) :
    (Act.apply s a).op.Within := by
  cases a with
  | setPixbuf bs => exact ⟨ha, hs.2⟩
  | setPixcnt n => exact ⟨hs.1, ha⟩
  | _ => exact hs

theorem foldl_apply_op_within {s : State} {acts : List Act} (hs : s.op.Within) (ha : ∀ a ∈ acts, a.storesWithin) :
    (acts.foldl Act.apply s).op.Within := by
  induction acts generalizing s with
  | nil => exact hs
  | cons a rest ih =>
    rw [List.forall_mem_cons] at ha
    exact ih (Act.apply_op_within hs ha.1) ha.2

/-- A script that stores within the ranges and, carried out whole, leaves a deasserted chip-select deasserted. -/
structure Rests (acts : List Act) : Prop where
  stores : ∀ a ∈ acts, a.storesWithin
  line : ∀ p : Pins, p.cs = true → ((scriptEvents acts).foldl Pins.drive p).cs = true

theorem Rests.nil : Rests [] := ⟨by simp, fun _ hp => hp⟩

theorem Rests.append {as bs : List Act} (ha : Rests as) (hb : Rests bs) : Rests (as ++ bs) where
  stores := List.forall_mem_append.mpr ⟨ha.stores, hb.stores⟩
  line p hp := by
    rw [scriptEvents_append, List.foldl_append]
    exact hb.line _ (ha.line p hp)

theorem Rests.flatMap {α : Type} {l : List α} {f : α → List Act} (h : ∀ a ∈ l, Rests (f a)) : Rests (l.flatMap f) := by
  induction l with
  | nil => exact .nil
  | cons a l ih =>
    rw [List.forall_mem_cons] at h
    exact h.1.append (ih h.2)

/-- An action within the ranges that writes no line rests. -/
theorem Rests.cons {a : Act} {acts : List Act} (ha : a.storesWithin) (he : a.events = []) (h : Rests acts) :
    Rests (a :: acts) :=
  .append (as := [a]) ⟨by simpa using ha, fun p hp => by simpa [scriptEvents, he] using hp⟩ h

theorem rests_sendCommand (c : Byte) : Rests (sendCommand c) :=
  ⟨by simp [sendCommand, Act.storesWithin], fun _ _ => rfl⟩

theorem rests_sendData (bs : List Byte) : Rests (sendData bs) where
  stores := by simp [sendData, Act.storesWithin]
  line p _ := by rw [scriptEvents_sendData, dataFrameEvents, foldl_drive_frame]

theorem rests_setBpp (K : Config) (m : Mode) : Rests (setBpp K m) :=
  .cons trivial rfl ((rests_sendCommand _).append (rests_sendData _))

theorem rests_setRotation (K : Config) (r : Rot) : Rests (setRotation K r) :=
  (rests_sendCommand _).append (rests_sendData _)

theorem rests_setColumns (K : Config) (a b : U16) : Rests (setColumns K a b) := by
  unfold setColumns
  split
  · exact (rests_sendCommand _).append (rests_sendData _)
  · exact .nil

theorem rests_setRows (K : Config) (a b : U16) : Rests (setRows K a b) := by
  unfold setRows
  split
  · exact (rests_sendCommand _).append (rests_sendData _)
  · exact .nil

theorem rests_setWindow (K : Config) (x0 y0 x1 y1 : U16) : Rests (setWindow K x0 y0 x1 y1) :=
  ((rests_setColumns K x0 x1).append (rests_setRows K y0 y1)).append (rests_sendCommand _)

theorem rests_pixelFrame (K : Config) (buf : List Byte) : Rests (pixelFrame K buf) := by
  unfold pixelFrame
  split
  · exact .nil
  · exact rests_sendData buf

theorem rests_pixelLoop (K : Config) (buf : List Byte) {n : Nat} (hn : n ≤ 65535 * 65535) : Rests (pixelLoop K buf n) := by
  have hcount (k : Nat) : n - 1 - k ≤ 65535 * 65535 := by omega
  exact .cons hn rfl (.flatMap fun k _ => (rests_pixelFrame K buf).append (.cons (hcount k) rfl .nil))

/-- The packed pixel has 0, 2 or 3 bytes (41_color_mode.md R103). -/
theorem length_pack (m : Mode) (c : U32) : (pack m c).length = 0 ∨ (pack m c).length = 2 ∨ (pack m c).length = 3 := by
  cases m <;> simp [pack]

/-- The pixels of a clamped rectangle are no more than `PIXCNT` can count (43_rasterizer.md R121). -/
theorem clamp_area_le {K : Config} (hK : K.Wf) (r : Rect) : (clamp K r).w * (clamp K r).h ≤ 65535 * 65535 := by
  obtain ⟨hW, hH, -⟩ := hK
  obtain ⟨-, -, hw, hh⟩ := clamp_fits hW hH r
  have := K.WIDTH.isLt
  have := K.HEIGHT.isLt
  exact Nat.mul_le_mul (by omega) (by omega)

theorem rests_drawSolidRect {K : Config} (hK : K.Wf) (m : Mode) (r : Rect) (c : U32) : Rests (drawSolidRect K m r c) := by
  unfold drawSolidRect
  split
  · exact .nil
  · have hpixels := rests_pixelLoop K (pack m c) (clamp_area_le hK r)
    exact .cons trivial rfl (.cons trivial rfl (.cons trivial rfl
      (((rests_setWindow _ _ _ _ _).append
        (.cons (a := .setPixbuf _) (length_pack m c) rfl .nil)).append hpixels)))

theorem rests_hardReset : Rests hardReset := ⟨by simp [hardReset, Act.storesWithin], fun _ _ => rfl⟩

theorem rests_setBacklight (on : Bit) : Rests (setBacklight on) :=
  ⟨by simp [setBacklight, Act.storesWithin], fun _ hp => hp⟩

theorem rests_softReset (K : Config) : Rests (softReset K) :=
  (rests_sendCommand _).append ⟨by simp [Act.storesWithin], fun _ hp => hp⟩

theorem rests_bringUp {K : Config} (hK : K.Wf) : Rests (bringUp K) :=
  ((((((((rests_hardReset.append (rests_softReset K)).append (rests_sendCommand _)).append (rests_setBpp K _)).append
    (rests_setRotation K _)).append (rests_sendCommand _)).append (rests_sendCommand _)).append
    (rests_drawSolidRect hK _ _ _)).append (rests_setBacklight _)).append (rests_sendCommand _)

/-- Every request's script stores within the ranges and deasserts chip-select at its end. -/
theorem rests_hostScript {s : State} (hK : s.K.Wf) (i : Instr) : Rests (hostScript s i) := by
  cases i with
  | sendCommand c => exact rests_sendCommand c
  | sendData bs => exact rests_sendData bs
  | setBpp m => exact rests_setBpp _ m
  | setColumns a b => exact rests_setColumns _ a b
  | setRows a b => exact rests_setRows _ a b
  | setWindow x0 y0 x1 y1 => exact rests_setWindow _ x0 y0 x1 y1
  | drawSolidRect x y w h c => exact rests_drawSolidRect hK _ _ c
  | fill c => exact rests_drawSolidRect hK _ _ c
  | hardReset => exact rests_hardReset
  | softReset => exact rests_softReset _
  | setSleepMode on => exact rests_sendCommand _
  | setInversionMode on => exact rests_sendCommand _
  | setDisplay on => exact rests_sendCommand _
  | setBacklight on => exact rests_setBacklight on
  | setRotation r => exact rests_setRotation _ r
  | setNormalMode => exact rests_sendCommand _
  | bringUp => exact rests_bringUp hK
  | drawText x y text => exact .flatMap fun c _ => rests_drawSolidRect hK _ _ _
  | _ => exact .nil

/-! ## An accepted operation -/

/-- A framed script is carried out whole, or is cut inside the frame of the transfer that did not succeed, with chip-select
asserted (60_exceptions.md R168). -/
theorem Framed.progress_cases {acts : List Act} (h : Framed acts) (link : Option LinkFailure) :
    (∃ l, progress link acts = ⟨acts, .completed, l⟩) ∨
    (∃ before kind bs e, progress link acts =
        ⟨before ++ [.emit (.cs false), .emit (.dc kind), .xfer bs], e, none⟩ ∧ e ≠ .completed ∧ before ⊆ acts) := by
  cases link with
  | none => exact .inl ⟨none, rfl⟩
  | some f =>
    by_cases hn : transfers acts ≤ f.after
    · exact .inl ⟨_, cutScript_of_le f acts f.after hn⟩
    · obtain ⟨before, kind, bs, rest, hacts, -, -, hcut⟩ := h.cut f (Nat.lt_of_not_le hn)
      refine .inr ⟨before, kind, _, _, hcut, by split <;> simp, ?_⟩
      rw [hacts]
      exact List.subset_append_left _ _

/-- The flags after an operation whose script completed. -/
theorem operate_ready {s : State} {acts : List Act} (v : Option Mode) (hf : s.fault = false)
    (he : (progress s.link acts).ending = .completed) : (s.operate acts v).Ready := by
  simp [State.Ready, State.operate, State.carryOut, State.finish, he, hf]

/-- The flags after an operation whose script did not complete: `FAULT` after a failed transfer, `BUSY` in one that never
completes. -/
theorem operate_stopped {s : State} {acts : List Act} (v : Option Mode) (hf : s.fault = false)
    (he : (progress s.link acts).ending ≠ .completed) : (s.operate acts v).busy ≠ (s.operate acts v).fault := by
  cases hp : (progress s.link acts).ending with
  | completed => exact absurd hp he
  | failed sent => simp [State.operate, State.carryOut, State.finish, hp]
  | hung => simp [State.operate, State.carryOut, State.finish, hp, hf]

theorem operate_linesAgree {s : State} {acts : List Act} (v : Option Mode) (hs : s.fault = false) (hcs : s.pins.cs = true)
    (hframed : Framed acts) (hrests : Rests acts) : (s.operate acts v).LinesAgree := by
  obtain ⟨-, -, -, -, -, -, hpins, -, -⟩ := operate_fields s acts v
  rcases hframed.progress_cases s.link with ⟨l, hp⟩ | ⟨before, kind, bs, e, hp, he, -⟩
  · refine .inl ⟨operate_ready v hs (by rw [hp]), ?_⟩
    rw [hpins, hp]
    exact hrests.line _ hcs
  · refine .inr ⟨operate_stopped v hs (by rwa [hp]), ?_⟩
    rw [hpins, hp]
    simp [Act.events]

theorem operate_op_within {s : State} {acts : List Act} (v : Option Mode) (hs : s.op.Within) (hframed : Framed acts)
    (hrests : Rests acts) : (s.operate acts v).op.Within := by
  obtain ⟨-, -, -, -, -, -, -, -, hop⟩ := operate_fields s acts v
  rw [hop]
  refine foldl_apply_op_within hs ?_
  rcases hframed.progress_cases s.link with ⟨l, hp⟩ | ⟨before, kind, bs, e, hp, -, hsub⟩
  · rw [hp]
    exact hrests.stores
  · rw [hp, List.forall_mem_append]
    exact ⟨fun a ha => hrests.stores a (hsub ha), by simp [Act.storesWithin]⟩

/-! ## The sink -/

/-- While the last stream stands in the middle of a pixel, the place of that pixel is open (R50 (d)). -/
def Sink.HalfSentOpen (z : Sink) : Prop :=
  ∀ st ∈ z.streams.getLast?, ∀ xs ∈ st.xs, ∀ xe ∈ st.xe, ∀ ys ∈ st.ys, ∀ p ∈ pixelSize st.mode,
    st.bytes.length % p ≠ 0 → z.mem.read (pixelPlace xs xe ys (st.bytes.length / p)) = none

theorem Sink.halfSentOpen_of_mem_nil {z : Sink} (h : z.mem = []) : z.HalfSentOpen := by
  unfold Sink.HalfSentOpen
  rw [h]
  exact fun _ _ _ _ _ _ _ _ _ _ _ => rfl

/-- What opens no stream, extends none, and lands nothing keeps the place of a half-sent pixel open. -/
theorem Sink.HalfSentOpen.of_streams_eq {z z' : Sink} (h : z.HalfSentOpen) (hs : z'.streams = z.streams)
    (hm : z'.mem = z.mem ∨ z'.mem = []) : z'.HalfSentOpen := by
  rcases hm with hm | hm
  · unfold Sink.HalfSentOpen
    rw [hs, hm]
    exact h
  · exact Sink.halfSentOpen_of_mem_nil hm

/-- The frame memory after a command frame. -/
theorem Sink.command_mem (K : Config) (m : Mode) (c : Byte) (z : Sink) :
    (z.command K m c).mem = z.mem ∨ (z.command K m c).mem = [] := by
  have hclose := Sink.closeCommand_mem K z
  unfold Sink.command
  simp only []
  repeat' split
  all_goals first | exact .inl hclose | exact .inr rfl

/-- The streams after a command frame: the memory-write command opens one. -/
theorem Sink.command_streams (K : Config) (m : Mode) (c : Byte) (z : Sink) :
    (z.command K m c).streams = z.streams ∨
    ∃ st : Stream, st.bytes = [] ∧ (z.command K m c).streams = z.streams ++ [st] := by
  have hclose := Sink.closeCommand_streams K z
  unfold Sink.command
  simp only []
  repeat' split
  all_goals first | exact .inl hclose | exact .inr ⟨_, rfl, congrArg (· ++ _) hclose⟩

/-- A stream just opened stands at the start of a pixel. -/
theorem Sink.command_halfSentOpen (K : Config) (m : Mode) (c : Byte) {z : Sink} (h : z.HalfSentOpen) :
    (z.command K m c).HalfSentOpen := by
  rcases Sink.command_streams K m c z with hs | ⟨new, hnew, hs⟩
  · exact h.of_streams_eq hs (Sink.command_mem K m c z)
  · intro st hst xs _ xe _ ys _ p _ hp
    rw [hs, List.getLast?_concat, Option.mem_some_iff] at hst
    subst hst
    simp [hnew] at hp

/-- Bytes are cut by the size of the stream's mode, if by any. -/
theorem Sink.streamSize_cases (K : Config) (z : Sink) (st : Stream) :
    z.streamSize K st = pixelSize st.mode ∨ z.streamSize K st = none := by
  unfold Sink.streamSize
  split
  · exact .inl rfl
  · exact .inr rfl

/-- Bytes that leave a stream in the middle of a pixel leave the place of that pixel open (R50 (d)). -/
theorem Stream.land_read_halfSent {st : Stream} {size : Option Nat} {bs : List Byte} {m : Memory} {xs xe ys : U16} {p : Nat}
    (hm : m.wf) (hsize : size = some p ∨ size = none) (hxs : st.xs = some xs) (hxe : st.xe = some xe) (hys : st.ys = some ys)
    (hp : (st.bytes ++ bs).length % p ≠ 0) :
    (st.land size bs m).read (pixelPlace xs xe ys ((st.bytes ++ bs).length / p)) = none := by
  rcases hsize with rfl | rfl
  · cases hye : st.ye with
    | none => simp [Stream.land, hye, Memory.read]
    | some ye =>
      simp only [Stream.land, hxs, hxe, hys, hye]
      split
      · exact Memory.read_forget_same (landPixels_wf _ _ _ _ _ _ _ hm) _
      · rfl
  · simp [Stream.land, Memory.read]

theorem Sink.pixelData_halfSentOpen (K : Config) (bs : List Byte) {z : Sink} (hm : z.mem.wf) :
    (z.pixelData K bs).HalfSentOpen := by
  unfold Sink.pixelData
  split
  · exact Sink.halfSentOpen_of_mem_nil rfl
  · rename_i last _
    intro st hst xs hxs xe hxe ys hys p hsize hp
    rw [List.getLast?_concat, Option.mem_some_iff] at hst
    subst hst
    exact Stream.land_read_halfSent hm (hsize ▸ Sink.streamSize_cases K z last) hxs hxe hys hp

/-- A data frame for any command but the memory write leaves the streams alone and lands nothing. -/
theorem Sink.data_cases (K : Config) (bs : List Byte) (z : Sink) :
    z.data K bs = { z with params := z.params ++ bs }.pixelData K bs ∨
    (z.data K bs).streams = z.streams ∧ ((z.data K bs).mem = z.mem ∨ (z.data K bs).mem = []) := by
  unfold Sink.data Sink.columnData Sink.rowData Sink.formatData
  simp only []
  repeat' split
  all_goals first | exact .inr ⟨rfl, .inl rfl⟩ | exact .inr ⟨rfl, .inr rfl⟩ | exact .inl rfl

theorem Sink.data_halfSentOpen (K : Config) (bs : List Byte) {z : Sink} (hm : z.mem.wf) (h : z.HalfSentOpen) :
    (z.data K bs).HalfSentOpen := by
  rcases Sink.data_cases K bs z with hd | ⟨hs, hmem⟩
  · rw [hd]
    exact Sink.pixelData_halfSentOpen K bs hm
  · exact h.of_streams_eq hs hmem

@[simp] theorem Sink.passLines_streams (evs : List Event) (z : Sink) : (z.passLines evs).streams = z.streams := by
  unfold Sink.passLines; split <;> rfl

/-! ## The invariant without its clause on the end of a step -/

/-- The invariant but for `State.Inv.cutCommand`, by its groups. -/
structure State.Core (s : State) : Prop where
  config : s.K.Wf
  scales : 1 ≤ s.style.sx ∧ 1 ≤ s.style.sy
  lines : s.LinesAgree
  latches : s.op.Within
  unread : s.wire <:+ s.trace
  memory : s.sink.mem.wf
  halfSent : s.sink.HalfSentOpen

theorem State.Inv.core {s : State} (h : s.Inv) : s.Core :=
  ⟨h.config, h.scales, State.linesAgree_iff.mpr ⟨h.idleLine, h.cutLine, h.oneStop⟩, ⟨h.pixbuf, h.pixcnt⟩,
    h.unread, h.memory, h.halfSent⟩

/-- The end of a step closes the command of a stopped block with no frame left (R196, log entry 29). -/
theorem State.settle_closed {s : State} (hstop : s.busy = true ∨ s.fault = true) (hw : nextFrame s.wire = none) :
    s.settle.sink = s.sink.closeCommand s.K := by
  rw [State.settle_sink, if_pos (by simpa [hw] using hstop)]

/-- The end of a step touches neither streams nor frame memory. -/
theorem State.settle_sink_streams_mem (s : State) :
    s.settle.sink.streams = s.sink.streams ∧ s.settle.sink.mem = s.sink.mem := by
  rw [State.settle_sink]
  split <;> simp

/-- The end of a step turns the core into the invariant. -/
theorem State.Core.settle {s : State} (h : s.Core) : s.settle.Inv := by
  obtain ⟨hstreams, hmem⟩ := s.settle_sink_streams_mem
  obtain ⟨hidle, hcut, hone⟩ :=
    State.linesAgree_iff.mp (h.lines.of_eq s.settle_busy s.settle_fault s.settle_pins)
  constructor
  case config => simpa using h.config
  case scales => simpa using h.scales
  case idleLine => exact hidle
  case cutLine => exact hcut
  case oneStop => exact hone
  case pixbuf => simpa using h.latches.1
  case pixcnt => simpa using h.latches.2
  case unread => simpa using h.unread
  case memory => simpa [hmem] using h.memory
  case cutCommand =>
    intro hstop hw
    simp only [State.settle_busy, State.settle_fault, State.settle_wire] at hstop hw
    rw [State.settle_closed hstop hw, State.settle_K, Sink.closeCommand_closeCommand]
  case halfSent => exact h.halfSent.of_streams_eq hstreams (.inl hmem)

theorem State.Core.takeFrame {s : State} (h : s.Core) {rest : List Event} (hrest : rest <:+ s.wire) :
    (s.takeFrame rest).Core where
  config := h.config
  scales := h.scales
  lines := h.lines
  latches := h.latches
  unread := hrest.trans h.unread
  memory := by simpa using h.memory
  halfSent := h.halfSent.of_streams_eq (by simp) (.inl (by simp))

/-- A wire row keeps the core. -/
theorem State.Core.exec_wire {s u : State} {i : Instr} (h : s.Core) (hi : i.isHost = false) (hu : exec i s = .next u) :
    u.Core := by
  rcases Machine.exec_wire (s := s) hi with ⟨c, hc⟩ | ⟨bs, hd⟩
  · obtain rfl : s.sinkCommand c = u := by simpa [hc] using hu
    exact ⟨h.config, h.scales, h.lines, h.latches, h.unread, Sink.command_wf _ _ _ h.memory,
      Sink.command_halfSentOpen _ _ _ h.halfSent⟩
  · obtain rfl : s.sinkData bs = u := by simpa [hd] using hu
    exact ⟨h.config, h.scales, h.lines, h.latches, h.unread, Sink.data_wf _ _ h.memory,
      Sink.data_halfSentOpen _ _ h.memory h.halfSent⟩

/-- The scales stay at least 1: `setPixelScale` refuses a 0 (45_text.md R153). -/
theorem hostStyle_scales {s : State} {i : Instr} (hs : 1 ≤ s.style.sx ∧ 1 ≤ s.style.sy) (hi : hostRefusal s i = none) :
    1 ≤ (hostStyle s.style i).sx ∧ 1 ≤ (hostStyle s.style i).sy := by
  cases i with
  | setPixelScale sx sy =>
    by_contra hzero
    simp [hostRefusal, show ¬(1 ≤ sx.toNat ∧ 1 ≤ sy.toNat) from hzero] at hi
  | _ => exact hs

/-- An accepted operation keeps the core, whatever the environment does. -/
theorem State.Core.operate {s : State} {acts : List Act} (v : Option Mode) (h : s.Core) (hr : s.Ready)
    (hframed : Framed acts) (hrests : Rests acts) : (s.operate acts v).Core := by
  obtain ⟨hK, hstyle, -, hsink, htrace, hwire, -, -, -⟩ := operate_fields s acts v
  have hcs : s.pins.cs = true := by
    rcases h.lines with ⟨-, hcs⟩ | ⟨hne, -⟩
    · exact hcs
    · exact absurd (hr.1.trans hr.2.symm) hne
  constructor
  case config => rw [hK]; exact h.config
  case scales => rw [hstyle]; exact h.scales
  case lines => exact operate_linesAgree v hr.2 hcs hframed hrests
  case latches => exact operate_op_within v h.latches hframed hrests
  case unread =>
    rw [htrace, hwire]
    obtain ⟨read, hread⟩ := h.unread
    exact ⟨read, by rw [← hread, List.append_assoc]⟩
  case memory => rw [hsink]; exact h.memory
  case halfSent => rw [hsink]; exact h.halfSent

/-- A host request that gives a next state keeps the core. -/
theorem State.Core.exec_host {s u : State} {i : Instr} (h : s.Core) (hi : i.isHost = true) (hu : exec i s = .next u) :
    u.Core := by
  obtain ⟨hready, hrefusal, rfl⟩ := exec_host_next hi hu
  have hstyled : State.Core { s with style := hostStyle s.style i } := { h with scales := hostStyle_scales h.scales hrefusal }
  exact hstyled.operate _ hready (framed_hostScript s i) (rests_hostScript h.config i)

/-- Every instruction that gives a next state keeps the core. -/
theorem State.Core.exec {s u : State} {i : Instr} (h : s.Core) (hu : exec i s = .next u) : u.Core := by
  cases hi : i.isHost with
  | true => exact h.exec_host hi hu
  | false => exact h.exec_wire hi hu

/-! ## The two obligations -/

/-- Settles O6: a step runs an instruction, which keeps the core, from a state whose packet has been taken, and settles; or
it waits. -/
theorem stepKeepsInvariant : Obligations.StepKeepsInvariant := by
  intro s t hs hstep
  rcases step_cases hstep with ⟨bracket, rest, i, u, hframe, -, hu, rfl⟩ | ⟨r, rest, i, u, -, -, -, hu, rfl⟩ | ⟨-, -, -, rfl⟩
  · exact ((hs.core.takeFrame (nextBracket_suffix hframe)).exec hu).settle
  · have htaken : State.Core { s with requests := rest } := { hs.core with }
    exact (htaken.exec hu).settle
  · exact hs

/-- The core holds right after construction with an admitted configuration. -/
theorem State.construct_core {K : Config} (hK : K.Wf) (dc rst bl : Bit) (link : Option LinkFailure) :
    (State.construct K dc rst bl link).Core := by
  have ⟨_, _, _, hsx, hsy, _⟩ := hK
  exact ⟨hK, ⟨hsx, hsy⟩, .inl ⟨⟨rfl, rfl⟩, rfl⟩, ⟨.inl rfl, Nat.zero_le _⟩, List.suffix_refl _, Memory.wf_nil,
    Sink.halfSentOpen_of_mem_nil rfl⟩

/-- Settles O5: a block just constructed is ready, so that settling it changes nothing. -/
theorem resetMeetsInvariant : Obligations.ResetMeetsInvariant := by
  have hcore : State.reset.Core := State.construct_core Config.K_wf ..
  have hready : State.reset.settle = State.reset := State.settle_of_ready _ ⟨rfl, rfl⟩
  rw [Obligations.ResetMeetsInvariant, ← hready]
  exact hcore.settle

end Sys2Proof.Machine

/-! SUPPORT. The state of the block, 10_state.md: what it holds at reset (R31), what it does with nothing to do, and what a
host request writes and leaves alone (R20 to R22, R25, R28, R29). What a script may store, `MODE` and the operand latches, is
said once, as `Stores`, for every script and for every beginning of one; a fact about all requests then follows from
`exec_host_next` and `operate_fields`. -/

namespace Sys2Proof.Machine

/-! ## Reset, and a step with nothing to do -/

/-- Settles O4: the fields of a fresh machine. -/
theorem resetValues : Obligations.ResetValues := by
  simp [Obligations.ResetValues, State.reset, Sink.initial, Sink.window]

theorem step_of_nothing_to_do {s : State} (hw : nextFrame s.wire = none) (hq : s.requests = []) : step s = idle s := by
  simp [step, fetch, hw, hq]

theorem idle_of_ready {s : State} (h : s.Ready) : idle s = .next s := by simp [idle, h.1, h.2]

theorem idle_of_busy {s : State} (h : s.busy = true) : idle s = .fault .transferNeverCompletes := by simp [idle, h]

theorem idle_of_fault {s : State} (hb : s.busy = false) (hf : s.fault = true) : idle s = .fault .linkFaulted := by
  simp [idle, hb, hf]

/-- Settles O9: such a step is `idle`, which has one answer for each of the three cases. -/
theorem stepWithNothingToDo : Obligations.StepWithNothingToDo := by
  intro s hw hq
  rw [step_of_nothing_to_do hw hq]
  exact ⟨idle_of_ready, idle_of_busy, idle_of_fault⟩

/-! ## What a script may store -/

/-- An action of a script that may store the modes `ms` in `MODE` and, if `latches`, load the operand latches. -/
def Act.StoresOnly (ms : List Mode) (latches : Bool) (a : Act) : Prop :=
  match a with
  | .emit _ | .xfer _ => True
  | .setMode m => m ∈ ms
  | .setRect _ | .setColor _ | .setPixbuf _ | .setPixcnt _ => latches = true

/-- A script stores no mode but those of `ms`, and loads operand latches only if `latches`. -/
def Stores (ms : List Mode) (latches : Bool) (acts : List Act) : Prop := ∀ a ∈ acts, a.StoresOnly ms latches

section
variable {ms : List Mode} {latches : Bool}

theorem Stores.nil : Stores ms latches [] := fun _ ha => absurd ha List.not_mem_nil

theorem Stores.append {as bs : List Act} (ha : Stores ms latches as) (hb : Stores ms latches bs) :
    Stores ms latches (as ++ bs) := List.forall_mem_append.mpr ⟨ha, hb⟩

theorem Stores.cons {a : Act} {acts : List Act} (ha : a.StoresOnly ms latches) (h : Stores ms latches acts) :
    Stores ms latches (a :: acts) := List.forall_mem_cons.mpr ⟨ha, h⟩

theorem Stores.flatMap {α : Type} {l : List α} {f : α → List Act} (h : ∀ a ∈ l, Stores ms latches (f a)) :
    Stores ms latches (l.flatMap f) := by
  intro act hact
  obtain ⟨a, ha, hact⟩ := List.mem_flatMap.mp hact
  exact h a ha act hact

/-- What is carried out of a script stores no more than the script: the cut transfer at its end stores nothing. -/
theorem Stores.progress {acts : List Act} (h : Stores ms latches acts) (link : Option LinkFailure) :
    Stores ms latches (progress link acts).done := by
  rcases progress_cases link acts with ⟨l, hp⟩ | ⟨f, pre, bs, post, -, rfl, hp⟩
  · rwa [hp]
  · rw [hp]
    have hpre : Stores ms latches pre := (List.forall_mem_append.mp h).1
    exact hpre.append (.cons (a := .xfer _) trivial .nil)

theorem foldl_apply_mode_of_stores {acts : List Act} (h : Stores ms latches acts) (s : State) :
    (acts.foldl Act.apply s).mode = s.mode ∨ (acts.foldl Act.apply s).mode ∈ ms := by
  induction acts generalizing s with
  | nil => exact .inl rfl
  | cons a rest ih =>
    obtain ⟨ha, hrest⟩ := List.forall_mem_cons.mp h
    rcases ih hrest (Act.apply s a) with hkept | hstored
    · rw [List.foldl_cons, hkept]
      cases a with
      | setMode m => exact .inr ha
      | _ => exact .inl rfl
    · exact .inr hstored

/-- A script with a store to `MODE`, carried out whole, leaves one of its modes there. -/
theorem foldl_apply_mode_of_mem {acts : List Act} (h : Stores ms latches acts) {m : Mode} (hm : .setMode m ∈ acts)
    (s : State) : (acts.foldl Act.apply s).mode ∈ ms := by
  induction acts generalizing s with
  | nil => cases hm
  | cons a rest ih =>
    obtain ⟨ha, hrest⟩ := List.forall_mem_cons.mp h
    rcases List.mem_cons.mp hm with rfl | hm
    · rcases foldl_apply_mode_of_stores hrest (Act.apply s (.setMode m)) with hkept | hstored
      · rw [List.foldl_cons, hkept]
        exact ha
      · exact hstored
    · exact ih hrest hm _

theorem foldl_apply_op_of_stores {acts : List Act} (h : Stores ms false acts) (s : State) :
    (acts.foldl Act.apply s).op = s.op := by
  induction acts generalizing s with
  | nil => rfl
  | cons a rest ih =>
    obtain ⟨ha, hrest⟩ := List.forall_mem_cons.mp h
    rw [List.foldl_cons, ih hrest]
    cases a with
    | emit _ | xfer _ | setMode _ => rfl
    | setRect _ | setColor _ | setPixbuf _ | setPixcnt _ => exact absurd ha Bool.false_ne_true

/-! The scripts of the operations. -/

theorem stores_sendCommand (c : Byte) : Stores ms latches (sendCommand c) := by
  simp [Stores, sendCommand, Act.StoresOnly]

theorem stores_sendData (bs : List Byte) : Stores ms latches (sendData bs) := by
  simp [Stores, sendData, Act.StoresOnly]

theorem stores_setBpp (K : Config) {m : Mode} (hm : m ∈ ms) : Stores ms latches (setBpp K m) :=
  .cons hm ((stores_sendCommand _).append (stores_sendData _))

theorem stores_setColumns (K : Config) (a b : U16) : Stores ms latches (setColumns K a b) := by
  unfold setColumns
  split
  · exact (stores_sendCommand _).append (stores_sendData _)
  · exact .nil

theorem stores_setRows (K : Config) (a b : U16) : Stores ms latches (setRows K a b) := by
  unfold setRows
  split
  · exact (stores_sendCommand _).append (stores_sendData _)
  · exact .nil

theorem stores_setWindow (K : Config) (x0 y0 x1 y1 : U16) : Stores ms latches (setWindow K x0 y0 x1 y1) :=
  ((stores_setColumns K x0 x1).append (stores_setRows K y0 y1)).append (stores_sendCommand _)

theorem stores_pixelLoop (K : Config) (buf : List Byte) (n : Nat) : Stores ms true (pixelLoop K buf n) := by
  have hframe : Stores ms true (pixelFrame K buf) := by
    unfold pixelFrame
    split
    · exact .nil
    · exact stores_sendData buf
  exact .cons rfl (.flatMap fun k _ => hframe.append (.cons rfl .nil))

theorem stores_drawSolidRect (K : Config) (m : Mode) (r : Rect) (c : U32) : Stores ms true (drawSolidRect K m r c) := by
  unfold drawSolidRect
  split
  · exact .nil
  · exact .cons rfl (.cons rfl (.cons rfl
      (((stores_setWindow _ _ _ _ _).append (.cons (a := .setPixbuf _) rfl .nil)).append (stores_pixelLoop _ _ _))))

theorem stores_hardReset : Stores ms latches hardReset := by simp [Stores, hardReset, Act.StoresOnly]

theorem stores_softReset (K : Config) : Stores ms latches (softReset K) :=
  (stores_sendCommand _).append (.cons trivial .nil)

theorem stores_setRotation (K : Config) (r : Rot) : Stores ms latches (setRotation K r) :=
  (stores_sendCommand _).append (stores_sendData _)

theorem stores_bringUp {K : Config} (hm : K.INIT_MODE ∈ ms) : Stores ms true (bringUp K) :=
  ((((((((stores_hardReset.append (stores_softReset K)).append (stores_sendCommand _)).append (stores_setBpp K hm)).append
    (stores_setRotation K _)).append (stores_sendCommand _)).append (stores_sendCommand _)).append
    (stores_drawSolidRect K _ _ _)).append (.cons (a := .emit _) trivial .nil)).append (stores_sendCommand _)

end

/-- `bringUp` does store its mode (44_lifecycle.md R145, step 4). -/
theorem setMode_mem_bringUp (K : Config) : .setMode K.INIT_MODE ∈ bringUp K := by simp [bringUp, setBpp]

/-- The modes an instruction may store in `MODE` (R21). -/
def hostModes (K : Config) (i : Instr) : List Mode :=
  match i with
  | .setBpp m => [m]
  | .bringUp => [K.INIT_MODE]
  | _ => []

/-- Whether an instruction may load the operand latches (R25, log entry 4). -/
def hostLoads (i : Instr) : Bool :=
  match i with
  | .drawSolidRect _ _ _ _ _ | .fill _ | .bringUp | .drawText _ _ _ => true
  | _ => false

theorem stores_hostScript (s : State) (i : Instr) : Stores (hostModes s.K i) (hostLoads i) (hostScript s i) := by
  cases i with
  | sendCommand c => exact stores_sendCommand c
  | sendData bs => exact stores_sendData bs
  | setBpp m => exact stores_setBpp _ (List.mem_singleton_self m)
  | setColumns a b => exact stores_setColumns _ a b
  | setRows a b => exact stores_setRows _ a b
  | setWindow x0 y0 x1 y1 => exact stores_setWindow _ x0 y0 x1 y1
  | drawSolidRect x y w h c => exact stores_drawSolidRect _ _ _ c
  | fill c => exact stores_drawSolidRect _ _ _ c
  | hardReset => exact stores_hardReset
  | softReset => exact stores_softReset _
  | setSleepMode on => exact stores_sendCommand _
  | setInversionMode on => exact stores_sendCommand _
  | setDisplay on => exact stores_sendCommand _
  | setBacklight on => exact .cons trivial .nil
  | setRotation r => exact stores_setRotation _ r
  | setNormalMode => exact stores_sendCommand _
  | bringUp => exact stores_bringUp (List.mem_singleton_self _)
  | drawText x y text => exact .flatMap fun c _ => stores_drawSolidRect _ _ _ _
  | _ => exact .nil

/-! ## `MODE` -/

theorem hostModes_eq_nil {K : Config} {i : Instr} (hset : ∀ m, i ≠ .setBpp m) (hup : i ≠ .bringUp) :
    hostModes K i = [] := by
  cases i with
  | setBpp m => exact absurd rfl (hset m)
  | bringUp => exact absurd rfl hup
  | _ => rfl

/-- `setBpp(UNSET)` is refused (30_encoding.md R72 (b)), and an admitted configuration has an initial mode (R8). -/
theorem unset_notMem_hostModes {s : State} {i : Instr} (hK : s.K.Wf) (hi : hostRefusal s i = none) :
    Mode.unset ∉ hostModes s.K i := by
  obtain ⟨-, -, hinit, -⟩ := hK
  cases i with
  | setBpp m =>
    have hm : m ≠ .unset := by
      rintro rfl
      cases hi
    simpa [hostModes] using hm.symm
  | bringUp => simpa [hostModes] using hinit.symm
  | _ => exact List.not_mem_nil

theorem operate_mode_of_stores {ms : List Mode} {latches : Bool} {acts : List Act} (h : Stores ms latches acts) (s : State)
    (v : Option Mode) : (s.operate acts v).mode = s.mode ∨ (s.operate acts v).mode ∈ ms := by
  obtain ⟨-, -, -, -, -, -, -, hmode, -⟩ := operate_fields s acts v
  rw [hmode]
  exact foldl_apply_mode_of_stores (h.progress s.link) _

/-- A row of the wire that gives a next state has changed the sink alone (20_memory.md R47). -/
theorem exec_wire_next {i : Instr} {s t : State} (hi : i.isHost = false) (h : exec i s = .next t) :
    t = { s with sink := t.sink } := by
  rcases exec_wire (s := s) hi with ⟨c, hc⟩ | ⟨bs, hd⟩
  · obtain rfl : s.sinkCommand c = t := by simpa [hc] using h
    rfl
  · obtain rfl : s.sinkData bs = t := by simpa [hd] using h
    rfl

/-- An instruction stores in `MODE` nothing but its modes, and only when it is not refused (R21). -/
theorem exec_mode {i : Instr} {s t : State} (h : exec i s = .next t) :
    t.mode = s.mode ∨ (hostRefusal s i = none ∧ t.mode ∈ hostModes s.K i) := by
  cases hi : i.isHost with
  | true =>
    obtain ⟨-, hrefusal, rfl⟩ := exec_host_next hi h
    exact (operate_mode_of_stores (stores_hostScript s i) _ _).imp_right fun hstored => ⟨hrefusal, hstored⟩
  | false =>
    rw [exec_wire_next hi h]
    exact .inl rfl

/-- No instruction writes the configuration (00_scope.md R8). -/
theorem exec_K {i : Instr} {s t : State} (h : exec i s = .next t) : t.K = s.K := by
  cases hi : i.isHost with
  | true =>
    obtain ⟨-, -, rfl⟩ := exec_host_next hi h
    exact (operate_fields _ _ _).1
  | false => rw [exec_wire_next hi h]

theorem exec_modeSet {i : Instr} {s t : State} (hK : s.K.Wf) (hm : s.ModeSet) (h : exec i s = .next t) : t.ModeSet := by
  rcases exec_mode h with hkept | ⟨hrefusal, hstored⟩
  · rwa [State.ModeSet, hkept]
  · exact ne_of_mem_of_not_mem hstored (unset_notMem_hostModes hK hrefusal)

/-- Every step keeps an admitted configuration and a set mode. -/
theorem step_modeSet {s t : State} (hK : s.K.Wf) (hm : s.ModeSet) (h : step s = .next t) : t.K.Wf ∧ t.ModeSet := by
  have hrun {i : Instr} {s' u : State} (hu : exec i s' = .next u) (hK' : s'.K.Wf) (hm' : s'.ModeSet) :
      u.settle.K.Wf ∧ u.settle.ModeSet := by
    rw [State.settle_K, exec_K hu, State.ModeSet, State.settle_mode]
    exact ⟨hK', exec_modeSet hK' hm' hu⟩
  rcases step_cases h with ⟨bracket, rest, i, u, -, -, hu, rfl⟩ | ⟨r, rest, i, u, -, -, -, hu, rfl⟩ | ⟨-, -, -, rfl⟩
  · exact hrun hu hK hm
  · exact hrun hu hK hm
  · exact ⟨hK, hm⟩

/-- A `bringUp` that leaves the block ready was carried out whole, so that its mode is set. -/
theorem bringUp_modeSet {s t : State} (hK : s.K.Wf) (h : exec .bringUp s = .next t) (hr : t.Ready) : t.ModeSet := by
  obtain ⟨⟨-, hfault⟩, hrefusal, rfl⟩ := exec_host_next rfl h
  have hcompleted : (progress s.link (bringUp s.K)).ending = .completed := by
    by_contra hcut
    exact operate_stopped (acts := bringUp s.K) none hfault hcut (hr.1.trans hr.2.symm)
  have hdone : (progress s.link (bringUp s.K)).done = bringUp s.K := by
    rcases progress_cases s.link (bringUp s.K) with ⟨l, hp⟩ | ⟨f, pre, bs, post, -, -, hp⟩
    · rw [hp]
    · rw [hp] at hcompleted
      cases hhangs : f.hangs <;> simp [hhangs] at hcompleted
  have hstored : (s.operate (bringUp s.K) none).mode ∈ hostModes s.K .bringUp := by
    obtain ⟨-, -, -, -, -, -, -, hmode, -⟩ := operate_fields s (bringUp s.K) none
    rw [hmode, hdone]
    exact foldl_apply_mode_of_mem (stores_hostScript s .bringUp) (setMode_mem_bringUp s.K) _
  exact ne_of_mem_of_not_mem hstored (unset_notMem_hostModes hK hrefusal)

/-- A run of fault-free operations keeps an admitted configuration, a set mode, and a ready block. -/
theorem FaultFreeRun.modeSet {s t : State} (h : FaultFreeRun s t) (hK : s.K.Wf) (hm : s.ModeSet) (hr : s.Ready) :
    t.K.Wf ∧ t.ModeSet ∧ t.Ready := by
  induction h with
  | start => exact ⟨hK, hm, hr⟩
  | issue r _ ih => exact ih
  | step _ hs hu ih =>
    obtain ⟨hK', hm', -⟩ := ih
    obtain ⟨hKu, hmu⟩ := step_modeSet hK' hm' hs
    exact ⟨hKu, hmu, hu⟩

/-- Settles O46: the modes an instruction may store are those of `hostModes`, none of them `UNSET`; and a block that was
brought up has stored one. -/
theorem modeWrittenOnlyBySetBpp : Obligations.ModeWrittenOnlyBySetBpp := by
  refine ⟨?_, ?_, ?_⟩
  · intro i s t h hset hup
    simpa [hostModes_eq_nil hset hup] using exec_mode h
  · intro s t hK hm h
    exact (step_modeSet hK hm h).2
  · rintro s hK ⟨dc, rst, bl, link, t, hup, hready, hrun⟩
    have htK : t.K.Wf := by rwa [exec_K hup]
    have htm : t.ModeSet := bringUp_modeSet (s := State.construct s.K dc rst bl link) hK hup hready
    obtain ⟨-, hm, -, hfault⟩ := hrun.modeSet htK htm hready
    exact ⟨hfault, hm⟩

/-! ## The trace, the wire and the lines -/

/-- Settles O47: the events are those of what was carried out of the request's script. -/
theorem pinsHoldLastLevel : Obligations.PinsHoldLastLevel := by
  intro i s t hi h
  obtain ⟨-, -, rfl⟩ := exec_host_next hi h
  obtain ⟨-, -, -, -, htrace, hwire, hpins, -, -⟩ :=
    operate_fields { s with style := hostStyle s.style i } (hostScript s i) (hostValue s i)
  exact ⟨_, htrace, hwire, hpins⟩

/-! ## What a request leaves alone -/

theorem hostStyle_eq_self {st : Style} {i : Instr} (hfg : ∀ c, i ≠ .setForeground c) (hbg : ∀ b, i ≠ .setBackground b)
    (hscale : ∀ a b, i ≠ .setPixelScale a b) : hostStyle st i = st := by
  cases i with
  | setForeground c => exact absurd rfl (hfg c)
  | setBackground b => exact absurd rfl (hbg b)
  | setPixelScale a b => exact absurd rfl (hscale a b)
  | _ => rfl

theorem hostLoads_eq_false {i : Instr} (hdraw : ∀ x y w h c, i ≠ .drawSolidRect x y w h c) (hfill : ∀ c, i ≠ .fill c)
    (hup : i ≠ .bringUp) (htext : ∀ x y l, i ≠ .drawText x y l) : hostLoads i = false := by
  cases i with
  | drawSolidRect x y w h c => exact absurd rfl (hdraw x y w h c)
  | fill c => exact absurd rfl (hfill c)
  | bringUp => exact absurd rfl hup
  | drawText x y l => exact absurd rfl (htext x y l)
  | _ => rfl

theorem operate_op_of_stores {ms : List Mode} {acts : List Act} (h : Stores ms false acts) (s : State) (v : Option Mode) :
    (s.operate acts v).op = s.op := by
  obtain ⟨-, -, -, -, -, -, -, -, hop⟩ := operate_fields s acts v
  rw [hop, foldl_apply_op_of_stores (h.progress s.link)]

/-- What an accepted operation answers: its value when it is done, a fault, or nothing while its transfer hangs (R68). -/
theorem operate_responses (s : State) (acts : List Act) (v : Option Mode) :
    (s.operate acts v).responses = s.responses ∨
    ∃ r, (s.operate acts v).responses = s.responses ++ [r] ∧ (r = .done v ∨ ∃ n, r = .fault n) := by
  have hcarried : ({ s with busy := true }.carryOut (progress s.link acts)).responses = s.responses := by
    simp [State.carryOut]
  simp only [State.operate, State.finish]
  cases (progress s.link acts).ending with
  | completed => exact .inr ⟨_, congrArg (· ++ [_]) hcarried, .inl rfl⟩
  | failed sent => exact .inr ⟨_, congrArg (· ++ [_]) hcarried, .inr ⟨_, rfl⟩⟩
  | hung => exact .inl hcarried

/-- An operation without a value adds nothing to what `getBpp` has returned. -/
theorem operate_readings_none (s : State) (acts : List Act) : (s.operate acts none).readings = s.readings := by
  rcases operate_responses s acts none with h | ⟨r, h, rfl | ⟨n, rfl⟩⟩ <;> simp [State.readings, h, Response.value]

theorem hostValue_eq_none {s : State} {i : Instr} (hi : i ≠ .getBpp) : hostValue s i = none := by
  cases i with
  | getBpp => exact absurd rfl hi
  | _ => rfl

/-- The values `getBpp` has returned, after a host request (R32, 41_color_mode.md R101). -/
theorem operate_hostScript_readings (s t : State) (i : Instr) :
    (t.operate (hostScript s i) (hostValue s i)).readings = t.readings ++ (if i = .getBpp then [s.mode] else []) := by
  by_cases hi : i = .getBpp
  · subst hi
    simp [hostScript, hostValue, operate_nil, State.readings, Response.value]
  · rw [hostValue_eq_none hi, operate_readings_none, if_neg hi, List.append_nil]

/-- Settles O49: the fields no operation writes, and for the others what the request's script stores and answers. -/
theorem requestFrame : Obligations.RequestFrame := by
  intro i s t hi h
  obtain ⟨-, -, rfl⟩ := exec_host_next hi h
  obtain ⟨hK, hstyle, hrequests, hsink, -⟩ :=
    operate_fields { s with style := hostStyle s.style i } (hostScript s i) (hostValue s i)
  refine ⟨hK, hsink, hrequests, ?_, operate_hostScript_readings s _ i, ?_, ?_⟩
  · exact (operate_responses _ _ _).imp_right fun ⟨r, hr, _⟩ => ⟨r, hr⟩
  · intro hfg hbg hscale
    rw [hstyle]
    exact hostStyle_eq_self hfg hbg hscale
  · intro hdraw hfill hup htext
    have hstores := stores_hostScript s i
    rw [hostLoads_eq_false hdraw hfill hup htext] at hstores
    exact operate_op_of_stores hstores _ _

end Sys2Proof.Machine

/-! SUPPORT. The sink, 20_memory.md: what each command frame and each data frame does to it (R47 to R50), as one equation
per latched command, and where the pixels of a stream land (R49). Beside it the two agents' shares of a step (R48, R53, R55),
and the transfer that never completes (R42). -/

namespace Sys2Proof

/-- The five commands whose data the sink reads have codes of their own (30_encoding.md R67). -/
theorem Config.Wf.dataCodes_distinct {K : Config} (hK : K.Wf) :
    K.CMD_RASET ≠ K.CMD_CASET ∧ (K.CMD_RAMWR ≠ K.CMD_CASET ∧ K.CMD_RAMWR ≠ K.CMD_RASET) ∧
    (K.CMD_COLMOD ≠ K.CMD_CASET ∧ K.CMD_COLMOD ≠ K.CMD_RASET ∧ K.CMD_COLMOD ≠ K.CMD_RAMWR) ∧
    (K.CMD_MADCTL ≠ K.CMD_CASET ∧ K.CMD_MADCTL ≠ K.CMD_RASET ∧ K.CMD_MADCTL ≠ K.CMD_RAMWR ∧
      K.CMD_MADCTL ≠ K.CMD_COLMOD) := by
  obtain ⟨-, -, -, -, -, hcodes⟩ := hK
  have hdata : [K.CMD_CASET, K.CMD_RASET, K.CMD_RAMWR, K.CMD_MADCTL, K.CMD_COLMOD].Nodup :=
    hcodes.sublist (List.drop_sublist 8 K.codes)
  simp only [List.nodup_cons, List.mem_cons, List.not_mem_nil, not_or] at hdata
  grind

end Sys2Proof

namespace Sys2Proof.Machine

/-! ## Where a step takes its instruction from -/

theorem step_of_request {s : State} {r : Request} {rest : List Request} {i : Instr} (hw : nextFrame s.wire = none)
    (hq : s.requests = r :: rest) (hr : decodeRequest r = .ok i) :
    step s = settled (exec i { s with requests := rest }) := by
  simp [step, fetch, fetchRequest, hw, hq, hr]

theorem step_of_frame {s : State} {bracket rest : List Event} {i : Instr} (hw : nextFrame s.wire = some (bracket, rest))
    (hb : decodeBracket s.K bracket = .ok i) : step s = settled (exec i (s.takeFrame rest)) := by
  simp [step, fetch, fetchFrame, hw, hb]

/-- A reset pulse among the events passed over is all they tell the sink (R193 (a), log entry 28). -/
theorem Sink.passLines_eq (evs : List Event) (z : Sink) :
    z.passLines evs = { z with format := if .rst false ∈ evs then none else z.format } := by
  unfold Sink.passLines
  split <;> rfl

/-- Settles O8: the events up to the end of the frame are what stands on the wire before the rest. -/
theorem stepReadsFrame : Obligations.StepReadsFrame := by
  intro s before bracket rest i hwire hframe hbracket
  have hbefore : s.wire.take (s.wire.length - rest.length) = before := by simp [hwire]
  rw [step_of_frame hframe hbracket, State.takeFrame, hbefore, Sink.passLines_eq]

/-! ## The command under way -/

theorem Sink.closeCommand_of_caset {K : Config} {z : Sink} (hlen : z.params.length < 4)
    (hl : z.latched = some K.CMD_CASET) : z.closeCommand K = z.forgetColumns := by
  simp [Sink.closeCommand, hlen, hl]

theorem Sink.closeCommand_of_raset {K : Config} {z : Sink} (hK : K.Wf) (hlen : z.params.length < 4)
    (hl : z.latched = some K.CMD_RASET) : z.closeCommand K = z.forgetRows := by
  simp [Sink.closeCommand, hlen, hl, hK.dataCodes_distinct]

/-- The memory-write command leaves nothing unfinished (R50 (d)). -/
theorem Sink.complete_of_ramwr {K : Config} {z : Sink} (hK : K.Wf) (hl : z.latched = some K.CMD_RAMWR) :
    z.Complete K := by
  simp [Sink.Complete, hl, hK.dataCodes_distinct]

/-- The end of a step changes nothing when nothing is left unfinished, or more may follow. -/
theorem State.settle_of_not_cut {t : State}
    (h : (t.busy = true ∨ t.fault = true) → nextFrame t.wire = none → t.sink.Complete t.K) : t.settle = t := by
  rw [State.settle_eq, State.settle_sink]
  split
  · rename_i hcut
    simp only [Bool.and_eq_true, Bool.or_eq_true, Option.isNone_iff_eq_none] at hcut
    rw [Sink.closeCommand_of_complete (h hcut.1 hcut.2)]
  · rfl

/-- Settles O7: the step fetches the request; settling closes the command of a block that has stopped for good. -/
theorem stepRunsRequest : Obligations.StepRunsRequest := by
  refine ⟨fun s r rest i hw hq hr => step_of_request hw hq hr, ?_, fun _ => rfl, fun _ => rfl⟩
  intro t hK cut
  have hsettled (z : Sink) (hz : t.settle.sink = z) : settled (.next t) = .next { t with sink := z } := by
    rw [settled, State.settle_eq, hz]
  refine ⟨?_, ?_, ?_⟩
  · rintro ⟨hstop, hw, hlen, hl⟩
    exact hsettled _ ((State.settle_closed hstop hw).trans (Sink.closeCommand_of_caset hlen hl))
  · rintro ⟨hstop, hw, hlen, hl⟩
    exact hsettled _ ((State.settle_closed hstop hw).trans (Sink.closeCommand_of_raset hK hlen hl))
  · intro hcolumns hrows
    rw [settled, State.settle_of_not_cut]
    rintro hstop hw (hl | hl)
    · exact Nat.le_of_not_lt fun hlen => hcolumns ⟨hstop, hw, hlen, hl⟩
    · exact Nat.le_of_not_lt fun hlen => hrows ⟨hstop, hw, hlen, hl⟩

/-! ## Command frames -/

/-- Settles O50: a wire row hands a command or data to the sink. -/
theorem wireRowsActOnTheSinkAlone : Obligations.WireRowsActOnTheSinkAlone := by
  intro i s hi
  rcases exec_wire (s := s) hi with ⟨c, hc⟩ | ⟨bs, hd⟩
  · exact ⟨_, hc⟩
  · exact ⟨_, hd⟩

/-- A sink whose last command is closed, after the command row `ic` has reached it; `m` is the block's `MODE` (R48). -/
def Sink.arrive (z : Sink) (m : Mode) (ic : Instr × Byte) : Sink :=
  { z with
    latched := some ic.2
    params := []
    format := if ic.1 = .cmdSwreset ∨ ic.1 = .cmdColmod then none else z.format
    streams := z.streams ++ (if ic.1 = .cmdRamwr then [⟨z.xs, z.xe, z.ys, z.ye, m, []⟩] else []) }

/-- A command row is known by its code, the codes being distinct (30_encoding.md R67). -/
theorem commandRows_snd_eq_iff {K : Config} (hK : K.Wf) {ic jc : Instr × Byte} (hic : ic ∈ commandRows K)
    (hjc : jc ∈ commandRows K) : ic.2 = jc.2 ↔ ic.1 = jc.1 := by
  obtain ⟨-, -, -, -, -, hcodes⟩ := hK
  have hrows : ((commandRows K).map Prod.fst).Nodup := by simp [commandRows]
  have hcodes : ((commandRows K).map Prod.snd).Nodup := hcodes
  exact ⟨fun h => congrArg Prod.fst (List.inj_on_of_nodup_map hcodes hic hjc h),
    fun h => congrArg Prod.snd (List.inj_on_of_nodup_map hrows hic hjc h)⟩

/-- Each of the thirteen command frames arrives at the sink whose command it has closed (R48). -/
theorem Sink.command_of_row {K : Config} (hK : K.Wf) {ic : Instr × Byte} (hic : ic ∈ commandRows K) (m : Mode) (z : Sink) :
    z.command K m ic.2 = (z.closeCommand K).arrive m ic := by
  have hnamed : K.codes.contains ic.2 = true := List.contains_iff_mem.mpr (List.mem_map_of_mem (f := Prod.snd) hic)
  have hreset : ic.2 = K.CMD_SWRESET ↔ ic.1 = .cmdSwreset :=
    commandRows_snd_eq_iff hK hic (jc := (.cmdSwreset, _)) (by simp [commandRows])
  have hformat : ic.2 = K.CMD_COLMOD ↔ ic.1 = .cmdColmod :=
    commandRows_snd_eq_iff hK hic (jc := (.cmdColmod, _)) (by simp [commandRows])
  have hwrite : ic.2 = K.CMD_RAMWR ↔ ic.1 = .cmdRamwr :=
    commandRows_snd_eq_iff hK hic (jc := (.cmdRamwr, _)) (by simp [commandRows])
  simp only [Sink.command, hnamed, if_true, hreset, hformat, hwrite, Sink.arrive]
  split <;> split <;> simp [Sink.forgetFormat]

/-- A command frame with a code of no row (R50 (g)). -/
theorem Sink.command_of_notMem_codes {K : Config} {c : Byte} (hc : c ∉ K.codes) (m : Mode) (z : Sink) :
    z.command K m c =
      { z with
        latched := some c, params := [], xs := none, xe := none, ys := none, ye := none, format := none, mem := [] } := by
  have hmem : K.codes.contains c = false := by simpa using hc
  have hramwr : c ≠ K.CMD_RAMWR := fun h => hc (by simp [h, Config.codes])
  simp only [Sink.command, hmem, if_neg hramwr]
  simp [Sink.forgetAll, Sink.forgetFormat, Sink.forgetMemory, Sink.forgetRows, Sink.forgetColumns]

theorem exec_cmdFrame (c : Byte) (s : State) : exec (.cmdFrame c) s = .next (s.sinkCommand c) := rfl

theorem exec_commandRow_arrive {s : State} (hK : s.K.Wf) {ic : Instr × Byte} (hic : ic ∈ commandRows s.K) :
    exec ic.1 s = .next { s with sink := (s.sink.closeCommand s.K).arrive s.mode ic } := by
  rw [(exec_commandRow hic).1, State.sinkCommand, Sink.command_of_row hK hic]

/-- Settles O51: the command closes nothing, and opens no stream. -/
theorem commandFramesLatch : Obligations.CommandFramesLatch := by
  intro s hK hcomplete latch
  have hrow : ∀ ic ∈ commandRows s.K, ic.1 ≠ .cmdRamwr →
      exec ic.1 s = latch ic.2 (if ic.1 = .cmdSwreset ∨ ic.1 = .cmdColmod then none else s.sink.format) := by
    intro ic hic hwrite
    rw [exec_commandRow_arrive hK hic, Sink.closeCommand_of_complete hcomplete]
    simp [Sink.arrive, hwrite, latch]
  simpa [commandRows] using hrow

/-- Settles O52: the command closes nothing, and opens the stream. -/
theorem memoryWriteOpensStream : Obligations.MemoryWriteOpensStream := by
  intro s hK hcomplete
  have hrow : (Instr.cmdRamwr, s.K.CMD_RAMWR) ∈ commandRows s.K := by simp [commandRows]
  rw [exec_commandRow_arrive hK hrow, Sink.closeCommand_of_complete hcomplete]
  simp [Sink.arrive]

/-- Settles O53: a code of no row leaves all open; a row arrives at the sink whose command it has closed. -/
theorem commandsThatLeaveTheSinkOpen : Obligations.CommandsThatLeaveTheSinkOpen := by
  intro s hK
  refine ⟨fun c hc => ?_, fun ic hic => ?_⟩
  · rw [exec_cmdFrame, State.sinkCommand, Sink.command_of_notMem_codes hc]
  · intro arrive
    rw [exec_commandRow_arrive hK hic]
    refine ⟨fun hlen hl => ?_, fun hlen hl => ?_, fun hl => ?_⟩
    · rw [Sink.closeCommand_of_caset hlen hl]
      rfl
    · rw [Sink.closeCommand_of_raset hK hlen hl]
      rfl
    · rw [Sink.closeCommand_of_complete (Sink.complete_of_ramwr hK hl)]
      rfl

/-! ## Data frames -/

theorem exec_dataFrame (bs : List Byte) (s : State) : exec (.dataFrame bs) s = .next { s with sink := s.sink.data s.K bs } :=
  rfl

/-- The frame of zero bytes changes nothing (R48). -/
@[simp] theorem Sink.data_nil (K : Config) (z : Sink) : z.data K [] = z := rfl

/-! What every data frame keeps. -/

section
variable (K : Config) (bs : List Byte) (z : Sink)

theorem Sink.data_latched : (z.data K bs).latched = z.latched := by
  unfold Sink.data Sink.columnData Sink.rowData Sink.pixelData Sink.formatData
  simp only []
  repeat' split
  all_goals rfl

theorem Sink.data_params : (z.data K bs).params = z.params ++ bs := by
  by_cases hbs : bs = []
  · simp [hbs]
  unfold Sink.data Sink.columnData Sink.rowData Sink.pixelData Sink.formatData
  simp only [if_neg hbs]
  repeat' split
  all_goals rfl

theorem Sink.pixelData_streams_length : (z.pixelData K bs).streams.length = z.streams.length := by
  unfold Sink.pixelData
  split
  · rfl
  · rename_i st hlast
    have hne : z.streams ≠ [] := by
      intro h
      simp [h] at hlast
    have := List.length_pos_iff.mpr hne
    simp only [List.length_append, List.length_dropLast, List.length_singleton]
    omega

theorem Sink.data_streams_length : (z.data K bs).streams.length = z.streams.length := by
  rcases Sink.data_cases K bs z with hd | ⟨hs, -⟩
  · rw [hd, Sink.pixelData_streams_length]
  · rw [hs]

end

/-! What a non-empty data frame does, by the latched command. -/

section
variable {K : Config} {bs : List Byte} {z : Sink}

theorem Sink.data_of_caset (hbs : bs ≠ []) (hl : z.latched = some K.CMD_CASET) :
    z.data K bs = { z with params := z.params ++ bs }.columnData := by
  simp [Sink.data, hbs, hl]

theorem Sink.data_of_raset (hK : K.Wf) (hbs : bs ≠ []) (hl : z.latched = some K.CMD_RASET) :
    z.data K bs = { z with params := z.params ++ bs }.rowData := by
  simp [Sink.data, hbs, hl, hK.dataCodes_distinct]

theorem Sink.data_of_ramwr (hK : K.Wf) (hbs : bs ≠ []) (hl : z.latched = some K.CMD_RAMWR) :
    z.data K bs = { z with params := z.params ++ bs }.pixelData K bs := by
  simp [Sink.data, hbs, hl, hK.dataCodes_distinct]

theorem Sink.data_of_colmod (hK : K.Wf) (hbs : bs ≠ []) (hl : z.latched = some K.CMD_COLMOD) :
    z.data K bs = { z with params := z.params ++ bs }.formatData := by
  simp [Sink.data, hbs, hl, hK.dataCodes_distinct]

theorem Sink.data_of_madctl (hK : K.Wf) (hbs : bs ≠ []) (hl : z.latched = some K.CMD_MADCTL) :
    z.data K bs = { z with params := z.params ++ bs } := by
  simp [Sink.data, hbs, hl, hK.dataCodes_distinct]

/-- With no command latched, or one that takes no data (R50 (a), (f), (g)). -/
theorem Sink.data_of_other (hbs : bs ≠ []) (hl : ∀ c, z.latched = some c →
      c ∉ [K.CMD_CASET, K.CMD_RASET, K.CMD_RAMWR, K.CMD_MADCTL, K.CMD_COLMOD]) :
    z.data K bs = { z with params := z.params ++ bs }.forgetAll := by
  cases h : z.latched with
  | none => simp [Sink.data, hbs, h]
  | some c =>
    have hc := hl c h
    simp only [List.mem_cons, List.not_mem_nil, not_or] at hc
    simp [Sink.data, hbs, h, hc]

end

/-! What the data of each command, joined to the parameters, does (R48). -/

section
variable {z : Sink}

/-- `joinBytes` by arithmetic: big-endian (R44). -/
theorem joinBytes_eq (h l : Byte) : joinBytes h l = BitVec.ofNat 16 (h.toNat * 256 + l.toNat) := by
  apply BitVec.eq_of_toNat_eq
  have := h.isLt
  have := l.isLt
  rw [joinBytes, BitVec.toNat_append, BitVec.toNat_ofNat, ← Nat.shiftLeft_add_eq_or_of_lt l.isLt, Nat.shiftLeft_eq]
  omega

theorem Sink.columnData_of_four {a b c d : Byte} (h : z.params = [a, b, c, d]) :
    z.columnData = { z with xs := some (joinBytes a b), xe := some (joinBytes c d) } := by
  rw [Sink.columnData, h]

theorem Sink.rowData_of_four {a b c d : Byte} (h : z.params = [a, b, c, d]) :
    z.rowData = { z with ys := some (joinBytes a b), ye := some (joinBytes c d) } := by
  rw [Sink.rowData, h]

theorem Sink.columnData_of_lt (h : z.params.length < 4) : z.columnData = z := by
  unfold Sink.columnData
  split
  · simp_all
  · rw [if_pos h]

theorem Sink.rowData_of_lt (h : z.params.length < 4) : z.rowData = z := by
  unfold Sink.rowData
  split
  · simp_all
  · rw [if_pos h]

theorem Sink.columnData_of_gt (h : 4 < z.params.length) : z.columnData = z.forgetColumns := by
  unfold Sink.columnData
  split
  · simp_all
  · rw [if_neg (Nat.lt_asymm h)]

theorem Sink.rowData_of_gt (h : 4 < z.params.length) : z.rowData = z.forgetRows := by
  unfold Sink.rowData
  split
  · simp_all
  · rw [if_neg (Nat.lt_asymm h)]

theorem Sink.formatData_eq (z : Sink) :
    z.formatData = { z with format := if z.params.length = 1 then z.params.head? else none } := by
  unfold Sink.formatData
  split
  · rename_i b h
    simp [h]
  · rename_i h
    have hlen : z.params.length ≠ 1 := fun h1 => (List.length_eq_one_iff.mp h1).elim h
    rw [if_neg hlen, Sink.forgetFormat]

end

/-- Settles O54: what every data frame keeps, and the equation of each command. -/
theorem dataFramesJoinParams : Obligations.DataFramesJoinParams := by
  intro s bs
  simp only [exec_dataFrame]
  refine ⟨rfl, ⟨_, rfl, Sink.data_latched .., Sink.data_params .., Sink.data_streams_length ..⟩, fun hK hbs => ?_⟩
  refine ⟨?_, fun hl => ?_⟩
  · rintro (hl | ⟨hl | hl, hlen⟩)
    · rw [Sink.data_of_madctl hK hbs hl]
    · rw [Sink.data_of_caset hbs hl, Sink.columnData_of_lt hlen]
    · rw [Sink.data_of_raset hK hbs hl, Sink.rowData_of_lt hlen]
  · rw [Sink.data_of_colmod hK hbs hl, Sink.formatData_eq]

/-- Settles O55: the four parameters are the two bounds. -/
theorem rangeDataProgramsWindow : Obligations.RangeDataProgramsWindow := by
  intro s a b c d bs hK hbs hparams
  simp only [exec_dataFrame, ← joinBytes_eq]
  refine ⟨fun hl => ?_, fun hl => ?_⟩
  · rw [Sink.data_of_caset hbs hl, Sink.columnData_of_four hparams, hparams]
  · rw [Sink.data_of_raset hK hbs hl, Sink.rowData_of_four hparams, hparams]

/-! ## Pixels -/

/-- Data for the memory-write command join the last stream and land (R48). -/
theorem Sink.data_of_stream {K : Config} {bs : List Byte} {z : Sink} {before : List Stream} {st : Stream} (hK : K.Wf)
    (hbs : bs ≠ []) (hl : z.latched = some K.CMD_RAMWR) (hs : z.streams = before ++ [st]) :
    z.data K bs = { z with
      params := z.params ++ bs
      streams := before ++ [{ st with bytes := st.bytes ++ bs }]
      mem := st.land (z.streamSize K st) bs z.mem } := by
  rw [Sink.data_of_ramwr hK hbs hl]
  simp [Sink.pixelData, Sink.streamSize, hs]

theorem Sink.streamSize_of_format {K : Config} {z : Sink} {st : Stream} (h : z.format = some (modeByte K st.mode)) :
    z.streamSize K st = pixelSize st.mode := by rw [Sink.streamSize, if_pos h]

theorem Sink.streamSize_eq_none {K : Config} {z : Sink} {st : Stream}
    (h : pixelSize st.mode = none ∨ z.format ≠ some (modeByte K st.mode)) : z.streamSize K st = none := by
  unfold Sink.streamSize
  split
  · exact h.resolve_right (not_not_intro ‹_›)
  · rfl

theorem pixelSize_pos {m : Mode} {p : Nat} (h : pixelSize m = some p) : 0 < p := by
  cases m with
  | b16 | b16t =>
    cases h
    decide
  | b12 | b18 | unset => cases h

/-- The pixels that the bytes `bs` complete in the stream `st`, landed in a window (R49). -/
def Stream.landed (st : Stream) (xs xe ys : U16) (p : Nat) (bs : List Byte) (m : Memory) : Memory :=
  landPixels xs.toNat ys.toNat (xe.toNat + 1 - xs.toNat) p (st.bytes ++ bs) (st.bytes.length / p)
    ((st.bytes ++ bs).length / p - st.bytes.length / p) m

section
variable {st : Stream} {xs xe ys ye : U16} {p : Nat} {bs : List Byte} {m : Memory}

/-- Bytes that fit a known window: the pixels they complete land, and the place of one left half sent is open (R49,
R50 (d)). -/
theorem Stream.land_of_fits (hxs : st.xs = some xs) (hxe : st.xe = some xe) (hys : st.ys = some ys) (hye : st.ye = some ye)
    (hfit : (st.bytes ++ bs).length ≤ (xe.toNat + 1 - xs.toNat) * (ye.toNat + 1 - ys.toNat) * p) :
    st.land (some p) bs m =
      if (st.bytes ++ bs).length % p = 0 then st.landed xs xe ys p bs m
      else (st.landed xs xe ys p bs m).forget (pixelPlace xs xe ys ((st.bytes ++ bs).length / p)) := by
  simp only [Stream.land, hxs, hxe, hys, hye, if_pos hfit]
  rfl

/-- Bytes past the end of a known window (R50 (c)). -/
theorem Stream.land_of_overflow (hxs : st.xs = some xs) (hxe : st.xe = some xe) (hys : st.ys = some ys)
    (hye : st.ye = some ye)
    (hover : (xe.toNat + 1 - xs.toNat) * (ye.toNat + 1 - ys.toNat) * p < (st.bytes ++ bs).length) :
    st.land (some p) bs m = [] := by
  simp only [Stream.land, hxs, hxe, hys, hye, if_neg (Nat.not_le.mpr hover)]

/-- Bytes for a window not known (R50 (b)). -/
theorem Stream.land_of_window_unknown {size : Option Nat}
    (h : st.xs = none ∨ st.xe = none ∨ st.ys = none ∨ st.ye = none) : st.land size bs m = [] := by
  unfold Stream.land
  split
  · simp_all
  · rfl

/-- Bytes cut by no known size (log entry 15). -/
@[simp] theorem Stream.land_none : st.land none bs m = [] := by simp [Stream.land]

theorem Stream.landed_wf (hm : m.wf) : (st.landed xs xe ys p bs m).wf := landPixels_wf _ _ _ _ _ _ _ hm

/-- A pixel that the bytes complete reads, at its place, as its bytes of the stream (R49). -/
theorem Stream.landed_read_same {ht j : Nat} (hm : m.wf) (hp : 0 < p)
    (hfit : (st.bytes ++ bs).length ≤ (xe.toNat + 1 - xs.toNat) * ht * p) (h1 : st.bytes.length / p ≤ j)
    (h2 : j < (st.bytes ++ bs).length / p) :
    (st.landed xs xe ys p bs m).read (pixelPlace xs xe ys j) = some (((st.bytes ++ bs).drop (j * p)).take p) := by
  have hend : st.bytes.length / p + ((st.bytes ++ bs).length / p - st.bytes.length / p) = (st.bytes ++ bs).length / p := by
    omega
  refine landPixels_read_same hm hp (ht := ht) ?_ ?_ h1 (by rwa [hend])
  · rw [hend]
    exact Nat.div_le_of_le_mul (by rwa [Nat.mul_comm])
  · rw [hend]
    exact Nat.div_mul_le_self _ _

/-- Every address but the places of the pixels that the bytes complete reads as before. -/
theorem Stream.landed_read_other {a : Nat} (hm : m.wf)
    (h : ∀ j, st.bytes.length / p ≤ j → j < (st.bytes ++ bs).length / p → a ≠ pixelPlace xs xe ys j) :
    (st.landed xs xe ys p bs m).read a = m.read a :=
  landPixels_read_other hm fun j h1 h2 => h j h1 (by omega)

/-- As `Stream.landed_read_same`, beside the pixel left half sent. -/
theorem Stream.land_read_same {j : Nat} (hm : m.wf) (hp : 0 < p) (hbs : bs ≠ []) (hxs : st.xs = some xs)
    (hxe : st.xe = some xe) (hys : st.ys = some ys) (hye : st.ye = some ye)
    (hfit : (st.bytes ++ bs).length ≤ (xe.toNat + 1 - xs.toNat) * (ye.toNat + 1 - ys.toNat) * p)
    (h1 : st.bytes.length / p ≤ j) (h2 : j < (st.bytes ++ bs).length / p) :
    (st.land (some p) bs m).read (pixelPlace xs xe ys j) = some (((st.bytes ++ bs).drop (j * p)).take p) := by
  rw [Stream.land_of_fits hxs hxe hys hye hfit, ← Stream.landed_read_same hm hp hfit h1 h2]
  split
  · rfl
  · have hwidth : 0 < xe.toNat + 1 - xs.toNat := by
      by_contra hzero
      have hempty : st.bytes ++ bs = [] := by simpa [Nat.eq_zero_of_not_pos hzero] using hfit
      exact hbs (List.append_eq_nil_iff.mp hempty).2
    exact Memory.read_forget_other (Stream.landed_wf hm) fun hplace => Nat.ne_of_lt h2 (pixelPlace_inj hwidth hplace)

/-- As `Stream.landed_read_other`, beside the pixel left half sent. -/
theorem Stream.land_read_other {a : Nat} (hm : m.wf) (hp : 0 < p) (hxs : st.xs = some xs) (hxe : st.xe = some xe)
    (hys : st.ys = some ys) (hye : st.ye = some ye)
    (hfit : (st.bytes ++ bs).length ≤ (xe.toNat + 1 - xs.toNat) * (ye.toNat + 1 - ys.toNat) * p)
    (h : ∀ j, st.bytes.length / p ≤ j → j * p < (st.bytes ++ bs).length → a ≠ pixelPlace xs xe ys j) :
    (st.land (some p) bs m).read a = m.read a := by
  have hlanded : (st.landed xs xe ys p bs m).read a = m.read a :=
    Stream.landed_read_other hm fun j h1 h2 => h j h1 ((Nat.lt_div_iff_mul_lt hp).mp h2 |>.trans_le (Nat.sub_le _ _))
  rw [Stream.land_of_fits hxs hxe hys hye hfit]
  split
  · exact hlanded
  · rename_i hmod
    rw [Memory.read_forget_other (Stream.landed_wf hm), hlanded]
    refine h _ (Nat.div_le_div_right (by simp)) ?_
    have := Nat.div_add_mod' (st.bytes ++ bs).length p
    omega

end

/-- Settles O56: the memory is that of `Stream.land`. -/
theorem pixelLands : Obligations.PixelLands := by
  intro s before st xs xe ys ye p bs hK hm hl hs hxs hxe hys hye hsize hformat hbs all hfit
  have hp := pixelSize_pos hsize
  refine ⟨st.land (some p) bs s.sink.mem, ?_, fun j => ?_, fun a => ?_⟩
  · rw [exec_dataFrame, Sink.data_of_stream hK hbs hl hs, Sink.streamSize_of_format hformat, hsize]
  · exact Stream.land_read_same hm hp hbs hxs hxe hys hye hfit
  · exact Stream.land_read_other hm hp hxs hxe hys hye hfit

/-- Settles O57: the equation of each command on data that the spec leaves open, and `Stream.land` for a stream. -/
theorem unspecifiedDataForgets : Obligations.UnspecifiedDataForgets := by
  intro s bs hK hbs
  simp only [exec_dataFrame]
  refine ⟨fun hl => ?_, fun hlen hl => ?_, fun hlen hl => ?_, fun before st hl hs => ?_⟩
  · rw [Sink.data_of_other hbs hl]
    rfl
  · rw [Sink.data_of_caset hbs hl, Sink.columnData_of_gt hlen]
    rfl
  · rw [Sink.data_of_raset hK hbs hl, Sink.rowData_of_gt hlen]
    rfl
  rw [Sink.data_of_stream hK hbs hl hs]
  refine ⟨fun hopen => ?_, fun xs xe ys ye p hm hxs hxe hys hye hsize hformat _ hmod => ⟨_, rfl, ?_⟩⟩
  · have hland : st.land (s.sink.streamSize s.K st) bs s.sink.mem = [] := by
      rcases hopen with h | h | h | h | h | h | ⟨xs, xe, ys, ye, p, hxs, hxe, hys, hye, hsize, hover⟩
      · exact Stream.land_of_window_unknown (by simp [h])
      · exact Stream.land_of_window_unknown (by simp [h])
      · exact Stream.land_of_window_unknown (by simp [h])
      · exact Stream.land_of_window_unknown (by simp [h])
      · rw [Sink.streamSize_eq_none (.inl h), Stream.land_none]
      · rw [Sink.streamSize_eq_none (.inr h), Stream.land_none]
      · rcases Sink.streamSize_cases s.K s.sink st with h | h
        · rw [h, hsize]
          exact Stream.land_of_overflow hxs hxe hys hye hover
        · rw [h, Stream.land_none]
    rw [hland]
  · rw [Sink.streamSize_of_format hformat, hsize]
    exact Stream.land_read_halfSent hm (.inl rfl) hxs hxe hys hmod

/-! ## A transfer that never completes -/

/-- An operation whose transfer hangs stays busy and answers nothing (R42). -/
theorem operate_of_hung {s : State} {acts done : List Act} {link : Option LinkFailure} (v : Option Mode)
    (h : progress s.link acts = ⟨done, .hung, link⟩) :
    s.operate acts v = { s with
      mode := (done.foldl Act.apply s).mode
      op := (done.foldl Act.apply s).op
      pins := (scriptEvents done).foldl Pins.drive s.pins
      trace := s.trace ++ scriptEvents done
      wire := s.wire ++ scriptEvents done
      busy := true
      link := link } := by
  simp only [State.operate, h, State.finish, State.carryOut]
  rw [foldl_apply_busy_comm, foldl_apply_eq]
  rfl

/-- The events of a frame begun and not closed. -/
theorem scriptEvents_begun (kind : Bit) (bs : List Byte) :
    scriptEvents [.emit (.cs false), .emit (.dc kind), .xfer bs] = [.cs false, .dc kind] ++ bs.map .tx := by
  simp [scriptEvents, Act.events]

theorem frameCount_begun (kind : Bit) (bs : List Byte) :
    frameCount ([Event.cs false, .dc kind] ++ bs.map Event.tx) = 1 := by
  simp only [frameCount, List.countP_append, List.countP_map]
  simp [List.countP_eq_zero]

/-- A frame cut short is a beginning of the frame. -/
theorem begun_prefix_frameEvents (kind : Bit) (bs : List Byte) (k : Nat) :
    [Event.cs false, .dc kind] ++ (bs.take k).map Event.tx <+: frameEvents kind bs := by
  refine ⟨(bs.drop k).map .tx ++ [.cs true], ?_⟩
  rw [frameEvents, List.append_assoc, ← List.append_assoc (List.map _ _), ← List.map_append, List.take_append_drop,
    List.append_assoc]

theorem foldl_drive_begun (p : Pins) (kind : Bit) (bs : List Byte) :
    ([Event.cs false, .dc kind] ++ bs.map Event.tx).foldl Pins.drive p = { p with cs := false, dc := kind } := by
  rw [List.foldl_append, Pins.foldl_drive_tx]
  rfl

/-- A framed script with more than `f.after` transfers, whose next one hangs, stops inside that transfer's frame. -/
theorem Framed.progress_hung {acts : List Act} (h : Framed acts) {f : LinkFailure} (hhangs : f.hangs = true)
    (hn : f.after < transfers acts) :
    ∃ done, progress (some f) acts = ⟨done, .hung, none⟩ ∧ scriptEvents done <+: scriptEvents acts ∧
      frameCount (scriptEvents done) = f.after + 1 ∧ ∀ p : Pins, ((scriptEvents done).foldl Pins.drive p).cs = false := by
  obtain ⟨before, kind, bs, rest, rfl, hbefore, htransfers, hcut⟩ := h.cut f hn
  refine ⟨_, by rw [progress, hcut, if_pos hhangs], ?_, ?_, fun p => ?_⟩
  · have hframe : scriptEvents (.emit (.cs false) :: .emit (.dc kind) :: .xfer bs :: .emit (.cs true) :: rest) =
        frameEvents kind bs ++ scriptEvents rest := by simp [scriptEvents, Act.events, frameEvents]
    rw [scriptEvents_append, scriptEvents_append, List.prefix_append_right_inj, scriptEvents_begun, hframe]
    exact (begun_prefix_frameEvents kind bs f.sent).trans (List.prefix_append _ _)
  · rw [scriptEvents_append, frameCount_append, hbefore.frameCount_eq, htransfers, scriptEvents_begun, frameCount_begun]
  · rw [scriptEvents_append, List.foldl_append, scriptEvents_begun, foldl_drive_begun]

/-- A request with a transfer sets no style. -/
theorem hostStyle_of_transfers {s : State} {i : Instr} (h : 0 < transfers (hostScript s i)) (st : Style) :
    hostStyle st i = st := by
  cases i with
  | setForeground _ | setBackground _ | setPixelScale _ _ => exact absurd h (Nat.lt_irrefl 0)
  | _ => rfl

/-- The events of a request that the link carries are those of its script. -/
theorem exec_host_trace_of_linkNeverFails {i : Instr} {s t : State} (hi : i.isHost = true) (hl : s.LinkNeverFails)
    (h : exec i s = .next t) : t.trace = s.trace ++ scriptEvents (hostScript s i) := by
  obtain ⟨-, -, rfl⟩ := exec_host_next hi h
  obtain ⟨-, -, -, -, htrace, -⟩ :=
    operate_fields { s with style := hostStyle s.style i } (hostScript s i) (hostValue s i)
  rw [htrace, hl]
  rfl

/-- Whether a request is refused does not depend on the link. -/
theorem hostRefusal_link (s : State) (i : Instr) (l : Option LinkFailure) :
    hostRefusal { s with link := l } i = hostRefusal s i := rfl

/-- A step of a busy block gives the sink alone something to do (R42, R23). -/
theorem step_of_busy {s t : State} (hb : s.busy = true) (h : step s = .next t) :
    t.busy = true ∧ t.trace = s.trace ∧ t.responses = s.responses := by
  have hrun {i : Instr} {s' u : State} (hb' : s'.busy = true) (hu : exec i s' = .next u) :
      u.settle.busy = true ∧ u.settle.trace = s'.trace ∧ u.settle.responses = s'.responses := by
    rw [State.settle_busy, State.settle_trace, State.settle_responses]
    cases hi : i.isHost with
    | true =>
      obtain ⟨hfree, -⟩ := (exec_host_next hi hu).1
      simp [hb'] at hfree
    | false =>
      rw [exec_wire_next hi hu]
      exact ⟨hb', rfl, rfl⟩
  rcases step_cases h with ⟨bracket, rest, i, u, -, -, hu, rfl⟩ | ⟨r, rest, i, u, -, -, -, hu, rfl⟩ | ⟨-, -, -, rfl⟩
  · exact hrun (s' := s.takeFrame rest) hb hu
  · exact hrun (s' := { s with requests := rest }) hb hu
  · exact ⟨hb, rfl, rfl⟩

/-- Settles O45: the script is cut inside the frame of the transfer that hangs; and a step of a busy block is the sink's. -/
theorem hungTransferStaysBusy : Obligations.HungTransferStaysBusy := by
  refine ⟨?_, ?_, fun t u => step_of_busy⟩
  · intro i s u evs f hi hready hlink hhangs hu htrace hafter
    obtain rfl : evs = scriptEvents (hostScript s i) :=
      List.append_cancel_left (htrace.symm.trans
        (exec_host_trace_of_linkNeverFails (s := { s with link := none }) hi rfl hu))
    obtain ⟨-, hrefusal, -⟩ := exec_host_next hi hu
    rw [hostRefusal_link] at hrefusal
    have hframed := framed_hostScript s i
    rw [hframed.frameCount_eq] at hafter
    obtain ⟨done, hprogress, hprefix, hframes, hcs⟩ := hframed.progress_hung hhangs hafter
    have hstyle := hostStyle_of_transfers (Nat.zero_lt_of_lt hafter) s.style
    have hexec : exec i s = .next (s.operate (hostScript s i) (hostValue s i)) := by
      rw [exec_host hi hready, hrefusal, hstyle]
    rw [operate_of_hung _ (hlink ▸ hprogress)] at hexec
    exact ⟨_, scriptEvents done, hexec, rfl, hready.2, rfl, rfl, hcs _, hprefix, hframes, rfl, rfl, rfl, rfl, rfl, rfl⟩
  · intro s bytes k hready hlink
    have hprogress : progress s.link (sendData bytes) =
        ⟨[.emit (.cs false), .emit (.dc true), .xfer (bytes.take k)], .hung, none⟩ := by rw [hlink]; rfl
    have hexec : exec (.sendData bytes) s = .next (s.operate (sendData bytes) none) := exec_host rfl hready
    rw [hexec, operate_of_hung none hprogress, scriptEvents_begun, foldl_drive_begun]
    rfl

end Sys2Proof.Machine

/-! SUPPORT. The decoders and the encoder, 30_encoding.md: the operand fields and back (R68, R70), what the request decoder
refuses (R69, R72), the command row that a code names (R67); and who refuses a request after that (R68, R169). -/

namespace Sys2Proof.Machine

/-! ## Operand fields -/

theorem extractLsb'_setWidth_self {v w : Nat} (h : w ≤ v) (x : BitVec w) : (x.setWidth v).extractLsb' 0 w = x := by
  rw [BitVec.extractLsb'_setWidth_of_le (by omega), BitVec.extractLsb'_eq_self]

theorem decodeMode_encodeMode (m : Mode) : decodeMode (encodeMode m) = .ok m := by cases m <;> rfl

theorem decodeRot_encodeRot (r : Rot) : decodeRot (encodeRot r) = r := by cases r <;> rfl

theorem getLsbD_encodeBit (on : Bit) : (encodeBit on).getLsbD 0 = on := by cases on <;> rfl

theorem decodeRequest_setBpp (a : U16) :
    decodeRequest { op := 0x10, a := a } = (decodeMode (a.extractLsb' 0 3)).map Instr.setBpp := rfl

/-- The mode fields that name no mode are 5 to 7 (R70). -/
theorem decodeMode_eq_error_iff (field : BitVec 3) (e : DecodeError) :
    decodeMode field = .error e ↔ e = .reservedMode field ∧ 5 ≤ field.toNat := by
  unfold decodeMode
  split
  case h_6 h0 h1 h2 h3 h4 =>
    have hfield : 5 ≤ field.toNat := by rw [imp_false] at h0 h1 h2 h3 h4; omega
    simp [hfield, eq_comm (a := e)]
  all_goals
    rename_i hfield
    simp [hfield]

/-! ## What the request decoder refuses -/

/-- The selectors of the table of R69. -/
def selectors : List Nat :=
  [0x01, 0x02, 0x10, 0x11, 0x20, 0x21, 0x22, 0x30, 0x31, 0x40, 0x41, 0x42, 0x43, 0x44, 0x45, 0x46, 0x47, 0x48, 0x50, 0x51,
    0x52, 0x53]

/-- Everything the request decoder refuses: a selector outside the table (R72 (a)), a payload of `sendData` that is no byte
sequence (R68), a reserved mode field of `setBpp` (R72 (b)). -/
theorem decodeRequest_eq_error_iff (r : Request) (e : DecodeError) :
    decodeRequest r = .error e ↔
      (e = .reservedSelector r.op ∧ r.op.toNat ∉ selectors) ∨
      (e = .payloadNotBytes ∧ r.op.toNat = 0x02 ∧ ¬r.payload.all (· < 256) = true) ∨
      (e = .reservedMode (r.a.extractLsb' 0 3) ∧ r.op.toNat = 0x10 ∧ 5 ≤ (r.a.extractLsb' 0 3).toNat) := by
  unfold decodeRequest
  split
  case h_2 hop => split <;> simp_all [selectors, eq_comm (a := e)]
  case h_3 hop =>
    have hmap : (decodeMode (r.a.extractLsb' 0 3)).map Instr.setBpp = .error e ↔
        decodeMode (r.a.extractLsb' 0 3) = .error e := by
      cases decodeMode (r.a.extractLsb' 0 3) <;> simp [Except.map]
    rw [hmap, decodeMode_eq_error_iff]
    simp [hop, selectors]
  case h_23 =>
    have hop : r.op.toNat ∉ selectors := by simp_all [selectors]
    have hdata : r.op.toNat ≠ 0x02 := fun h => hop (by simp [h, selectors])
    have hmode : r.op.toNat ≠ 0x10 := fun h => hop (by simp [h, selectors])
    simp [hop, hdata, hmode, eq_comm (a := e)]
  all_goals
    rename_i hop
    simp [hop, selectors]

theorem step_of_badRequest {s : State} {r : Request} {rest : List Request} {e : DecodeError} (hw : nextFrame s.wire = none)
    (hq : s.requests = r :: rest) (hr : decodeRequest r = .error e) : step s = .refused (.badRequest e) := by
  simp [step, fetch, fetchRequest, hw, hq, hr]

/-- Settles O3: each reserved form is one disjunct of the decoder's errors, and the step hands on the decoder's answer. -/
theorem reservedRequestsRefused : Obligations.ReservedRequestsRefused := by
  intro r
  refine ⟨?_, fun m => ?_, fun s rest e => step_of_badRequest⟩
  · simp [decodeRequest_eq_error_iff, selectors]
  · have hop : r.op = 0x10 ↔ r.op.toNat = 0x10 := BitVec.toNat_inj.symm
    rw [decodeRequest_eq_error_iff, hop]
    constructor
    · rintro (⟨h, -⟩ | ⟨h, -⟩ | ⟨h, hselector, hfield⟩)
      · cases h
      · cases h
      · cases h
        exact ⟨hselector, rfl, hfield⟩
    · rintro ⟨hselector, rfl, hfield⟩
      exact .inr (.inr ⟨rfl, hselector, hfield⟩)

/-! ## The frames -/

theorem decode_cmdFrameEvents (K : Config) (c : Byte) : decode K (.frame (cmdFrameEvents c)) = .ok (decodeCommand K c) := by
  have hframe := nextFrame_cmd c []
  rw [List.append_nil] at hframe
  simp only [decode, hframe, decodeBracket_cmd]

theorem decode_dataFrameEvents (K : Config) (bs : List Byte) :
    decode K (.frame (dataFrameEvents bs)) = .ok (.dataFrame bs) := by
  have hframe := nextFrame_data bs []
  rw [List.append_nil] at hframe
  simp only [decode, hframe, decodeBracket_data]

/-- A search through the rows by the code, one row at a time. -/
theorem find?_code_cons (c : Byte) (ic : Instr × Byte) (rows : List (Instr × Byte)) :
    ((ic :: rows).find? fun jc => c = jc.2).map Prod.fst =
      if c = ic.2 then some ic.1 else (rows.find? fun jc => c = jc.2).map Prod.fst := by
  by_cases h : c = ic.2 <;> simp [h]

/-- A code names the first of the thirteen rows that has it (R67). -/
theorem namedCommand_eq_find? (K : Config) (c : Byte) :
    namedCommand K c = ((commandRows K).find? fun ic => c = ic.2).map Prod.fst := by
  simp only [namedCommand, commandRows, find?_code_cons, List.find?_nil, Option.map_none]

/-- A code of no row decodes to the frame row that carries it. -/
theorem decodeCommand_of_notMem_codes {K : Config} {c : Byte} (hc : c ∉ K.codes) : decodeCommand K c = .cmdFrame c := by
  have hnone : (commandRows K).find? (fun ic => c = ic.2) = none := by
    rw [List.find?_eq_none]
    intro ic hic h
    rw [of_decide_eq_true h] at hc
    exact hc (List.mem_map_of_mem (f := Prod.snd) hic)
  rw [decodeCommand, namedCommand_eq_find?, hnone]
  rfl

/-- The codes being distinct, the code of a row decodes to that row and no other (R67). -/
theorem decodeCommand_of_row {K : Config} (hK : K.Wf) {ic : Instr × Byte} (hic : ic ∈ commandRows K) :
    decodeCommand K ic.2 = ic.1 := by
  obtain ⟨jc, hjc⟩ : ∃ jc, (commandRows K).find? (fun jc => ic.2 = jc.2) = some jc :=
    Option.isSome_iff_exists.mp (List.find?_isSome.mpr ⟨ic, hic, decide_eq_true rfl⟩)
  have hcode : ic.2 = jc.2 := of_decide_eq_true (List.find?_some (p := fun jc : Instr × Byte => ic.2 = jc.2) hjc)
  have hrow : ic.1 = jc.1 := (commandRows_snd_eq_iff hK hic (List.mem_of_find?_eq_some hjc)).mp hcode
  rw [decodeCommand, namedCommand_eq_find?, hjc, hrow]
  rfl

/-! ## Decoding the encoding -/

/-- The rows of the wire are the thirteen command rows and the two frame rows. -/
theorem wire_cases (K : Config) {i : Instr} (hi : i.isHost = false) :
    (∃ c, (i, c) ∈ commandRows K) ∨ (∃ c, i = .cmdFrame c) ∨ ∃ bs, i = .dataFrame bs := by
  cases i
  case cmdFrame c => exact .inr (.inl ⟨c, rfl⟩)
  case dataFrame bs => exact .inr (.inr ⟨bs, rfl⟩)
  all_goals simp_all [Instr.isHost, commandRows]

theorem encode_of_row {K : Config} {ic : Instr × Byte} (hic : ic ∈ commandRows K) :
    encode K ic.1 = .frame (cmdFrameEvents ic.2) := by
  simp only [commandRows, List.mem_cons, List.not_mem_nil, or_false] at hic
  rcases hic with rfl | rfl | rfl | rfl | rfl | rfl | rfl | rfl | rfl | rfl | rfl | rfl | rfl <;> rfl

/-- A request is read back field by field; a field that carries its operand whole is the operand. -/
theorem decode_encode_host (K : Config) {i : Instr} (hi : i.isHost = true) : decode K (encode K i) = .ok i := by
  cases i with
  | sendCommand code =>
    have hfield := extractLsb'_setWidth_self (v := 16) (by decide) code
    exact congrArg Except.ok (congrArg Instr.sendCommand hfield)
  | sendData bytes =>
    have hall : (bytes.map BitVec.toNat).all (· < 256) = true := by simpa using fun b _ => b.isLt
    have hback : (bytes.map BitVec.toNat).map (BitVec.ofNat 8) = bytes := by simp [Function.comp_def]
    exact (if_pos hall).trans (congrArg Except.ok (congrArg Instr.sendData hback))
  | setBpp mode =>
    rw [encode, decode, decodeRequest_setBpp, extractLsb'_setWidth_self (by decide), decodeMode_encodeMode]
    rfl
  | setSleepMode on => exact congrArg Except.ok (congrArg Instr.setSleepMode (getLsbD_encodeBit on))
  | setInversionMode on => exact congrArg Except.ok (congrArg Instr.setInversionMode (getLsbD_encodeBit on))
  | setDisplay on => exact congrArg Except.ok (congrArg Instr.setDisplay (getLsbD_encodeBit on))
  | setBacklight on => exact congrArg Except.ok (congrArg Instr.setBacklight (getLsbD_encodeBit on))
  | setRotation rot =>
    have hfield : decodeRot (((encodeRot rot).setWidth 16).extractLsb' 0 2) = rot := by
      rw [extractLsb'_setWidth_self (by decide), decodeRot_encodeRot]
    exact congrArg Except.ok (congrArg Instr.setRotation hfield)
  | setBackground bg =>
    cases bg with
    | none => rfl
    | some color => exact congrArg Except.ok (congrArg Instr.setBackground (if_pos (getLsbD_encodeBit true)))
  | getBpp | setColumns | setRows | setWindow | drawSolidRect | fill | hardReset | softReset | setNormalMode | bringUp
  | drawText | setForeground | setPixelScale => rfl
  | _ => cases hi

/-- Settles O1: a request by its fields, a command row by its code, a frame row by its bytes. -/
theorem decodeEncodeAgree : Obligations.DecodeEncodeAgree := by
  intro K i hK hwf
  cases hi : i.isHost with
  | true => exact decode_encode_host K hi
  | false =>
    rcases wire_cases K hi with ⟨c, hrow⟩ | ⟨c, rfl⟩ | ⟨bs, rfl⟩
    · rw [encode_of_row hrow, decode_cmdFrameEvents, decodeCommand_of_row hK hrow]
    · have hc : c ∉ K.codes := by simpa [Instr.wf] using hwf
      rw [encode, decode_cmdFrameEvents, decodeCommand_of_notMem_codes hc]
    · exact decode_dataFrameEvents K bs

/-- Settles O2: a record decodes by evaluation, bits its placement leaves out included; the frames are the encodings of their
rows. -/
theorem specPacketsDecode : Obligations.SpecPacketsDecode :=
  have hagree := decodeEncodeAgree Config.K
  ⟨rfl, rfl, rfl, rfl, rfl, rfl, rfl, rfl, rfl, rfl, hagree .cmdRaset Config.K_wf rfl,
    hagree (.cmdFrame 0xB2) Config.K_wf rfl, hagree (.dataFrame [0xDE, 0xAD]) Config.K_wf rfl⟩

/-! ## A request that finds the block stopped -/

/-- Settles O42: a block that is not ready refuses, and `BUSY` is named before `FAULT`. -/
theorem noRequestAcceptedWhenStopped : Obligations.NoRequestAcceptedWhenStopped := by
  intro i s hi
  constructor
  · intro hb
    rw [exec_host_not_ready hi (by simp [State.Ready, hb]), hb]
    rfl
  · intro hb hf
    rw [exec_host_not_ready hi (by simp [State.Ready, hf]), hb]
    rfl

end Sys2Proof.Machine

/-! SUPPORT. The Command/Data Link, 40_link.md: what its two primitives leave (R90, R91), and that chip-select alternates on
the trace of every request (R92). A script that the link cuts short has put a beginning of its events on the trace, and a
beginning of alternating events alternates; so a script carried out whole is all there is to look at. -/

namespace Sys2Proof.Machine

/-! ## The two primitives -/

/-- Settles O10: the script is one command frame, and stores nothing. -/
theorem sendCommandFrame : Obligations.SendCommandFrame := by
  intro s code hready hlink
  exact operation_of_carries (acts := sendCommand code) hready hlink

/-- Settles O11: the script is one data frame, and stores nothing. -/
theorem sendDataFrame : Obligations.SendDataFrame := by
  intro s bytes hready hlink
  have hdone : exec (.sendData bytes) s = _ := operation_of_carries (acts := sendData bytes) hready hlink
  rwa [foldl_sendData, scriptEvents_sendData, dataFrameEvents, foldl_drive_frame] at hdone

/-! ## Chip-select on the trace -/

@[simp] theorem csAlternates_tx_append (level : Bit) (bs : List Byte) (rest : List Event) :
    csAlternates level (bs.map .tx ++ rest) = csAlternates level rest := by
  induction bs with
  | nil => rfl
  | cons b bs ih => exact ih

/-- A beginning of alternating events alternates. -/
theorem csAlternates_of_append {level : Bit} {as bs : List Event} (h : csAlternates level (as ++ bs) = true) :
    csAlternates level as = true := by
  induction as generalizing level with
  | nil => rfl
  | cons e as ih =>
    cases e with
    | cs l =>
      obtain ⟨hl, hrest⟩ := Bool.and_eq_true_iff.mp h
      exact Bool.and_eq_true_iff.mpr ⟨hl, ih hrest⟩
    | dc _ | rst _ | bl _ | tx _ | delay _ => exact ih (level := level) h

/-- What is carried out of a script puts a beginning of the script's events on the trace, whatever the environment does
(60_exceptions.md R167). -/
theorem progress_events_prefix (link : Option LinkFailure) (acts : List Act) :
    scriptEvents (progress link acts).done <+: scriptEvents acts := by
  rcases progress_cases link acts with ⟨l, hp⟩ | ⟨f, pre, bs, post, -, rfl, hp⟩
  · rw [hp]
  · have hbytes : (bs.take f.sent).map Event.tx <+: scriptEvents (.xfer bs :: post) :=
      ((List.take_prefix f.sent bs).map _).trans (List.prefix_append _ _)
    have hcut : scriptEvents [.xfer (bs.take f.sent)] = (bs.take f.sent).map Event.tx := List.append_nil _
    rw [hp, scriptEvents_append, scriptEvents_append, hcut]
    exact (List.prefix_append_right_inj _).mpr hbytes

/-- A script whose chip-select events are whole brackets `CS(0)`, `CS(1)`: from a deasserted chip-select they alternate, and
leave it deasserted for what follows. -/
def Bracketed (acts : List Act) : Prop :=
  ∀ rest, csAlternates true (scriptEvents acts ++ rest) = csAlternates true rest

theorem Bracketed.alternates {acts : List Act} (h : Bracketed acts) : csAlternates true (scriptEvents acts) = true := by
  rw [← List.append_nil (scriptEvents acts), h]
  rfl

theorem Bracketed.nil : Bracketed [] := fun _ => rfl

theorem Bracketed.append {as bs : List Act} (ha : Bracketed as) (hb : Bracketed bs) : Bracketed (as ++ bs) := by
  intro rest
  rw [scriptEvents_append, List.append_assoc, ha, hb]

/-- An action that does not write chip-select is bracketed by itself, by computation. -/
theorem Bracketed.cons {a : Act} {acts : List Act} (ha : Bracketed [a]) (h : Bracketed acts) : Bracketed (a :: acts) :=
  ha.append h

theorem Bracketed.flatMap {α : Type} {l : List α} {f : α → List Act} (h : ∀ a, Bracketed (f a)) :
    Bracketed (l.flatMap f) := by
  induction l with
  | nil => exact .nil
  | cons a l ih => exact (h a).append ih

/-! The scripts of the operations. -/

theorem bracketed_sendCommand (c : Byte) : Bracketed (sendCommand c) := fun _ => rfl

theorem bracketed_sendData (bs : List Byte) : Bracketed (sendData bs) := by
  intro rest
  rw [scriptEvents_sendData, dataFrameEvents, frameEvents, List.append_assoc, List.append_assoc]
  exact csAlternates_tx_append false bs _

theorem bracketed_command_data (c : Byte) (bs : List Byte) : Bracketed (sendCommand c ++ sendData bs) :=
  (bracketed_sendCommand c).append (bracketed_sendData bs)

theorem bracketed_setBpp (K : Config) (m : Mode) : Bracketed (setBpp K m) :=
  .cons (fun _ => rfl) (bracketed_command_data _ _)

theorem bracketed_setColumns (K : Config) (a b : U16) : Bracketed (setColumns K a b) := by
  unfold setColumns
  split
  · exact bracketed_command_data _ _
  · exact .nil

theorem bracketed_setRows (K : Config) (a b : U16) : Bracketed (setRows K a b) := by
  unfold setRows
  split
  · exact bracketed_command_data _ _
  · exact .nil

theorem bracketed_setWindow (K : Config) (x0 y0 x1 y1 : U16) : Bracketed (setWindow K x0 y0 x1 y1) :=
  ((bracketed_setColumns K x0 x1).append (bracketed_setRows K y0 y1)).append (bracketed_sendCommand _)

theorem bracketed_pixelLoop (K : Config) (buf : List Byte) (n : Nat) : Bracketed (pixelLoop K buf n) := by
  have hframe : Bracketed (pixelFrame K buf) := by
    unfold pixelFrame
    split
    · exact .nil
    · exact bracketed_sendData buf
  exact .cons (fun _ => rfl) (.flatMap fun k => hframe.append fun _ => rfl)

theorem bracketed_drawSolidRect (K : Config) (m : Mode) (r : Rect) (c : U32) : Bracketed (drawSolidRect K m r c) := by
  unfold drawSolidRect
  split
  · exact .nil
  · have hloads : Bracketed [.setRect r, .setColor c, .setRect (clamp K r)] := fun _ => rfl
    have hpixbuf : Bracketed [.setPixbuf (pack m c)] := fun _ => rfl
    exact ((hloads.append (bracketed_setWindow _ _ _ _ _)).append hpixbuf).append (bracketed_pixelLoop _ _ _)

/-- The reset pulse stands in a bracket of its own (44_lifecycle.md R135). -/
theorem bracketed_hardReset : Bracketed hardReset := fun _ => rfl

theorem bracketed_softReset (K : Config) : Bracketed (softReset K) := fun _ => rfl

theorem bracketed_setBacklight (on : Bit) : Bracketed (setBacklight on) := fun _ => rfl

theorem bracketed_bringUp (K : Config) : Bracketed (bringUp K) :=
  ((((((((bracketed_hardReset.append (bracketed_softReset K)).append (bracketed_sendCommand _)).append
    (bracketed_setBpp K _)).append (bracketed_command_data _ _)).append (bracketed_sendCommand _)).append
    (bracketed_sendCommand _)).append (bracketed_drawSolidRect K _ _ _)).append (bracketed_setBacklight true)).append
    (bracketed_sendCommand _)

theorem bracketed_hostScript (s : State) (i : Instr) : Bracketed (hostScript s i) := by
  cases i with
  | sendCommand c => exact bracketed_sendCommand c
  | sendData bs => exact bracketed_sendData bs
  | setBpp m => exact bracketed_setBpp _ m
  | setColumns a b => exact bracketed_setColumns _ a b
  | setRows a b => exact bracketed_setRows _ a b
  | setWindow x0 y0 x1 y1 => exact bracketed_setWindow _ x0 y0 x1 y1
  | drawSolidRect x y w h c => exact bracketed_drawSolidRect _ _ _ c
  | fill c => exact bracketed_drawSolidRect _ _ _ c
  | hardReset => exact bracketed_hardReset
  | softReset => exact bracketed_softReset _
  | setSleepMode _ | setInversionMode _ | setDisplay _ | setNormalMode => exact bracketed_sendCommand _
  | setBacklight on => exact bracketed_setBacklight on
  | setRotation r => exact bracketed_command_data _ _
  | bringUp => exact bracketed_bringUp _
  | drawText x y text => exact .flatMap fun c => bracketed_drawSolidRect _ _ _ _
  | _ => exact .nil

/-- Settles O48: the events are a beginning of those of the request's script, which is bracketed. -/
theorem chipSelectAlternates : Obligations.ChipSelectAlternates := by
  intro i s t hi _ h
  obtain ⟨-, -, rfl⟩ := exec_host_next hi h
  obtain ⟨-, -, -, -, htrace, -⟩ :=
    operate_fields { s with style := hostStyle s.style i } (hostScript s i) (hostValue s i)
  refine ⟨_, htrace, ?_⟩
  obtain ⟨left, hleft⟩ := progress_events_prefix s.link (hostScript s i)
  have hwhole := (bracketed_hostScript s i).alternates
  rw [← hleft] at hwhole
  exact csAlternates_of_append hwhole

end Sys2Proof.Machine

/-! SUPPORT. The Color Mode Engine, 41_color_mode.md: the packed pixel and its bytes (R103, R104), the mode byte (R102), and
what `setBpp` and `getBpp` leave (R100, R101), a fault inside `setBpp` included (60_exceptions.md R167). -/

namespace Sys2Proof.Machine

/-! ## The packer -/

/-- A field of a word, by division and remainder. -/
theorem extractLsb'_eq_ofNat_div {w : Nat} (x : BitVec w) (start len : Nat) :
    x.extractLsb' start len = BitVec.ofNat len (x.toNat / 2 ^ start) := by
  rw [← Nat.shiftRight_eq_div_pow]
  rfl

/-- A field of a word depends on no bit above it. -/
theorem extractLsb'_eq_of_toNat_mod_eq {w start len k : Nat} {x y : BitVec w} (hk : start + len ≤ k)
    (h : x.toNat % 2 ^ k = y.toNat % 2 ^ k) : x.extractLsb' start len = y.extractLsb' start len := by
  have hlow : x.setWidth k = y.setWidth k := by
    apply BitVec.eq_of_toNat_eq
    rwa [BitVec.toNat_setWidth, BitVec.toNat_setWidth]
  rw [← BitVec.extractLsb'_setWidth_of_le hk, hlow, BitVec.extractLsb'_setWidth_of_le hk]

/-- In both 3-byte modes a pixel is packed alike (R104). -/
theorem pack_b16t (c : U32) : pack .b16t c = pack .b18 c := rfl

theorem pack_b16_eq_ofNat (c : U32) : pack .b16 c = [BitVec.ofNat 8 (c.toNat / 256), BitVec.ofNat 8 c.toNat] := by
  simp only [pack, extractLsb'_eq_ofNat_div, Nat.reducePow, Nat.div_one]

theorem pack_b18_eq_ofNat (c : U32) : pack .b18 c =
    [BitVec.ofNat 8 (c.toNat / 65536), BitVec.ofNat 8 (c.toNat / 256), BitVec.ofNat 8 c.toNat] := by
  simp only [pack, extractLsb'_eq_ofNat_div, Nat.reducePow, Nat.div_one]

theorem pack_b16_eq_of_toNat_mod_eq {c d : U32} (h : c.toNat % 2 ^ 16 = d.toNat % 2 ^ 16) :
    pack .b16 c = pack .b16 d := by
  have hbyte (start : Nat) (hs : start + 8 ≤ 16) : c.extractLsb' start 8 = d.extractLsb' start 8 :=
    extractLsb'_eq_of_toNat_mod_eq hs h
  simp only [pack, hbyte 8 (by decide), hbyte 0 (by decide)]

theorem pack_b18_eq_of_toNat_mod_eq {c d : U32} (h : c.toNat % 2 ^ 24 = d.toNat % 2 ^ 24) :
    pack .b18 c = pack .b18 d := by
  have hbyte (start : Nat) (hs : start + 8 ≤ 24) : c.extractLsb' start 8 = d.extractLsb' start 8 :=
    extractLsb'_eq_of_toNat_mod_eq hs h
  simp only [pack, hbyte 16 (by decide), hbyte 8 (by decide), hbyte 0 (by decide)]

/-- Settles O15: each byte is a field of the colour, so a quotient of its value, and no bit above the fields counts; the
corner values by evaluation. -/
theorem packTruncates : Obligations.PackTruncates := by
  refine ⟨fun c => ⟨pack_b16_eq_ofNat c, pack_b18_eq_ofNat c, (pack_b16t c).trans (pack_b18_eq_ofNat c), rfl⟩,
    fun _ _ h => pack_b16_eq_of_toNat_mod_eq h, fun c d h => ?_, rfl, rfl, rfl, rfl, rfl⟩
  have hpack : pack .b18 c = pack .b18 d := pack_b18_eq_of_toNat_mod_eq h
  exact ⟨hpack, by rwa [pack_b16t, pack_b16t]⟩

theorem bpp_eq_length_pack {m : Mode} (hm : m ≠ .unset) (c : U32) : bpp m = some (pack m c).length := by
  cases m with
  | unset => exact absurd rfl hm
  | b12 | b16 | b18 | b16t => rfl

/-- Settles O16: the values are the rows of the table. -/
theorem bppIsPackLength : Obligations.BppIsPackLength :=
  ⟨rfl, rfl, rfl, rfl, rfl, fun _ c hm => bpp_eq_length_pack hm c⟩

/-! ## The mode byte -/

/-- Settles O14: the table is the definition's, and its values under the defaults come by evaluation. -/
theorem modeByteTable : Obligations.ModeByteTable :=
  ⟨fun _ => ⟨rfl, rfl, rfl, rfl, rfl⟩, rfl, rfl, rfl, rfl, rfl⟩

/-! ## The two operations -/

theorem operation_of_ready {s : State} (hr : s.Ready) (acts : List Act) :
    operation s acts = .next (s.operate acts none) := by
  rw [operation, accepted, hr.1, hr.2]
  rfl

theorem exec_setBpp_of_ne_unset {m : Mode} (hm : m ≠ .unset) (s : State) :
    exec (.setBpp m) s = operation s (setBpp s.K m) := if_neg (by simp [modeUnset_eq, hm])

theorem transfers_setBpp (K : Config) (m : Mode) : transfers (setBpp K m) = 2 := rfl

theorem scriptEvents_setBpp (K : Config) (m : Mode) :
    scriptEvents (setBpp K m) = cmdFrameEvents K.CMD_COLMOD ++ dataFrameEvents [modeByte K m] := rfl

theorem foldl_setBpp (s : State) (K : Config) (m : Mode) :
    (setBpp K m).foldl Act.apply s = { s with mode := m, pins := { s.pins with cs := true, dc := true } } := rfl

/-- Settles O12: the script is the store and the two frames; of `UNSET` the operand is refused. -/
theorem setBppStoresAndSends : Obligations.SetBppStoresAndSends := by
  intro s m hready
  refine ⟨fun hm hlink => ?_, exec_host rfl hready⟩
  have hdone := operation_of_carries (acts := setBpp s.K m) hready hlink
  rwa [foldl_setBpp, scriptEvents_setBpp, List.foldl_append, cmdFrameEvents, dataFrameEvents, foldl_drive_frame,
    foldl_drive_frame, transfers_setBpp, ← exec_setBpp_of_ne_unset hm s] at hdone

/-- Settles O13: an operation with an empty script only answers. -/
theorem getBppAnswersMode : Obligations.GetBppAnswersMode := by
  intro s hready
  have hexec : exec .getBpp s = .next (s.operate [] (some s.mode)) := exec_host rfl hready
  rw [hexec, operate_nil, ← hready.1]

/-! ## A transfer that fails, and `setBpp` with one -/

/-- An operation cut inside the frame of a transfer that fails, after `before`: the actions before the frame have been
carried out, the frame is not closed, and the fault is reported at its first event (60_exceptions.md R165, R167, R168). -/
theorem operate_of_failed {s : State} {acts before : List Act} {kind : Bit} {bs : List Byte} {link : Option LinkFailure}
    (v : Option Mode)
    (h : progress s.link acts =
      ⟨before ++ [.emit (.cs false), .emit (.dc kind), .xfer bs], .failed bs.length, link⟩) :
    s.operate acts v = { s with
      mode := (before.foldl Act.apply s).mode
      op := (before.foldl Act.apply s).op
      pins := { (scriptEvents before).foldl Pins.drive s.pins with cs := false, dc := kind }
      trace := s.trace ++ (scriptEvents before ++ ([.cs false, .dc kind] ++ bs.map .tx))
      wire := s.wire ++ (scriptEvents before ++ ([.cs false, .dc kind] ++ bs.map .tx))
      fault := true
      busy := false
      link := link
      responses := s.responses ++ [.fault (s.trace.length + (scriptEvents before).length)] } := by
  have hevents : scriptEvents (before ++ [.emit (.cs false), .emit (.dc kind), .xfer bs]) =
      scriptEvents before ++ ([.cs false, .dc kind] ++ bs.map .tx) := by rw [scriptEvents_append, scriptEvents_begun]
  have hindex : (s.trace ++ (scriptEvents before ++ ([Event.cs false, .dc kind] ++ bs.map Event.tx))).length -
      (bs.length + 2) = s.trace.length + (scriptEvents before).length := by
    simp only [List.length_append, List.length_map, List.length_cons, List.length_nil]
    omega
  simp only [State.operate, h, State.finish, State.carryOut]
  rw [foldl_apply_busy_comm, foldl_apply_eq, ← scriptEvents, hevents, List.foldl_append, List.foldl_append,
    foldl_drive_begun, ← hindex]
  rfl

/-- When its first or its second transfer fails, `setBpp` has stored the mode, and loaded no latch, before the failed frame;
in the second case the command's frame, of four events, stands before it (41_color_mode.md R100). -/
theorem progress_setBpp_of_failed (K : Config) (m : Mode) {f : LinkFailure} (hafter : f.after < 2)
    (hhangs : f.hangs = false) :
    ∃ before kind bs,
      progress (some f) (setBpp K m) =
        ⟨before ++ [.emit (.cs false), .emit (.dc kind), .xfer bs], .failed bs.length, none⟩ ∧
      (scriptEvents before).length = 4 * f.after ∧
      ∀ s : State, (before.foldl Act.apply s).mode = m ∧ (before.foldl Act.apply s).op = s.op := by
  obtain ⟨after, sent, hangs⟩ := f
  obtain rfl : hangs = false := hhangs
  match after, hafter with
  | 0, _ => exact ⟨[.setMode m], false, [K.CMD_COLMOD].take sent, rfl, rfl, fun _ => ⟨rfl, rfl⟩⟩
  | 1, _ =>
    exact ⟨[.setMode m] ++ sendCommand K.CMD_COLMOD, true, [modeByte K m].take sent, rfl, rfl, fun _ => ⟨rfl, rfl⟩⟩

/-- Settles O40: the store stands before both frames in the script. -/
theorem setBppFaultKeepsMode : Obligations.SetBppFaultKeepsMode := by
  intro s m f hready hm hlink hafter hhangs
  obtain ⟨before, kind, bs, hprogress, hlength, hstored⟩ := progress_setBpp_of_failed s.K m hafter hhangs
  rw [← hlink] at hprogress
  obtain ⟨hmode, hop⟩ := hstored s
  have hexec : exec (.setBpp m) s = .next (s.operate (setBpp s.K m) none) := by
    rw [exec_setBpp_of_ne_unset hm s, operation_of_ready hready]
  rw [operate_of_failed none hprogress, hlength] at hexec
  exact ⟨_, hexec, rfl, rfl, hmode, rfl, rfl, rfl, hop, rfl⟩

end Sys2Proof.Machine

/-! SUPPORT. Window Addressing, 42_window.md: a range of columns and a range of rows are one script, with a command and a
dimension (R111, R112). What it sends and what it leaves is said once, for an accepted and for a rejected range; of the
scripts that store nothing, `setWindow` (R113) among them, the events say everything. -/

namespace Sys2Proof.Machine

/-! ## Scripts that store nothing -/

/-- An accepted operation whose script stores nothing, with a link that carries it, leaves its events and the answer. -/
theorem operation_of_stores_nothing {s : State} {acts : List Act} (hready : s.Ready) (hstores : Stores [] false acts)
    (hlink : s.linkCarries (transfers acts) = true) :
    operation s acts = .next { s with
      pins := (scriptEvents acts).foldl Pins.drive s.pins
      trace := s.trace ++ scriptEvents acts
      wire := s.wire ++ scriptEvents acts
      link := linkAfter s.link (transfers acts)
      responses := s.responses ++ [.done none] } := by
  have hmode : (acts.foldl Act.apply s).mode = s.mode :=
    (foldl_apply_mode_of_stores hstores s).resolve_right List.not_mem_nil
  rw [operation_of_carries hready hlink, hmode, foldl_apply_op_of_stores hstores]

theorem operation_nil {s : State} (hready : s.Ready) :
    operation s [] = .next { s with responses := s.responses ++ [.done none] } := by
  rw [operation_of_ready hready, operate_nil, ← hready.1]

/-! ## One range -/

/-- The script of a range: its command and its four bytes, if it lies in the dimension (R110). -/
def sendRange (c : Byte) (start stop dim : U16) : List Act :=
  if inRange start stop dim then sendCommand c ++ sendData (rangeParam start stop) else []

/-- The events of `sendRange`. -/
def rangeEvents (c : Byte) (start stop dim : U16) : List Event :=
  if start ≤ stop ∧ stop < dim then cmdFrameEvents c ++ dataFrameEvents (rangeParam start stop) else []

theorem setColumns_eq_sendRange (K : Config) (start stop : U16) :
    setColumns K start stop = sendRange K.CMD_CASET start stop K.WIDTH := rfl

theorem setRows_eq_sendRange (K : Config) (start stop : U16) :
    setRows K start stop = sendRange K.CMD_RASET start stop K.HEIGHT := rfl

section
variable {c : Byte} {start stop dim : U16}

theorem sendRange_of_accepted (h : start ≤ stop ∧ stop < dim) :
    sendRange c start stop dim = sendCommand c ++ sendData (rangeParam start stop) := if_pos (by simpa [inRange] using h)

theorem sendRange_of_rejected (h : ¬(start ≤ stop ∧ stop < dim)) : sendRange c start stop dim = [] :=
  if_neg (by simpa [inRange] using h)

theorem scriptEvents_sendRange : scriptEvents (sendRange c start stop dim) = rangeEvents c start stop dim := by
  unfold rangeEvents
  split
  case isTrue h => rw [sendRange_of_accepted h, scriptEvents_append, scriptEvents_sendCommand, scriptEvents_sendData]
  case isFalse h => rw [sendRange_of_rejected h, scriptEvents_nil]

theorem transfers_sendRange :
    transfers (sendRange c start stop dim) = if start ≤ stop ∧ stop < dim then 2 else 0 := by
  split
  case isTrue h => rw [sendRange_of_accepted h, transfers_append, transfers_sendCommand, transfers_sendData]
  case isFalse h => rw [sendRange_of_rejected h, transfers_nil]

/-- A range drives chip-select and the selector alone: a frame after it hides what it did to the lines. -/
theorem foldl_drive_rangeEvents_frame (p : Pins) (kind : Bit) (bs : List Byte) :
    (frameEvents kind bs).foldl Pins.drive ((rangeEvents c start stop dim).foldl Pins.drive p) =
      (frameEvents kind bs).foldl Pins.drive p := by
  unfold rangeEvents
  split
  · rw [List.foldl_append, cmdFrameEvents, dataFrameEvents]
    simp only [foldl_drive_frame]
  · rfl

theorem operation_sendRange_of_accepted {s : State} (hready : s.Ready) (hlink : s.linkCarries 2 = true)
    (h : start ≤ stop ∧ stop < dim) :
    operation s (sendRange c start stop dim) = .next { s with
      pins := { s.pins with cs := true, dc := true }
      trace := s.trace ++ (cmdFrameEvents c ++ dataFrameEvents (rangeParam start stop))
      wire := s.wire ++ (cmdFrameEvents c ++ dataFrameEvents (rangeParam start stop))
      link := linkAfter s.link 2
      responses := s.responses ++ [.done none] } := by
  have hstores : Stores [] false (sendCommand c ++ sendData (rangeParam start stop)) :=
    (stores_sendCommand _).append (stores_sendData _)
  rw [sendRange_of_accepted h, operation_of_stores_nothing hready hstores hlink]
  simp only [scriptEvents_append, scriptEvents_sendCommand, scriptEvents_sendData, List.foldl_append, cmdFrameEvents,
    dataFrameEvents, foldl_drive_frame, transfers_append, transfers_sendCommand, transfers_sendData]

theorem operation_sendRange_of_rejected {s : State} (hready : s.Ready) (h : stop < start ∨ dim ≤ stop) :
    operation s (sendRange c start stop dim) = .next { s with responses := s.responses ++ [.done none] } := by
  have hrejected : ¬(start ≤ stop ∧ stop < dim) := by bv_omega
  rw [sendRange_of_rejected hrejected, operation_nil hready]

end

/-- Settles O17: each of the two scripts is a range, with its command and its dimension. -/
theorem acceptedRangesAreSent : Obligations.AcceptedRangesAreSent := fun _ _ _ hready hlink hle =>
  ⟨fun hlt => operation_sendRange_of_accepted hready hlink ⟨hle, hlt⟩,
    fun hlt => operation_sendRange_of_accepted hready hlink ⟨hle, hlt⟩⟩

/-- Settles O18: the script of a rejected range is empty, so that no link can fail it. -/
theorem rejectedRangesChangeNothing : Obligations.RejectedRangesChangeNothing := fun _ _ _ hready =>
  ⟨operation_sendRange_of_rejected hready, operation_sendRange_of_rejected hready⟩

/-! ## The window -/

section
variable (K : Config) (x0 y0 x1 y1 : U16)

theorem scriptEvents_setWindow : scriptEvents (setWindow K x0 y0 x1 y1) =
    rangeEvents K.CMD_CASET x0 x1 K.WIDTH ++ rangeEvents K.CMD_RASET y0 y1 K.HEIGHT ++ cmdFrameEvents K.CMD_RAMWR := by
  rw [setWindow, setColumns_eq_sendRange, setRows_eq_sendRange, scriptEvents_append, scriptEvents_append,
    scriptEvents_sendRange, scriptEvents_sendRange, scriptEvents_sendCommand]

theorem transfers_setWindow : transfers (setWindow K x0 y0 x1 y1) =
    (if x0 ≤ x1 ∧ x1 < K.WIDTH then 2 else 0) + (if y0 ≤ y1 ∧ y1 < K.HEIGHT then 2 else 0) + 1 := by
  rw [setWindow, setColumns_eq_sendRange, setRows_eq_sendRange, transfers_append, transfers_append, transfers_sendRange,
    transfers_sendRange, transfers_sendCommand]

/-- The memory-write command, issued in every case, decides the lines. -/
theorem foldl_drive_setWindow (p : Pins) :
    (scriptEvents (setWindow K x0 y0 x1 y1)).foldl Pins.drive p = { p with cs := true, dc := false } := by
  rw [scriptEvents_setWindow, List.foldl_append, List.foldl_append, cmdFrameEvents, foldl_drive_rangeEvents_frame,
    foldl_drive_rangeEvents_frame, foldl_drive_frame]

end

/-- Settles O19: the script stores nothing; its events and its transfers are those of the two ranges, each accepted or
rejected, and of the memory-write command. -/
theorem setWindowFourCases : Obligations.SetWindowFourCases := by
  intro s x0 y0 x1 y1 hready columns rows n hlink
  have htransfers : transfers (setWindow s.K x0 y0 x1 y1) = n := transfers_setWindow ..
  have hevents : scriptEvents (setWindow s.K x0 y0 x1 y1) = columns ++ rows ++ cmdFrameEvents s.K.CMD_RAMWR :=
    scriptEvents_setWindow ..
  have hdone : exec (.setWindow x0 y0 x1 y1) s = _ :=
    operation_of_stores_nothing hready (stores_setWindow s.K x0 y0 x1 y1) (htransfers ▸ hlink)
  rwa [foldl_drive_setWindow, htransfers, hevents] at hdone

end Sys2Proof.Machine

/-! SUPPORT. The Rasterizer, 43_rasterizer.md: the clamp in closed form (R121), what `drawSolidRect` and `fill` leave in a set
colour mode (R120 to R126) and without one (R170), and how much they add to the trace (R128). Both draws run one script, that
of a rectangle with a pixel, so that what it leaves is said once. -/

namespace Sys2Proof.Machine

/-! ## The clamp -/

/-- The last two guarded assignments of the clamp, in closed form. -/
theorem clamp_extent (d a e : Nat) : (if d ≤ a + e then d - a else e) = min e (d - a) := by
  split <;> omega

section
variable (K : Config) (r : Rect)

theorem clamp_x : (clamp K r).x = if r.x < K.WIDTH.toNat then r.x else K.WIDTH.toNat - 1 := by
  simp only [clamp, ← Nat.not_lt, ite_not]

theorem clamp_y : (clamp K r).y = if r.y < K.HEIGHT.toNat then r.y else K.HEIGHT.toNat - 1 := by
  simp only [clamp, ← Nat.not_lt, ite_not]

theorem clamp_w : (clamp K r).w = min r.w (K.WIDTH.toNat - (clamp K r).x) := clamp_extent ..

theorem clamp_h : (clamp K r).h = min r.h (K.HEIGHT.toNat - (clamp K r).y) := clamp_extent ..

end

/-- The clamp treats its two axes alike: a corner `a` and an extent `e` on an axis of `d` pixels become `a'` and `e'`. -/
theorem clamp_axis {d a e a' e' : Nat} (hd : 1 ≤ d) (ha : a' = if a < d then a else d - 1) (he : e' = min e (d - a')) :
    a' ≤ d - 1 ∧ e' ≤ d - a' ∧ (1 ≤ e → 1 ≤ e') ∧ (d ≤ a → 1 ≤ e → a' = d - 1 ∧ e' = 1) ∧
    (a + e ≤ d → a < d → a' = a ∧ e' = e) ∧ (e = 0 → e' = 0) ∧ (a < d → a' = a) ∧ e' ≤ e := by
  split at ha <;> omega

/-- Settles O20: the closed form of the two axes, from which the consequences follow. -/
theorem clampFitsTheSurface : Obligations.ClampFitsTheSurface := by
  intro K r hW hH W H r'
  obtain ⟨hx, hw, hwpos, hxpast, hxin, hwzero, hxstays, hwle⟩ := clamp_axis hW (clamp_x K r) (clamp_w K r)
  obtain ⟨hy, hh, hhpos, hypast, hyin, hhzero, hystays, hhle⟩ := clamp_axis hH (clamp_y K r) (clamp_h K r)
  have hinside (h1 : r.x + r.w ≤ W) (h2 : r.y + r.h ≤ H) (h3 : r.x < W) (h4 : r.y < H) : r' = r := by
    obtain ⟨hxr, hwr⟩ := hxin h1 h3
    obtain ⟨hyr, hhr⟩ := hyin h2 h4
    rw [show r' = ⟨(clamp K r).x, (clamp K r).y, (clamp K r).w, (clamp K r).h⟩ from rfl, hxr, hyr, hwr, hhr]
  exact ⟨clamp_x K r, clamp_y K r, clamp_w K r, clamp_h K r, hx, hy, hw, hh, hwpos, hhpos, hxpast, hypast, hinside,
    hwzero, hhzero, hxstays, hystays, hwle, hhle⟩

/-! ## The admitted subset -/

theorem rectAdmitted_iff {K : Config} {r : Rect} : rectAdmitted K r = true ↔
    1 ≤ r.w ∧ 1 ≤ r.h ∧ (clamp K r).x + r.w ≤ 65535 ∧ (clamp K r).y + r.h ≤ 65535 := by
  simp only [rectAdmitted, Bool.and_eq_true, decide_eq_true_eq, and_assoc]

/-- A draw in its admitted subset, or with no colour mode, is its script (R171, R126). -/
theorem exec_drawSolidRect_of_admitted {s : State} {x y w h : U16} (color : U32)
    (hadmitted : s.mode = .unset ∨ rectAdmitted s.K (rectOf x y w h) = true) :
    exec (.drawSolidRect x y w h color) s = operation s (drawSolidRect s.K s.mode (rectOf x y w h) color) :=
  if_pos (by simpa [modeUnset_eq] using hadmitted)

/-- Settles O23: such a rectangle fails one of the four conditions of the admitted subset. -/
theorem rectOutsideSubsetRefused : Obligations.RectOutsideSubsetRefused := by
  intro s x y w h color hready hm W H houtside
  have hrejected : ¬rectAdmitted s.K (rectOf x y w h) = true := by
    rw [rectAdmitted_iff, clamp_x, clamp_y]
    rintro ⟨hw, hh, hxw, hyh⟩
    rcases houtside with rfl | rfl | hx | hy
    · exact Nat.not_succ_le_zero 0 hw
    · exact Nat.not_succ_le_zero 0 hh
    · exact absurd hxw (Nat.not_le.mpr hx)
    · exact absurd hyh (Nat.not_le.mpr hy)
  rw [exec_host rfl hready]
  simp [hostRefusal, modeUnset_eq, hm, hrejected]

/-! ## Draws without a colour mode -/

theorem drawCalls_unset (K : Config) (calls : List DrawCall) : drawCalls K .unset calls = [] := by
  simp [drawCalls]

/-- Settles O21: each of the three scripts is empty. -/
theorem drawsWithoutModeAreDropped : Obligations.DrawsWithoutModeAreDropped := by
  intro s hready hm
  have hdropped (r : Rect) (color : U32) : operation s (drawSolidRect s.K s.mode r color) =
      .next { s with responses := s.responses ++ [.done none] } := by
    rw [← operation_nil hready, hm, drawSolidRect_unset]
  refine ⟨fun x y w h color => ?_, fun color => hdropped _ _, fun x y text hcovered hwithin => ?_⟩
  · rw [exec_drawSolidRect_of_admitted color (.inl hm), hdropped]
  · have hnone : (text.find? fun ch => !codeCovered s.K ch) = none := by
      simpa [List.find?_eq_none] using hcovered
    have haccepted : hostRefusal s (.drawText x y text) = none := by
      simp [hostRefusal, hnone, hwithin, modeUnset_eq, hm]
    have hscript : hostScript s (.drawText x y text) = [] := by rw [hostScript, hm, drawCalls_unset]
    rw [exec_host rfl hready, haccepted, hscript, operate_nil, ← hready.1]
    rfl

/-! ## Draws in a set colour mode -/

/-- An accepted draw of a rectangle with a pixel, in a set colour mode and with a link that carries it (R120 to R124). -/
theorem operation_drawSolidRect_of_carries {s : State} {r : Rect} (color : U32) (hK : s.K.Wf) (hready : s.Ready)
    (hm : s.mode ≠ .unset) (hw : 1 ≤ r.w) (hh : 1 ≤ r.h) (hlink : s.linkCarries (rectTransfers s.K s.mode r) = true) :
    operation s (drawSolidRect s.K s.mode r color) = .next { s with
      op := ⟨BitVec.ofNat 16 (clamp s.K r).x, BitVec.ofNat 16 (clamp s.K r).y, BitVec.ofNat 16 (clamp s.K r).w,
        BitVec.ofNat 16 (clamp s.K r).h, color, pack s.mode color, 0⟩
      pins := { s.pins with
        cs := true, dc := decide (pixelFrames s.K s.mode ((clamp s.K r).w * (clamp s.K r).h) ≠ 0) }
      trace := s.trace ++ rectEvents s.K s.mode (clamp s.K r) color
      wire := s.wire ++ rectEvents s.K s.mode (clamp s.K r) color
      link := linkAfter s.link (rectTransfers s.K s.mode r)
      responses := s.responses ++ [.done none] } := by
  obtain ⟨hW, hH, -⟩ := hK
  obtain ⟨hevents, htransfers, hregisters⟩ := streamRect_spec hW hH hm color hw hh
  obtain ⟨hmode, hop⟩ := hregisters s
  rw [drawSolidRect_of_set hm, operation_of_carries hready (htransfers ▸ hlink), hmode, hop, hevents, htransfers,
    foldl_drive_rectEvents]

/-- Settles O22: the request is admitted, and its rectangle has a pixel. -/
theorem drawSolidRectStreams : Obligations.DrawSolidRectStreams := by
  intro s x y w h color hK hready hm hw hh r hx hy hlink
  rw [exec_drawSolidRect_of_admitted color (.inr (rectAdmitted_iff.mpr ⟨hw, hh, hx, hy⟩))]
  exact operation_drawSolidRect_of_carries color hK hready hm hw hh hlink

/-- Settles O24: the operands are those of the surface, which is admitted. -/
theorem fillIsTheSurfaceRect : Obligations.FillIsTheSurfaceRect := by
  intro s color ⟨hW, hH, _⟩
  have hrect : rectOf 0 0 s.K.WIDTH s.K.HEIGHT = surface s.K := rfl
  have hadmitted := rectAdmitted_surface ⟨hW, hH⟩
  rw [exec_drawSolidRect_of_admitted color (.inr (hrect ▸ hadmitted)), hrect]
  rfl

theorem ofNat_toNat_sub_one {d : U16} (hd : 1 ≤ d.toNat) : BitVec.ofNat 16 (0 + d.toNat - 1) = d - 1 := by
  bv_omega

/-- Settles O25: the draw of the surface, which the clamp leaves as it is. -/
theorem fillStreamsTheSurface : Obligations.FillStreamsTheSurface := by
  intro s color hK hready hm n evs hlink
  have ⟨hW, hH, _⟩ := hK
  have hclamp : clamp s.K (surface s.K) = surface s.K := clamp_surface ⟨hW, hH⟩
  have htransfers : rectTransfers s.K s.mode (surface s.K) = 5 + n := by rw [rectTransfers, hclamp]; rfl
  have hevents : rectEvents s.K s.mode (surface s.K) color = evs := by
    simp only [rectEvents, surface, ofNat_toNat_sub_one hW, ofNat_toNat_sub_one hH]
    rfl
  have hdone : exec (.fill color) s = _ :=
    operation_drawSolidRect_of_carries (r := surface s.K) color hK hready hm hW hH (htransfers ▸ hlink)
  rw [hclamp, hevents, htransfers] at hdone
  simp only [surface, BitVec.ofNat_toNat, BitVec.setWidth_eq] at hdone
  exact hdone

/-! ## How much a draw adds to the trace -/

theorem byteCount_append (as bs : List Event) : byteCount (as ++ bs) = byteCount as + byteCount bs := List.countP_append

@[simp] theorem byteCount_frameEvents (kind : Bit) (bs : List Byte) : byteCount (frameEvents kind bs) = bs.length := by
  simp only [byteCount, frameEvents, List.countP_append, List.countP_map]
  simp [Function.comp_def]

@[simp] theorem length_frameEvents (kind : Bit) (bs : List Byte) : (frameEvents kind bs).length = 3 + bs.length := by
  simp only [frameEvents, List.length_append, List.length_map, List.length_cons, List.length_nil]
  omega

/-- `n` equal data frames. -/
theorem replicate_dataFrameEvents_counts (n : Nat) (bs : List Byte) :
    frameCount (List.replicate n (dataFrameEvents bs)).flatten = n ∧
    byteCount (List.replicate n (dataFrameEvents bs)).flatten = n * bs.length ∧
    (List.replicate n (dataFrameEvents bs)).flatten.length = n * (3 + bs.length) := by
  induction n with
  | zero => simp [frameCount, byteCount]
  | succ n ih =>
    obtain ⟨hframes, hbytes, hlength⟩ := ih
    rw [List.replicate_succ, List.flatten_cons, frameCount_append, byteCount_append, List.length_append, hframes, hbytes,
      hlength, dataFrameEvents, frameCount_frameEvents, byteCount_frameEvents, length_frameEvents]
    simp only [Nat.succ_mul]
    omega

/-- The five frames of a window hold 11 bytes (R128). -/
theorem windowEvents_counts (K : Config) (x0 y0 x1 y1 : U16) :
    frameCount (windowEvents K x0 y0 x1 y1) = 5 ∧ byteCount (windowEvents K x0 y0 x1 y1) = 11 ∧
    (windowEvents K x0 y0 x1 y1).length = 26 := ⟨rfl, rfl, rfl⟩

/-- The frames, bytes and events of a rectangle (R128). -/
theorem rectEvents_counts (K : Config) (m : Mode) (r : Rect) (color : U32) :
    frameCount (rectEvents K m r color) = 5 + pixelFrames K m (r.w * r.h) ∧
    byteCount (rectEvents K m r color) = 11 + pixelFrames K m (r.w * r.h) * (pack m color).length ∧
    (rectEvents K m r color).length = 26 + pixelFrames K m (r.w * r.h) * (3 + (pack m color).length) := by
  obtain ⟨hwindowFrames, hwindowBytes, hwindowLength⟩ := windowEvents_counts K (BitVec.ofNat 16 r.x) (BitVec.ofNat 16 r.y)
    (BitVec.ofNat 16 (r.x + r.w - 1)) (BitVec.ofNat 16 (r.y + r.h - 1))
  obtain ⟨hframes, hbytes, hlength⟩ := replicate_dataFrameEvents_counts (pixelFrames K m (r.w * r.h)) (pack m color)
  rw [rectEvents, frameCount_append, byteCount_append, List.length_append, hwindowFrames, hwindowBytes, hwindowLength,
    hframes, hbytes, hlength]
  exact ⟨rfl, rfl, rfl⟩

/-- Frames that are not sent would have held no byte (R124, D9). -/
theorem pixelFrames_mul_length_pack (K : Config) (m : Mode) (n : Nat) (color : U32) :
    pixelFrames K m n * (pack m color).length = n * (pack m color).length := by
  unfold pixelFrames
  split
  case isTrue h => rw [h.1]; simp [pack]
  case isFalse => rfl

/-- Settles O26: the events are those of the clamped rectangle. -/
theorem drawCounts : Obligations.DrawCounts := by
  intro s x y w h color p hK hready hm hp hw hh r n frames hx hy hlink
  obtain rfl : (pack s.mode color).length = p := Option.some.inj ((bpp_eq_length_pack hm color).symm.trans hp)
  obtain ⟨hframes, hbytes, hlength⟩ := rectEvents_counts s.K s.mode r color
  rw [pixelFrames_mul_length_pack] at hbytes
  have hdone := drawSolidRectStreams s x y w h color hK hready hm hw hh hx hy hlink
  exact ⟨_, rectEvents s.K s.mode r color, hdone, rfl, hframes, hbytes, hlength⟩

end Sys2Proof.Machine

/-! SUPPORT. From the request to the controller: what the sink makes of the frames that a draw has put on the wire,
20_memory.md R48, R49 and R53. The sink reads a list of frames one per step; the frames of a draw program the window of its
rectangle and open a stream (43_rasterizer.md R122), and each pixel frame then lands the next pixel of the window (R124). -/

namespace Sys2Proof.Machine

/-! ## Frames on the wire -/

/-- A frame as the sink reads it (30_encoding.md R60, R61). -/
inductive WireFrame where
  | command (c : Byte)
  | data (bs : List Byte)

/-- The events of a frame. -/
def WireFrame.events (f : WireFrame) : List Event :=
  match f with
  | .command c => cmdFrameEvents c
  | .data bs => dataFrameEvents bs

/-- The sink after a frame; `m` is the block's `MODE`. -/
def Sink.receive (K : Config) (m : Mode) (z : Sink) (f : WireFrame) : Sink :=
  match f with
  | .command c => z.command K m c
  | .data bs => z.data K bs

@[simp] theorem Sink.receive_command (K : Config) (m : Mode) (z : Sink) (c : Byte) :
    z.receive K m (.command c) = z.command K m c := rfl

@[simp] theorem Sink.receive_data (K : Config) (m : Mode) (z : Sink) (bs : List Byte) :
    z.receive K m (.data bs) = z.data K bs := rfl

/-- The row of a command frame hands its code to the sink, whatever the code. -/
theorem exec_decodeCommand {s : State} (hK : s.K.Wf) (c : Byte) :
    exec (decodeCommand s.K c) s = .next (s.sinkCommand c) := by
  by_cases hc : c ∈ s.K.codes
  · obtain ⟨ic, hic, rfl⟩ := List.mem_map.mp (show c ∈ (commandRows s.K).map Prod.snd from hc)
    rw [decodeCommand_of_row hK hic]
    exact (exec_commandRow hic).1
  · rw [decodeCommand_of_notMem_codes hc, exec_cmdFrame]

/-- No frame pulses the reset line, so that reading one tells the sink nothing more (R193 (a)). -/
theorem State.takeFrame_frameEvents {s : State} {kind : Bit} {bs : List Byte} {rest : List Event}
    (hw : s.wire = frameEvents kind bs ++ rest) : s.takeFrame rest = { s with wire := rest } := by
  have hbefore : s.wire.take (s.wire.length - rest.length) = frameEvents kind bs := by simp [hw]
  have hpulse : Event.rst false ∉ frameEvents kind bs := by simp [frameEvents]
  rw [State.takeFrame, hbefore, Sink.passLines, if_neg hpulse]

theorem settled_of_ready {s : State} (h : s.Ready) : settled (.next s) = .next s := by
  rw [settled, State.settle_of_ready s h]

/-- A step of a ready block with a frame on the wire: the sink reads it. -/
theorem step_of_wireFrame {s : State} {f : WireFrame} {rest : List Event} (hK : s.K.Wf) (hready : s.Ready)
    (hw : s.wire = f.events ++ rest) :
    step s = .next { s with wire := rest, sink := s.sink.receive s.K s.mode f } := by
  cases f with
  | command c =>
    have hframe : nextFrame s.wire = some ([.dc false, .tx c], rest) := hw ▸ nextFrame_cmd c rest
    rw [step_of_frame hframe (decodeBracket_cmd _ _), State.takeFrame_frameEvents hw,
      exec_decodeCommand (s := { s with wire := rest }) hK]
    exact settled_of_ready hready
  | data bs =>
    have hframe : nextFrame s.wire = some (.dc true :: bs.map .tx, rest) := hw ▸ nextFrame_data bs rest
    rw [step_of_frame hframe (decodeBracket_data _ _), State.takeFrame_frameEvents hw, exec_dataFrame]
    exact settled_of_ready hready

theorem run_succ_of_step {M : Host.Core} {s t : M.State} (k : Nat) (h : M.step s = .next t) :
    M.run (k + 1) s = M.run k t := by
  simp only [Host.Core.run, h]

/-- A ready block's sink reads the frames on the wire, one per step (R53, log entry 9). -/
theorem run_wireFrames {s : State} {frames : List WireFrame} {rest : List Event} (hK : s.K.Wf) (hready : s.Ready)
    (hw : s.wire = frames.flatMap WireFrame.events ++ rest) :
    Sys2Proof.core.run frames.length s =
      .next { s with wire := rest, sink := frames.foldl (Sink.receive s.K s.mode) s.sink } := by
  induction frames generalizing s with
  | nil => rw [List.foldl_nil, ← show s.wire = rest from hw]; rfl
  | cons f frames ih =>
    rw [List.flatMap_cons, List.append_assoc] at hw
    rw [List.length_cons, run_succ_of_step (M := Sys2Proof.core) _ (step_of_wireFrame hK hready hw)]
    exact ih (s := { s with wire := _, sink := _ }) hK hready rfl

/-! ## The window of a draw -/

/-- The frames of a window (42_window.md R113). -/
def windowFrames (K : Config) (x0 y0 x1 y1 : U16) : List WireFrame :=
  [.command K.CMD_CASET, .data (rangeParam x0 x1), .command K.CMD_RASET, .data (rangeParam y0 y1), .command K.CMD_RAMWR]

theorem events_windowFrames (K : Config) (x0 y0 x1 y1 : U16) :
    (windowFrames K x0 y0 x1 y1).flatMap WireFrame.events = windowEvents K x0 y0 x1 y1 := rfl

/-- The sink after the frames of a window: its four bounds programmed and its stream open. -/
def Sink.armed (K : Config) (m : Mode) (x0 y0 x1 y1 : U16) (z : Sink) : Sink :=
  { z with
    latched := some K.CMD_RAMWR
    params := []
    xs := some x0
    xe := some x1
    ys := some y0
    ye := some y1
    streams := z.streams ++ [⟨some x0, some x1, some y0, some y1, m, []⟩] }

/-- The bytes of a bound, as it is sent (R63), are the bound that the sink reads (R48). -/
@[simp] theorem joinBytes_hi8_lo8 (v : U16) : joinBytes (hi8 v) (lo8 v) = v := by
  rw [joinBytes_eq]
  apply BitVec.eq_of_toNat_eq
  simp only [hi8, lo8, extractLsb'_eq_ofNat_div, BitVec.toNat_ofNat]
  omega

/-- Closing a command touches nothing but the window (R50 (e)). -/
theorem Sink.closeCommand_eq (K : Config) (z : Sink) :
    z.closeCommand K = { z with
      xs := (z.closeCommand K).xs
      xe := (z.closeCommand K).xe
      ys := (z.closeCommand K).ys
      ye := (z.closeCommand K).ye } := by
  unfold Sink.closeCommand
  repeat' split
  all_goals rfl

/-! The three commands of a window. -/

section
variable {K : Config} (hK : K.Wf) (m : Mode) (z : Sink)
include hK

theorem Sink.receive_caset : z.receive K m (.command K.CMD_CASET) =
    { z.closeCommand K with latched := some K.CMD_CASET, params := [] } := by
  have hcommand : z.command K m K.CMD_CASET = _ :=
    Sink.command_of_row hK (ic := (.cmdCaset, K.CMD_CASET)) (by simp [commandRows]) m z
  simpa [Sink.arrive] using hcommand

theorem Sink.receive_raset : z.receive K m (.command K.CMD_RASET) =
    { z.closeCommand K with latched := some K.CMD_RASET, params := [] } := by
  have hcommand : z.command K m K.CMD_RASET = _ :=
    Sink.command_of_row hK (ic := (.cmdRaset, K.CMD_RASET)) (by simp [commandRows]) m z
  simpa [Sink.arrive] using hcommand

theorem Sink.receive_ramwr : z.receive K m (.command K.CMD_RAMWR) =
    (z.closeCommand K).arrive m (.cmdRamwr, K.CMD_RAMWR) :=
  Sink.command_of_row hK (ic := (.cmdRamwr, K.CMD_RAMWR)) (by simp [commandRows]) m z

/-- The command of columns, and their four bytes. -/
theorem Sink.receive_columns (a b : U16) :
    (z.receive K m (.command K.CMD_CASET)).receive K m (.data (rangeParam a b)) =
      { z.closeCommand K with
        latched := some K.CMD_CASET, params := rangeParam a b, xs := some a, xe := some b } := by
  rw [Sink.receive_caset hK, Sink.receive, Sink.data_of_caset (by simp [rangeParam]) rfl, Sink.columnData_of_four rfl]
  simp [rangeParam]

/-- The command of rows, and their four bytes. -/
theorem Sink.receive_rows (a b : U16) :
    (z.receive K m (.command K.CMD_RASET)).receive K m (.data (rangeParam a b)) =
      { z.closeCommand K with
        latched := some K.CMD_RASET, params := rangeParam a b, ys := some a, ye := some b } := by
  rw [Sink.receive_raset hK, Sink.receive, Sink.data_of_raset hK (by simp [rangeParam]) rfl, Sink.rowData_of_four rfl]
  simp [rangeParam]

end

/-- A sink whose last command has had four bytes is closed. -/
theorem Sink.closeCommand_of_four {K : Config} {z : Sink} (h : 4 ≤ z.params.length) : z.closeCommand K = z :=
  Sink.closeCommand_of_complete fun _ => h

/-- The frames of a window arm the sink, whatever it was: a range left open before is programmed anew. -/
theorem foldl_receive_windowFrames {K : Config} (hK : K.Wf) (m : Mode) (z : Sink) (x0 y0 x1 y1 : U16) :
    (windowFrames K x0 y0 x1 y1).foldl (Sink.receive K m) z = z.armed K m x0 y0 x1 y1 := by
  simp only [windowFrames, List.foldl_cons, List.foldl_nil]
  rw [Sink.receive_columns hK, Sink.receive_rows hK, Sink.receive_ramwr hK, Sink.closeCommand_of_four,
    Sink.closeCommand_of_four, Sink.closeCommand_eq K z]
  · simp [Sink.arrive, Sink.armed]
  · exact Nat.le_refl 4
  · exact Nat.le_refl 4

/-! ## The pixels of a draw -/

/-- The frames of a draw in a set colour mode on an already clamped rectangle (43_rasterizer.md R120). -/
def rectFrames (K : Config) (m : Mode) (r : Rect) (color : U32) : List WireFrame :=
  windowFrames K (BitVec.ofNat 16 r.x) (BitVec.ofNat 16 r.y) (BitVec.ofNat 16 (r.x + r.w - 1))
      (BitVec.ofNat 16 (r.y + r.h - 1))
    ++ List.replicate (pixelFrames K m (r.w * r.h)) (.data (pack m color))

theorem events_rectFrames (K : Config) (m : Mode) (r : Rect) (color : U32) :
    (rectFrames K m r color).flatMap WireFrame.events = rectEvents K m r color := by
  rw [rectFrames, List.flatMap_append, events_windowFrames, rectEvents, List.flatMap_replicate]
  rfl

theorem length_rectFrames (K : Config) (m : Mode) (r : Rect) (color : U32) :
    (rectFrames K m r color).length = 5 + pixelFrames K m (r.w * r.h) := by
  rw [rectFrames, List.length_append, List.length_replicate]
  rfl

/-- Data for the memory-write command leave the window and the pixel format as they were (R48). -/
theorem Sink.data_window_format_of_ramwr {K : Config} {z : Sink} (hK : K.Wf) (bs : List Byte)
    (hl : z.latched = some K.CMD_RAMWR) : (z.data K bs).window = z.window ∧ (z.data K bs).format = z.format := by
  by_cases hbs : bs = []
  · simp [hbs]
  rw [Sink.data_of_ramwr hK hbs hl]
  unfold Sink.pixelData
  split <;> exact ⟨rfl, rfl⟩

/-- A stream of equal data frames leaves the window, the pixel format and the latched command as they were. -/
theorem foldl_receive_pixels {K : Config} {z : Sink} (hK : K.Wf) (m : Mode) (n : Nat) (bs : List Byte)
    (hl : z.latched = some K.CMD_RAMWR) :
    let z' := (List.replicate n (WireFrame.data bs)).foldl (Sink.receive K m) z
    z'.latched = some K.CMD_RAMWR ∧ z'.window = z.window ∧ z'.format = z.format := by
  induction n generalizing z with
  | zero => exact ⟨hl, rfl, rfl⟩
  | succ n ih =>
    obtain ⟨hwindow, hformat⟩ := Sink.data_window_format_of_ramwr hK bs hl
    rw [← hwindow, ← hformat]
    exact ih (z := z.data K bs) ((Sink.data_latched K bs z).trans hl)

/-! ## A draw that the link carries, read by the sink -/

/-- A draw in its admitted subset, and then as many steps as it has frames: the sink has received them, and the wire is
empty. -/
theorem run_drawSolidRect {s t : State} {x y w h : U16} {color : U32} (hK : s.K.Wf) (hm : s.mode ≠ .unset)
    (hwire : s.wire = []) (hadmitted : rectAdmitted s.K (rectOf x y w h) = true)
    (hlink : s.linkCarries (rectTransfers s.K s.mode (rectOf x y w h)) = true)
    (ht : exec (.drawSolidRect x y w h color) s = .next t) :
    Sys2Proof.core.run (rectTransfers s.K s.mode (rectOf x y w h)) t = .next { t with
      wire := []
      sink := (rectFrames s.K s.mode (clamp s.K (rectOf x y w h)) color).foldl (Sink.receive s.K s.mode) s.sink } := by
  obtain ⟨hready, -⟩ := exec_host_next rfl ht
  obtain ⟨hw, hh, -⟩ := rectAdmitted_iff.mp hadmitted
  rw [exec_drawSolidRect_of_admitted color (.inr hadmitted),
    operation_drawSolidRect_of_carries color hK hready hm hw hh hlink] at ht
  obtain rfl := Host.Outcome.next.inj ht
  rw [rectTransfers, ← length_rectFrames s.K s.mode (clamp s.K (rectOf x y w h)) color]
  refine run_wireFrames hK hready ?_
  rw [events_rectFrames, hwire, List.append_nil]
  rfl

/-- The far corner of a clamped rectangle is on the surface (43_rasterizer.md R122). -/
theorem clamp_far_corner {K : Config} (hW : 1 ≤ K.WIDTH.toNat) (hH : 1 ≤ K.HEIGHT.toNat) {r : Rect} (hw : 1 ≤ r.w)
    (hh : 1 ≤ r.h) :
    (clamp K r).x ≤ (clamp K r).x + (clamp K r).w - 1 ∧ (clamp K r).x + (clamp K r).w - 1 < K.WIDTH.toNat ∧
    (clamp K r).y ≤ (clamp K r).y + (clamp K r).h - 1 ∧ (clamp K r).y + (clamp K r).h - 1 < K.HEIGHT.toNat := by
  obtain ⟨-, -, hright, hbottom⟩ := clamp_fits hW hH r
  obtain ⟨hwpos, hhpos⟩ := clamp_pos hW hH hw hh
  omega

/-- Settles O58: the frames of the window program it, and those of the pixels leave it alone. -/
theorem drawnWindowIsTheClampedRect : Obligations.DrawnWindowIsTheClampedRect := by
  intro s t x y w h color hK hm _ hwire hadmitted r n hlink ht
  have ⟨hW, hH, _⟩ := hK
  obtain ⟨hw, hh, -⟩ := rectAdmitted_iff.mp hadmitted
  refine ⟨_, run_drawSolidRect hK hm hwire hadmitted hlink ht, rfl, rfl, ?_⟩
  obtain ⟨hlatched, hwindow, -⟩ := foldl_receive_pixels hK s.mode n (pack s.mode color) (z := s.sink.armed s.K s.mode
    (BitVec.ofNat 16 r.x) (BitVec.ofNat 16 r.y) (BitVec.ofNat 16 (r.x + r.w - 1)) (BitVec.ofNat 16 (r.y + r.h - 1))) rfl
  rw [rectFrames, List.foldl_append, foldl_receive_windowFrames hK]
  exact ⟨hwindow, hlatched, clamp_far_corner hW hH hw hh⟩

/-! ## What a draw paints -/

/-- The frame memory `m` is `before` with the first `n` pixels of a window painted `bs`. -/
structure Memory.Painted (m before : Memory) (xs xe ys : U16) (bs : List Byte) (n : Nat) : Prop where
  wf : m.wf
  inside : ∀ j < n, m.read (pixelPlace xs xe ys j) = some bs
  outside : ∀ a, (∀ j < n, a ≠ pixelPlace xs xe ys j) → m.read a = before.read a

theorem Memory.Painted.zero {m : Memory} (hm : m.wf) (xs xe ys : U16) (bs : List Byte) : m.Painted m xs xe ys bs 0 where
  wf := hm
  inside := fun _ hj => absurd hj (Nat.not_lt_zero _)
  outside := fun _ _ => rfl

/-- A stream of `k` equal pixels in a window. -/
def Stream.uniform (xs xe ys ye : U16) (m : Mode) (bs : List Byte) (k : Nat) : Stream :=
  ⟨some xs, some xe, some ys, some ye, m, (List.replicate k bs).flatten⟩

section
variable {K : Config} {xs xe ys ye : U16} {mode : Mode} {bs : List Byte} {before : Memory} {k : Nat}

theorem Stream.uniform_succ : Stream.uniform xs xe ys ye mode bs (k + 1) =
    { Stream.uniform xs xe ys ye mode bs k with bytes := (Stream.uniform xs xe ys ye mode bs k).bytes ++ bs } := by
  simp only [Stream.uniform, List.replicate_succ', List.flatten_append, List.flatten_singleton]

/-- One more pixel of a stream of equal pixels lands at the next place (R49). -/
theorem Memory.Painted.land {m : Memory} (hpainted : m.Painted before xs xe ys bs k) (hbs : bs ≠ [])
    (hroom : k < (xe.toNat + 1 - xs.toNat) * (ye.toNat + 1 - ys.toNat)) :
    ((Stream.uniform xs xe ys ye mode bs k).land (some bs.length) bs m).Painted before xs xe ys bs (k + 1) := by
  generalize hst : Stream.uniform xs xe ys ye mode bs k = st
  obtain ⟨hxs, hxe, hys, hye⟩ : st.xs = some xs ∧ st.xe = some xe ∧ st.ys = some ys ∧ st.ye = some ye := by
    rw [← hst]
    exact ⟨rfl, rfl, rfl, rfl⟩
  have hp : 0 < bs.length := List.length_pos_iff.mpr hbs
  have hlen : st.bytes.length = k * bs.length := by simp [← hst, Stream.uniform]
  have hall : (st.bytes ++ bs).length = (k + 1) * bs.length := by rw [List.length_append, hlen, Nat.succ_mul]
  have hfit : (st.bytes ++ bs).length ≤ (xe.toNat + 1 - xs.toNat) * (ye.toNat + 1 - ys.toNat) * bs.length :=
    hall ▸ Nat.mul_le_mul_right _ hroom
  have hfirst : st.bytes.length / bs.length = k := by rw [hlen, Nat.mul_div_cancel _ hp]
  have hlast : (st.bytes ++ bs).length / bs.length = k + 1 := by rw [hall, Nat.mul_div_cancel _ hp]
  have hother {a : Nat} (ha : a ≠ pixelPlace xs xe ys k) : (st.land (some bs.length) bs m).read a = m.read a := by
    refine Stream.land_read_other hpainted.wf hp hxs hxe hys hye hfit fun j h1 h2 => ?_
    have hj : j < k + 1 := Nat.lt_of_mul_lt_mul_right (hall ▸ h2)
    rwa [show j = k by omega]
  refine ⟨Stream.land_wf _ _ _ hpainted.wf, fun j hj => ?_, fun a ha => ?_⟩
  · rcases Nat.lt_succ_iff_lt_or_eq.mp hj with hj | rfl
    · have hwidth : 0 < xe.toNat + 1 - xs.toNat := Nat.pos_of_ne_zero fun h0 => by simp [h0] at hroom
      rw [hother fun hplace => Nat.ne_of_lt hj (pixelPlace_inj hwidth hplace), hpainted.inside j hj]
    · have hpixel := Stream.land_read_same hpainted.wf hp hbs hxs hxe hys hye hfit hfirst.le (hlast ▸ Nat.lt_succ_self j)
      rwa [← hlen, List.drop_left, List.take_length] at hpixel
  · rw [hother (ha k (Nat.lt_succ_self k)), hpainted.outside a fun j hj => ha j (Nat.lt_succ_of_lt hj)]

/-- `n` more frames of one pixel each, for a stream whose pixel size is known (R49, R193). -/
theorem foldl_receive_pixels_painted {z : Sink} {streams : List Stream} (hK : K.Wf) (m : Mode) (n : Nat)
    (hpainted : z.mem.Painted before xs xe ys bs k) (hl : z.latched = some K.CMD_RAMWR)
    (hs : z.streams = streams ++ [.uniform xs xe ys ye mode bs k]) (hformat : z.format = some (modeByte K mode))
    (hsize : pixelSize mode = some bs.length) (hroom : n + k ≤ (xe.toNat + 1 - xs.toNat) * (ye.toNat + 1 - ys.toNat)) :
    ((List.replicate n (WireFrame.data bs)).foldl (Sink.receive K m) z).mem.Painted before xs xe ys bs (n + k) := by
  induction n generalizing z k with
  | zero => rwa [Nat.zero_add]
  | succ n ih =>
    have hbs : bs ≠ [] := List.length_pos_iff.mp (pixelSize_pos hsize)
    have hcut : z.streamSize K (.uniform xs xe ys ye mode bs k) = some bs.length :=
      (Sink.streamSize_of_format hformat).trans hsize
    have hdata : z.receive K m (.data bs) = _ := Sink.data_of_stream hK hbs hl hs
    rw [hcut, ← Stream.uniform_succ] at hdata
    rw [List.replicate_succ, List.foldl_cons, hdata, Nat.succ_add_eq_add_succ]
    exact ih (hpainted.land hbs (by omega)) hl rfl hformat (by omega)

/-- The places of the pixels of a window are those of the pixels inside it (R46, R49). -/
theorem exists_pixelPlace_iff {column row height : Nat} (hcolumn : column < 65536) :
    (∃ j < (xe.toNat + 1 - xs.toNat) * height, pixelKey column row = pixelPlace xs xe ys j) ↔
      xs.toNat ≤ column ∧ column ≤ xe.toNat ∧ ys.toNat ≤ row ∧ row < ys.toNat + height := by
  have hxe := xe.isLt
  constructor
  · rintro ⟨j, hj, hplace⟩
    have hwidth : 0 < xe.toNat + 1 - xs.toNat := Nat.pos_of_ne_zero fun h0 => by simp [h0] at hj
    have hmod := Nat.mod_lt j hwidth
    have hdiv := Nat.div_lt_of_lt_mul hj
    unfold pixelPlace pixelKey at hplace
    generalize j % (xe.toNat + 1 - xs.toNat) = i at hplace hmod
    generalize j / (xe.toNat + 1 - xs.toNat) = l at hplace hdiv
    omega
  · rintro ⟨hleft, hright, htop, hbottom⟩
    have hin : column - xs.toNat < xe.toNat + 1 - xs.toNat := by omega
    refine ⟨(xe.toNat + 1 - xs.toNat) * (row - ys.toNat) + (column - xs.toNat), ?_, ?_⟩
    · calc _ < (xe.toNat + 1 - xs.toNat) * (row - ys.toNat + 1) := by rw [Nat.mul_succ]; omega
        _ ≤ _ := Nat.mul_le_mul_left _ (by omega)
    · rw [pixelPlace, Nat.mul_add_mod, Nat.mod_eq_of_lt hin, Nat.mul_add_div (by omega), Nat.div_eq_of_lt hin]
      unfold pixelKey
      omega

end

/-- In the two modes whose pixel size is known it is the length of the packed pixel (R49, 41_color_mode.md R103). -/
theorem pixelSize_eq_length_pack {m : Mode} (hm : m = .b16 ∨ m = .b16t) (color : U32) :
    pixelSize m = some (pack m color).length := by
  rcases hm with rfl | rfl <;> rfl

/-- Outside 12-bit mode every pixel has its frame (43_rasterizer.md R124). -/
theorem pixelFrames_of_ne_b12 (K : Config) {m : Mode} (hm : m ≠ .b12) (n : Nat) : pixelFrames K m n = n :=
  if_neg fun h => hm h.1

/-- The bounds of a rectangle with a pixel are `u16`. -/
theorem rect_bounds_toNat {r : Rect} (hw : 1 ≤ r.w) (hh : 1 ≤ r.h) (hx : r.x + r.w ≤ 65535) (hy : r.y + r.h ≤ 65535) :
    (BitVec.ofNat 16 r.x).toNat = r.x ∧ (BitVec.ofNat 16 (r.x + r.w - 1)).toNat = r.x + r.w - 1 ∧
    (BitVec.ofNat 16 r.y).toNat = r.y ∧ (BitVec.ofNat 16 (r.y + r.h - 1)).toNat = r.y + r.h - 1 := by
  simp only [BitVec.toNat_ofNat]
  omega

section
variable {r : Rect} (hw : 1 ≤ r.w) (hh : 1 ≤ r.h) (hx : r.x + r.w ≤ 65535) (hy : r.y + r.h ≤ 65535)
include hw hh hx hy

/-- The pixels of the window of a rectangle are those of the rectangle. -/
theorem exists_pixelPlace_rect_iff {column row : Nat} (hcolumn : column < 65536) :
    (∃ j < r.w * r.h, pixelKey column row =
        pixelPlace (BitVec.ofNat 16 r.x) (BitVec.ofNat 16 (r.x + r.w - 1)) (BitVec.ofNat 16 r.y) j) ↔
      r.x ≤ column ∧ column < r.x + r.w ∧ r.y ≤ row ∧ row < r.y + r.h := by
  obtain ⟨hleft, hright, htop, -⟩ := rect_bounds_toNat hw hh hx hy
  have hwidth : r.x + r.w - 1 + 1 - r.x = r.w := by omega
  have hlast : column ≤ r.x + r.w - 1 ↔ column < r.x + r.w := by omega
  have hiff := exists_pixelPlace_iff (xs := BitVec.ofNat 16 r.x) (xe := BitVec.ofNat 16 (r.x + r.w - 1))
    (ys := BitVec.ofNat 16 r.y) (row := row) (height := r.h) hcolumn
  rwa [hleft, hright, htop, hwidth, hlast] at hiff

/-- The sink has received the frames of a rectangle: its pixels are painted, and no other. -/
theorem foldl_receive_rectFrames_painted {K : Config} {m : Mode} {z : Sink} (color : U32) (hK : K.Wf)
    (hm : m = .b16 ∨ m = .b16t) (hz : z.mem.wf) (hformat : z.format = some (modeByte K m)) :
    ((rectFrames K m r color).foldl (Sink.receive K m) z).mem.Painted z.mem (BitVec.ofNat 16 r.x)
      (BitVec.ofNat 16 (r.x + r.w - 1)) (BitVec.ofNat 16 r.y) (pack m color) (r.w * r.h) := by
  have hb12 : m ≠ .b12 := by rintro rfl; simp at hm
  rw [rectFrames, List.foldl_append, foldl_receive_windowFrames hK, pixelFrames_of_ne_b12 K hb12]
  refine foldl_receive_pixels_painted (z := z.armed K m _ _ _ _) (mode := m) (k := 0) hK m _ (.zero hz _ _ _ _) rfl rfl
    hformat (pixelSize_eq_length_pack hm color) ?_
  obtain ⟨hleft, hright, htop, hbottom⟩ := rect_bounds_toNat hw hh hx hy
  rw [hleft, hright, htop, hbottom, Nat.add_zero, show r.x + r.w - 1 + 1 - r.x = r.w by omega,
    show r.y + r.h - 1 + 1 - r.y = r.h by omega]

end

/-- Settles O59: the places of the pixels of the window are the pixels of the rectangle. -/
theorem drawPaintsTheClampedRect : Obligations.DrawPaintsTheClampedRect := by
  intro s t x y w h color hK hm _ hwire hz _ hformat hadmitted r hlink ht
  have ⟨hW, hH, _⟩ := hK
  obtain ⟨hw, hh, -⟩ := rectAdmitted_iff.mp hadmitted
  obtain ⟨hwpos, hhpos⟩ : 1 ≤ r.w ∧ 1 ≤ r.h := clamp_pos hW hH hw hh
  obtain ⟨-, -, hright, hbottom⟩ := clamp_fits hW hH (rectOf x y w h)
  have hx : r.x + r.w ≤ 65535 := hright.trans (Nat.le_of_lt_succ s.K.WIDTH.isLt)
  have hy : r.y + r.h ≤ 65535 := hbottom.trans (Nat.le_of_lt_succ s.K.HEIGHT.isLt)
  have hset : s.mode ≠ .unset ∧ s.mode ≠ .b12 := by rcases hm with hm | hm <;> simp [hm]
  have htransfers : rectTransfers s.K s.mode (rectOf x y w h) = 5 + r.w * r.h := by
    rw [rectTransfers, pixelFrames_of_ne_b12 _ hset.2]
  rw [← htransfers] at hlink ⊢
  have hpainted := foldl_receive_rectFrames_painted hwpos hhpos hx hy color hK hm hz hformat
  refine ⟨_, run_drawSolidRect hK hset.1 hwire hadmitted hlink ht, rfl, fun column row hcolumn _ => ?_⟩
  have hplaces := exists_pixelPlace_rect_iff hwpos hhpos hx hy (row := row) hcolumn
  refine ⟨fun hin => ?_, fun hout => hpainted.outside _ fun j hj hplace => hout (hplaces.mp ⟨j, hj, hplace⟩)⟩
  obtain ⟨j, hj, hplace⟩ := hplaces.mpr hin
  rw [hplace]
  exact hpainted.inside j hj

end Sys2Proof.Machine

/-! SUPPORT. The Lifecycle Controller, 44_lifecycle.md: what its operations send and leave (R135 to R142), and `bringUp`,
which runs them in order around a fill of the surface (R145). Only the mode store of step 4 and the fill of step 8 store
anything: the mode is that of the one store, and the latches are those of the fill, whatever stands before it. -/

namespace Sys2Proof.Machine

/-! ## Operations without a transfer -/

/-- Every link carries a script without a transfer (60_exceptions.md R166). -/
theorem State.linkCarries_zero (s : State) : s.linkCarries 0 = true := by
  unfold State.linkCarries
  cases s.link with
  | none => rfl
  | some f => exact decide_eq_true (Nat.zero_le _)

theorem linkAfter_zero (link : Option LinkFailure) : linkAfter link 0 = link := by
  cases link <;> rfl

/-- An accepted operation whose script stores nothing and has no transfer leaves its events and the answer, whatever the
link would do. -/
theorem operation_of_no_transfer {s : State} {acts : List Act} (hready : s.Ready) (hstores : Stores [] false acts)
    (htransfers : transfers acts = 0) :
    operation s acts = .next { s with
      pins := (scriptEvents acts).foldl Pins.drive s.pins
      trace := s.trace ++ scriptEvents acts
      wire := s.wire ++ scriptEvents acts
      responses := s.responses ++ [.done none] } := by
  rw [operation_of_stores_nothing hready hstores (htransfers ▸ s.linkCarries_zero), htransfers, linkAfter_zero]

theorem scriptEvents_hardReset : scriptEvents hardReset =
    [.cs false, .rst true, .delay 50, .rst false, .delay 50, .rst true, .delay 150, .cs true] := rfl

theorem transfers_hardReset : transfers hardReset = 0 := rfl

theorem foldl_drive_hardReset (p : Pins) :
    (scriptEvents hardReset).foldl Pins.drive p = { p with cs := true, rst := true } := rfl

theorem scriptEvents_setBacklight (on : Bit) : scriptEvents (setBacklight on) = [.bl on] := rfl

theorem transfers_setBacklight (on : Bit) : transfers (setBacklight on) = 0 := rfl

theorem stores_setBacklight {ms : List Mode} {latches : Bool} (on : Bit) : Stores ms latches (setBacklight on) :=
  .cons trivial .nil

/-- Settles O27: the script stores nothing and has no transfer. -/
theorem hardResetPulses : Obligations.HardResetPulses := by
  intro s hready
  have hdone : exec .hardReset s = _ := operation_of_no_transfer hready stores_hardReset transfers_hardReset
  rwa [foldl_drive_hardReset, scriptEvents_hardReset] at hdone

/-- Settles O30: the script stores nothing and has no transfer. -/
theorem setBacklightDrivesLine : Obligations.SetBacklightDrivesLine := by
  intro s on hready
  have hdone : exec (.setBacklight on) s = _ :=
    operation_of_no_transfer hready (stores_setBacklight on) (transfers_setBacklight on)
  rwa [scriptEvents_setBacklight] at hdone

/-! ## Operations of a command -/

/-- Settles O29: each operation's script is that of `sendCommand` of its code. -/
theorem singleCommandOperations : Obligations.SingleCommandOperations := by
  intro s hready hlink sent
  have hsent (c : Byte) : exec (.sendCommand c) s = .next (sent c) := sendCommandFrame s c hready hlink
  exact ⟨hsent s.K.CMD_SLPIN, hsent s.K.CMD_SLPOUT, hsent s.K.CMD_INVON, hsent s.K.CMD_INVOFF, hsent s.K.CMD_DISPON,
    hsent s.K.CMD_DISPOFF, hsent s.K.CMD_NORON⟩

theorem scriptEvents_softReset (K : Config) :
    scriptEvents (softReset K) = cmdFrameEvents K.CMD_SWRESET ++ [.delay 150] := rfl

theorem transfers_softReset (K : Config) : transfers (softReset K) = 1 := rfl

/-- A `softReset` whose transfer fails stops inside the command's frame, before the delay. -/
theorem progress_softReset_of_failed (K : Config) (k : Nat) : progress (some ⟨0, k, false⟩) (softReset K) =
    ⟨[.emit (.cs false), .emit (.dc false), .xfer ([K.CMD_SWRESET].take k)], .failed ([K.CMD_SWRESET].take k).length,
      none⟩ := rfl

/-- Settles O28: the script stores nothing, and its delay stands after its one frame. -/
theorem softResetWaits : Obligations.SoftResetWaits := by
  intro s hready
  refine ⟨fun hlink => ?_, fun k hlink => ?_⟩
  · have hdone : exec .softReset s = _ := operation_of_stores_nothing hready (stores_softReset s.K) hlink
    rwa [scriptEvents_softReset, List.foldl_append, cmdFrameEvents, foldl_drive_frame] at hdone
  · have hprogress := progress_softReset_of_failed s.K k
    rw [← hlink] at hprogress
    have hexec : exec .softReset s = .next (s.operate (softReset s.K) none) := operation_of_ready hready _
    rw [operate_of_failed (before := []) none hprogress, scriptEvents_nil, List.nil_append, ← List.append_assoc,
      List.map_take] at hexec
    exact ⟨_, hexec, rfl, rfl, rfl⟩

theorem scriptEvents_setRotation (K : Config) (rot : Rot) : scriptEvents (setRotation K rot) =
    cmdFrameEvents K.CMD_MADCTL ++ dataFrameEvents [rotByte K rot] := rfl

theorem transfers_setRotation (K : Config) (rot : Rot) : transfers (setRotation K rot) = 2 := rfl

/-- Settles O31: the script stores nothing; its two frames are the command and the rotation's byte. -/
theorem setRotationSendsByte : Obligations.SetRotationSendsByte := by
  intro s rot hready hlink b
  have hbyte : rotByte s.K rot = b := by cases rot <;> rfl
  have hdone : exec (.setRotation rot) s = _ := operation_of_stores_nothing hready (stores_setRotation s.K rot) hlink
  rwa [scriptEvents_setRotation, hbyte, List.foldl_append, cmdFrameEvents, dataFrameEvents, foldl_drive_frame,
    foldl_drive_frame] at hdone

/-! ## The fill of the surface -/

/-- The events of the whole surface, whose last column and last row are `WIDTH - 1` and `HEIGHT - 1` (R125). -/
theorem rectEvents_surface {K : Config} (hW : 1 ≤ K.WIDTH.toNat) (hH : 1 ≤ K.HEIGHT.toNat) (m : Mode) (color : U32) :
    rectEvents K m (surface K) color = windowEvents K 0 0 (K.WIDTH - 1) (K.HEIGHT - 1) ++
      (List.replicate (pixelFrames K m (K.WIDTH.toNat * K.HEIGHT.toNat)) (dataFrameEvents (pack m color))).flatten := by
  simp only [rectEvents, surface, ofNat_toNat_sub_one hW, ofNat_toNat_sub_one hH]
  rfl

/-- `fill` in a set colour mode: its events, its transfers, and the latches it leaves whatever they were before. -/
theorem fill_spec {K : Config} (hK : K.Wf) {m : Mode} (hm : m ≠ .unset) (color : U32) :
    scriptEvents (fill K m color) = rectEvents K m (surface K) color ∧
    transfers (fill K m color) = 5 + pixelFrames K m (K.WIDTH.toNat * K.HEIGHT.toNat) ∧
    ∀ s : State, ((fill K m color).foldl Act.apply s).op = ⟨0, 0, K.WIDTH, K.HEIGHT, color, pack m color, 0⟩ := by
  obtain ⟨hW, hH, -⟩ := hK
  have hclamp : clamp K (surface K) = surface K := clamp_surface ⟨hW, hH⟩
  obtain ⟨hevents, htransfers, hregisters⟩ := streamRect_spec hW hH hm (r := surface K) color hW hH
  rw [fill, drawSolidRect_of_set hm]
  refine ⟨by rw [hevents, hclamp], by rw [htransfers, rectTransfers, hclamp]; rfl, fun s => ?_⟩
  rw [(hregisters s).2, hclamp]
  simp only [surface, BitVec.ofNat_toNat, BitVec.setWidth_eq]
  rfl

/-! ## The ten steps -/

theorem foldl_bringUp_mode (K : Config) (s : State) : ((bringUp K).foldl Act.apply s).mode = K.INIT_MODE :=
  List.mem_singleton.mp (foldl_apply_mode_of_mem (stores_bringUp (List.mem_singleton_self _)) (setMode_mem_bringUp K) s)

section
variable {K : Config} (hK : K.Wf)
include hK

theorem scriptEvents_bringUp : scriptEvents (bringUp K) =
    scriptEvents hardReset ++ scriptEvents (softReset K) ++ cmdFrameEvents K.CMD_SLPOUT
      ++ scriptEvents (setBpp K K.INIT_MODE) ++ scriptEvents (setRotation K K.INIT_ROT) ++ cmdFrameEvents K.CMD_INVON
      ++ cmdFrameEvents K.CMD_NORON ++ rectEvents K K.INIT_MODE (surface K) K.INIT_COLOR ++ [.bl true]
      ++ cmdFrameEvents K.CMD_DISPON := by
  have ⟨_, _, hm, _⟩ := hK
  obtain ⟨hfill, -, -⟩ := fill_spec hK hm K.INIT_COLOR
  simp only [bringUp, scriptEvents_append, hfill]
  rfl

theorem transfers_bringUp :
    transfers (bringUp K) = 14 + pixelFrames K K.INIT_MODE (K.WIDTH.toNat * K.HEIGHT.toNat) := by
  have ⟨_, _, hm, _⟩ := hK
  obtain ⟨-, hfill, -⟩ := fill_spec hK hm K.INIT_COLOR
  simp only [bringUp, transfers_append, transfers_hardReset, transfers_softReset, setSleepMode, transfers_setBpp,
    transfers_setRotation, setInversionMode, setNormalMode, hfill, transfers_setBacklight, setDisplay,
    transfers_sendCommand]
  omega

/-- `hardReset` raises the reset line, step 9 the backlight line, and the frame of step 10 is a command's: no other step
writes the first two, and what the others leave on chip-select and the selector is written again. -/
theorem foldl_drive_bringUp (p : Pins) :
    (scriptEvents (bringUp K)).foldl Pins.drive p = ⟨true, false, true, true⟩ := by
  simp only [scriptEvents_bringUp hK, List.foldl_append, foldl_drive_hardReset, scriptEvents_softReset,
    scriptEvents_setBpp, scriptEvents_setRotation, cmdFrameEvents, dataFrameEvents, foldl_drive_frame,
    foldl_drive_rectEvents, List.foldl_cons, List.foldl_nil, Pins.drive_delay, Pins.drive_bl]

/-- Nothing is loaded after the fill. -/
theorem foldl_bringUp_op (s : State) : ((bringUp K).foldl Act.apply s).op =
    ⟨0, 0, K.WIDTH, K.HEIGHT, K.INIT_COLOR, pack K.INIT_MODE K.INIT_COLOR, 0⟩ := by
  have ⟨_, _, hm, _⟩ := hK
  obtain ⟨-, -, hfill⟩ := fill_spec hK hm K.INIT_COLOR
  have hbacklight : Stores [] false (setBacklight true) := stores_setBacklight true
  have hdisplay : Stores [] false (setDisplay K true) := stores_sendCommand _
  rw [bringUp, List.foldl_append, foldl_apply_op_of_stores hdisplay, List.foldl_append,
    foldl_apply_op_of_stores hbacklight, List.foldl_append, hfill]

end

/-- Settles O32: the events are those of the ten scripts, and the registers those of the store and of the fill. -/
theorem bringUpTenSteps : Obligations.BringUpTenSteps := by
  intro s hK hready n evs hlink
  have ⟨hW, hH, _⟩ := hK
  have hevents : scriptEvents (bringUp s.K) = evs := by
    rw [scriptEvents_bringUp hK, rectEvents_surface hW hH]
    rfl
  have htransfers : transfers (bringUp s.K) = 14 + n := transfers_bringUp hK
  have hdone : exec .bringUp s = _ := operation_of_carries (acts := bringUp s.K) hready (htransfers ▸ hlink)
  rwa [foldl_bringUp_mode, foldl_bringUp_op hK, foldl_drive_bringUp hK, hevents, htransfers] at hdone

end Sys2Proof.Machine

/-! SUPPORT. The Text Renderer, 45_text.md: the cursor and the calls in closed form, from a bit column up to a line (R150,
R152), the texts that are refused (R152, R156), what an admitted text draws (R155), and the style setters (R153). The
renderer adds to what it has drawn and never looks back at it, so that a text's pen is that of its first part followed by
that of the rest. -/

namespace Sys2Proof.Machine

/-! ## Pens one after another -/

/-- Whether the values `x` and `y` of the cursor fit `u16` (R152). -/
def fitsU16 (x y : Nat) : Bool := decide (x ≤ 65535 ∧ y ≤ 65535)

theorem fitsU16_and_fitsU16 (x y x' y' : Nat) : (fitsU16 x y && fitsU16 x' y') = fitsU16 (max x x') (max y y') := by
  rw [Bool.eq_iff_iff]
  simp only [fitsU16, Bool.and_eq_true, decide_eq_true_eq]
  omega

/-- The pen before a text: at `(x, y)`, with nothing drawn. -/
def Pen.fresh (x y : Nat) : Pen := ⟨x, y, true, []⟩

/-- The pen `t` after it has gone on to do what `u` did. -/
def Pen.andThen (t u : Pen) : Pen := ⟨u.renderX, u.renderY, t.within && u.within, u.calls ++ t.calls⟩

@[simp] theorem Pen.andThen_renderX (t u : Pen) : (t.andThen u).renderX = u.renderX := rfl
@[simp] theorem Pen.andThen_renderY (t u : Pen) : (t.andThen u).renderY = u.renderY := rfl
@[simp] theorem Pen.andThen_within (t u : Pen) : (t.andThen u).within = (t.within && u.within) := rfl
@[simp] theorem Pen.andThen_calls (t u : Pen) : (t.andThen u).calls = u.calls ++ t.calls := rfl

theorem Pen.andThen_assoc (t u v : Pen) : (t.andThen u).andThen v = t.andThen (u.andThen v) := by
  simp [Pen.andThen, Bool.and_assoc]

theorem Pen.fresh_andThen (x y : Nat) (t : Pen) : (Pen.fresh x y).andThen t = t := by
  simp [Pen.andThen, Pen.fresh]

theorem Pen.andThen_fresh (t : Pen) : t.andThen (.fresh t.renderX t.renderY) = t := by
  simp [Pen.andThen, Pen.fresh]

theorem Pen.moveTo_eq (t : Pen) (x y : Nat) : t.moveTo x y = t.andThen ⟨x, y, fitsU16 x y, []⟩ := by
  simp [Pen.moveTo, Pen.andThen, fitsU16, Bool.and_assoc, Bool.decide_and]

/-! ## One character -/

/-- The calls of one glyph row, in a cell whose corner is `(x, y)` (R152, R155). -/
def rowCalls (st : Style) (g : Glyph) (x y row : Nat) : List DrawCall :=
  [7, 6, 5, 4, 3, 2, 1, 0].filterMap (cellCall st g x y row)

/-- The calls of one character, in a cell whose corner is `(x, y)` (R152, R155). -/
def glyphCalls (st : Style) (g : Glyph) (x y : Nat) : List DrawCall :=
  [0, 1, 2, 3, 4, 5, 6, 7].flatMap (rowCalls st g x y)

section
variable (st : Style) (g : Glyph)

/-- A bit column, when the pen stands at its place in the cell whose corner is `(x, y)`. -/
theorem Pen.column_eq {t : Pen} {x y row col : Nat} (hx : t.renderX = x + (7 - col) * st.sx)
    (hy : t.renderY = y + row * st.sy) :
    Pen.column st g row t col = t.andThen ⟨t.renderX + st.sx, t.renderY, fitsU16 (t.renderX + st.sx) t.renderY,
      (cellCall st g x y row col).toList⟩ := by
  unfold Pen.column cellCall
  rw [← hx, ← hy]
  split
  · simp [Pen.moveTo_eq, Pen.block, Pen.andThen]
  · cases st.bg <;> simp [Pen.moveTo_eq, Pen.block, Pen.andThen]

/-- The bit columns from `n` down to 0, the pen standing at the place of the first. -/
theorem Pen.foldl_column_eq {t : Pen} {x y row n : Nat} (hn : n ≤ 7) (hx : t.renderX = x + (7 - n) * st.sx)
    (hy : t.renderY = y + row * st.sy) :
    (List.range (n + 1)).reverse.foldl (Pen.column st g row) t = t.andThen ⟨x + 8 * st.sx, t.renderY,
      fitsU16 (x + 8 * st.sx) t.renderY, ((List.range (n + 1)).reverse.filterMap (cellCall st g x y row)).reverse⟩ := by
  induction n generalizing t with
  | zero =>
    have hend : t.renderX + st.sx = x + 8 * st.sx := by omega
    rw [List.range_one, List.reverse_singleton, List.foldl_cons, List.foldl_nil, Pen.column_eq st g hx hy, hend]
    cases h : cellCall st g x y row 0 <;> simp [h]
  | succ n ih =>
    have hnext : t.renderX + st.sx = x + (7 - n) * st.sx := by
      rw [hx, Nat.add_assoc, ← Nat.succ_mul, show (7 - (n + 1)).succ = 7 - n by omega]
    have hle : t.renderX + st.sx ≤ x + 8 * st.sx := by
      rw [hnext]
      exact Nat.add_le_add_left (Nat.mul_le_mul_right _ (by omega)) _
    rw [List.range_succ, List.reverse_append, List.reverse_singleton, List.singleton_append, List.foldl_cons,
      Pen.column_eq st g hx hy, ih (Nat.le_of_succ_le hn), Pen.andThen_assoc, List.filterMap_cons]
    · cases cellCall st g x y row (n + 1) <;> simp [Pen.andThen, fitsU16_and_fitsU16, hle]
    · exact hnext
    · exact hy

/-- A glyph row, when the pen stands at its left edge in the cell whose top is `y`. -/
theorem Pen.row_eq {t : Pen} {y row : Nat} (hy : t.renderY = y + row * st.sy) :
    Pen.row st g t row = t.andThen ⟨t.renderX, y + (row + 1) * st.sy,
      fitsU16 (t.renderX + 8 * st.sx) (y + (row + 1) * st.sy), (rowCalls st g t.renderX y row).reverse⟩ := by
  have hcolumns : [7, 6, 5, 4, 3, 2, 1, 0].foldl (Pen.column st g row) t = t.andThen ⟨t.renderX + 8 * st.sx, t.renderY,
      fitsU16 (t.renderX + 8 * st.sx) t.renderY, (rowCalls st g t.renderX y row).reverse⟩ :=
    Pen.foldl_column_eq st g (x := t.renderX) (n := 7) le_rfl (by simp) hy
  have hbelow : t.renderY + st.sy = y + (row + 1) * st.sy := by rw [hy, Nat.succ_mul, Nat.add_assoc]
  rw [Pen.row, hcolumns, Pen.moveTo_eq, Pen.andThen_assoc, ← hbelow]
  simp [Pen.andThen, fitsU16_and_fitsU16]

/-- The rows from `row` to `row + n`, the pen standing at the left edge of the first in the cell whose top is `y`. -/
theorem Pen.foldl_row_eq {t : Pen} {y row n : Nat} (hy : t.renderY = y + row * st.sy) :
    (List.range' row (n + 1)).foldl (Pen.row st g) t = t.andThen ⟨t.renderX, y + (row + n + 1) * st.sy,
      fitsU16 (t.renderX + 8 * st.sx) (y + (row + n + 1) * st.sy),
      ((List.range' row (n + 1)).flatMap (rowCalls st g t.renderX y)).reverse⟩ := by
  induction n generalizing t row with
  | zero =>
    rw [List.range'_one, List.foldl_cons, List.foldl_nil, Pen.row_eq st g hy, List.flatMap_singleton, Nat.add_zero]
  | succ n ih =>
    have hlast : row + 1 + n + 1 = row + (n + 1) + 1 := by omega
    have hle : (row + 1) * st.sy ≤ (row + (n + 1) + 1) * st.sy := Nat.mul_le_mul_right _ (by omega)
    rw [List.range'_succ, List.foldl_cons, Pen.row_eq st g hy, ih (Pen.andThen_renderY ..), Pen.andThen_assoc,
      List.flatMap_cons, hlast]
    simp [Pen.andThen, fitsU16_and_fitsU16, hle]

end

/-- A covered character draws its glyph and goes on to the next cell (R150, R152). -/
theorem Pen.char_of_covered {K : Config} {st : Style} {x ch : Nat} (t : Pen) (hch : ch ≠ newline) {g : Glyph}
    (hg : fontGlyph K ch = some g) :
    Pen.char K st x t ch = t.andThen ⟨t.renderX + 8 * st.sx, t.renderY,
      fitsU16 (t.renderX + 8 * st.sx) (t.renderY + 8 * st.sy), (glyphCalls st g t.renderX t.renderY).reverse⟩ := by
  have hrows : [0, 1, 2, 3, 4, 5, 6, 7].foldl (Pen.row st g) t = t.andThen ⟨t.renderX, t.renderY + 8 * st.sy,
      fitsU16 (t.renderX + 8 * st.sx) (t.renderY + 8 * st.sy), (glyphCalls st g t.renderX t.renderY).reverse⟩ :=
    Pen.foldl_row_eq st g (y := t.renderY) (row := 0) (n := 7) (by simp)
  rw [Pen.char, if_neg hch, hg]
  simp [hrows, Pen.moveTo_eq, Pen.andThen, Bool.and_assoc, fitsU16_and_fitsU16]

/-! ## A text -/

theorem Pen.char_newline (K : Config) (st : Style) (x : Nat) (t : Pen) :
    Pen.char K st x t newline =
      t.andThen ⟨x, t.renderY + 8 * st.sy, fitsU16 x (t.renderY + 8 * st.sy), []⟩ := by
  rw [Pen.char, if_pos rfl, Pen.moveTo_eq]

theorem Pen.char_of_not_covered {K : Config} {st : Style} {x ch : Nat} (t : Pen) (hch : ch ≠ newline)
    (hg : fontGlyph K ch = none) : Pen.char K st x t ch = t := by
  rw [Pen.char, if_neg hch, hg]

section
variable (K : Config) (st : Style) (x : Nat)

/-- A character sees of the pen where it stands, and no more. -/
theorem Pen.char_eq_andThen (t : Pen) (ch : Nat) :
    Pen.char K st x t ch = t.andThen (Pen.char K st x (.fresh t.renderX t.renderY) ch) := by
  by_cases hch : ch = newline
  · rw [hch, Pen.char_newline, Pen.char_newline, Pen.fresh_andThen]
    rfl
  · cases hg : fontGlyph K ch with
    | none =>
      rw [Pen.char_of_not_covered _ hch hg, Pen.char_of_not_covered _ hch hg, Pen.andThen_fresh]
    | some g =>
      rw [Pen.char_of_covered _ hch hg, Pen.char_of_covered _ hch hg, Pen.fresh_andThen]
      rfl

/-- A text sees of the pen where it stands, and no more. -/
theorem Pen.foldl_char_eq_andThen (t : Pen) (text : List Nat) :
    text.foldl (Pen.char K st x) t = t.andThen (text.foldl (Pen.char K st x) (.fresh t.renderX t.renderY)) := by
  induction text generalizing t with
  | nil => exact (Pen.andThen_fresh t).symm
  | cons ch text ih =>
    rw [List.foldl_cons, List.foldl_cons, ih, Pen.char_eq_andThen, ih (Pen.char K st x (.fresh _ _) ch),
      ← Pen.andThen_assoc]
    rfl

variable {K st}

/-- The operand `x` is read at a newline only (R154). -/
theorem Pen.foldl_char_line_congr (x' : Nat) {line : List Nat} (hline : newline ∉ line) (t : Pen) :
    line.foldl (Pen.char K st x) t = line.foldl (Pen.char K st x') t := by
  refine List.foldl_ext _ _ _ fun t ch hch => ?_
  have hne : ch ≠ newline := ne_of_mem_of_not_mem hch hline
  simp only [Pen.char, if_neg hne]

/-- A line ends at the height at which it began (R152). -/
theorem Pen.foldl_char_line_renderY {line : List Nat} (hline : newline ∉ line) (t : Pen) :
    (line.foldl (Pen.char K st x) t).renderY = t.renderY := by
  induction line generalizing t with
  | nil => rfl
  | cons ch line ih =>
    obtain ⟨hch, hline⟩ := not_or.mp (List.mem_cons.not.mp hline)
    rw [List.foldl_cons, ih hline]
    cases hg : fontGlyph K ch with
    | none => rw [Pen.char_of_not_covered t (Ne.symm hch) hg]
    | some g => rw [Pen.char_of_covered t (Ne.symm hch) hg, Pen.andThen_renderY]

/-- One covered character. -/
theorem renderText_singleton {y ch : Nat} (hch : ch ≠ newline) {g : Glyph} (hg : fontGlyph K ch = some g) :
    renderText K st x y [ch] =
      ⟨x + 8 * st.sx, y, fitsU16 (x + 8 * st.sx) (y + 8 * st.sy), (glyphCalls st g x y).reverse⟩ := by
  have hchar : renderText K st x y [ch] = _ := Pen.char_of_covered (.fresh x y) hch hg
  rw [hchar, Pen.fresh_andThen]
  rfl

/-- A line after a covered character goes on in the next cell (R152). -/
theorem renderText_cons {y ch : Nat} (hch : ch ≠ newline) {g : Glyph} (hg : fontGlyph K ch = some g) {line : List Nat}
    (hline : newline ∉ line) :
    renderText K st x y (ch :: line) =
      (renderText K st x y [ch]).andThen (renderText K st (x + 8 * st.sx) y line) := by
  have hrest : renderText K st x y (ch :: line) = line.foldl (Pen.char K st x) (renderText K st x y [ch]) := rfl
  rw [hrest, Pen.foldl_char_eq_andThen, Pen.foldl_char_line_congr x (x + 8 * st.sx) hline,
    renderText_singleton x hch hg]
  rfl

/-- What follows a line and a newline starts at the operand `x`, one line further down (R152, R154). -/
theorem renderText_newline (y : Nat) {line : List Nat} (hline : newline ∉ line) (rest : List Nat) :
    renderText K st x y (line ++ newline :: rest) =
      ((renderText K st x y line).andThen ⟨x, y + 8 * st.sy, fitsU16 x (y + 8 * st.sy), []⟩).andThen
        (renderText K st x (y + 8 * st.sy) rest) := by
  have hheight : (renderText K st x y line).renderY = y := Pen.foldl_char_line_renderY x hline _
  have hrest : renderText K st x y (line ++ newline :: rest) =
      rest.foldl (Pen.char K st x) (Pen.char K st x (renderText K st x y line) newline) := List.foldl_append ..
  rw [hrest, Pen.char_newline, Pen.foldl_char_eq_andThen, hheight]
  rfl

end

/-! ## The calls of a text -/

theorem textCalls_of_andThen {K : Config} {st : Style} {x y : Nat} {text : List Nat} {t u : Pen}
    (h : renderText K st x y text = t.andThen u) : textCalls K st x y text = t.calls.reverse ++ u.calls.reverse := by
  rw [textCalls, h, Pen.andThen_calls, List.reverse_append]

theorem textCalls_singleton {K : Config} (st : Style) (x y : Nat) {ch : Nat} (hch : ch ≠ newline) {g : Glyph}
    (hg : fontGlyph K ch = some g) : textCalls K st x y [ch] = glyphCalls st g x y := by
  rw [textCalls, renderText_singleton x hch hg, List.reverse_reverse]

/-- With a background every bit of a row makes a call (R155). -/
theorem length_rowCalls_of_background {st : Style} (hbg : st.bg ≠ none) (g : Glyph) (x y row : Nat) :
    (rowCalls st g x y row).length = 8 := by
  obtain ⟨background, hbg⟩ := Option.ne_none_iff_exists'.mp hbg
  have hcall (col : Nat) : (cellCall st g x y row col).isSome := by
    rw [cellCall, hbg]
    split <;> rfl
  rw [rowCalls, List.filterMap_length_eq_length.mpr fun col _ => hcall col]
  rfl

theorem length_glyphCalls_of_background {st : Style} (hbg : st.bg ≠ none) (g : Glyph) (x y : Nat) :
    (glyphCalls st g x y).length = 64 := by
  simp [glyphCalls, length_rowCalls_of_background hbg]

/-- Settles O34: the calls of the one character, in closed form. -/
theorem glyphBlocks : Obligations.GlyphBlocks := by
  intro K st x y ch g hch hg
  rw [textCalls_singleton st x y hch hg]
  exact ⟨rfl, fun hbg => length_glyphCalls_of_background hbg g x y⟩

/-- Settles O35: the pen of a text is that of its first character, or of its first line, followed by that of the rest. -/
theorem textLayout : Obligations.TextLayout := by
  intro K st x y
  refine ⟨rfl, fun ch line hch hcovered hline => ?_, fun line rest hline => ?_⟩
  · obtain ⟨g, hg⟩ := Option.isSome_iff_exists.mp hcovered
    exact textCalls_of_andThen (renderText_cons x hch hg hline)
  · have hcalls := textCalls_of_andThen (renderText_newline (K := K) (st := st) x y hline rest)
    rwa [Pen.andThen_calls, List.nil_append] at hcalls

/-! ## The range of the cursor -/

/-- Settles O37: by induction on the line, whose next cell starts where the last one ended. -/
theorem lineWithinCursorRange : Obligations.LineWithinCursorRange := by
  intro K st x y line hline
  induction line generalizing x with
  | nil => simp [renderText]
  | cons ch line ih =>
    obtain ⟨⟨hch, hcovered⟩, hline⟩ := List.forall_mem_cons.mp hline
    obtain ⟨g, hg⟩ := Option.isSome_iff_exists.mp hcovered
    have hnewline : newline ∉ line := fun h => (hline newline h).1 rfl
    rw [renderText_cons x hch hg hnewline, renderText_singleton x hch hg, Pen.andThen_within, Bool.and_eq_true,
      ih (x + 8 * st.sx) hline]
    cases line with
    | nil => simp [fitsU16]
    | cons ch' line =>
      simp only [fitsU16, List.length_cons, Nat.mul_succ, decide_eq_true_eq, reduceCtorEq, false_or]
      omega

/-- A text of newlines whose cursor stays within `u16` ends at 65535 or before (R152, R154). -/
theorem renderText_newlines_within {K : Config} {st : Style} {x y : Nat} {text : List Nat}
    (htext : ∀ ch ∈ text, ch = newline) (hy : y ≤ 65535) (hwithin : (renderText K st x y text).within = true) :
    y + 8 * st.sy * text.length ≤ 65535 := by
  induction text generalizing y with
  | nil => simpa using hy
  | cons ch text ih =>
    obtain ⟨hch, htail⟩ := List.forall_mem_cons.mp htext
    subst hch
    have hpen : renderText K st x y (newline :: text) = _ := renderText_newline (line := []) x y List.not_mem_nil text
    rw [hpen, Pen.andThen_within, Pen.andThen_within, Bool.and_eq_true, Bool.and_eq_true] at hwithin
    obtain ⟨⟨-, hfits⟩, hrest⟩ := hwithin
    have := ih htail (of_decide_eq_true hfits).2 hrest
    rw [List.length_cons, Nat.mul_succ]
    omega

/-! ## Texts that are refused -/

theorem codeCovered_iff {K : Config} {ch : Nat} :
    codeCovered K ch = true ↔ ch = newline ∨ (fontGlyph K ch).isSome = true := by
  rw [codeCovered, Bool.or_eq_true, beq_iff_eq]

theorem codeCovered_eq_false_iff {K : Config} {ch : Nat} :
    codeCovered K ch = false ↔ ch ≠ newline ∧ fontGlyph K ch = none := by
  rw [← Bool.not_eq_true, codeCovered_iff, not_or, Option.not_isSome_iff_eq_none]

theorem find?_eq_none_of_covered {K : Config} {text : List Nat} (h : ∀ ch ∈ text, codeCovered K ch = true) :
    (text.find? fun ch => !codeCovered K ch) = none := by
  simpa [List.find?_eq_none] using h

section
variable {s : State} (hready : s.Ready) (x y : U16) {text : List Nat}
include hready

/-- The first uncovered code is named (R156). -/
theorem exec_drawText_of_not_covered (hnot : ∃ ch ∈ text, codeCovered s.K ch = false) :
    ∃ ch ∈ text, codeCovered s.K ch = false ∧ exec (.drawText x y text) s = .refused (.codeNotCovered ch) := by
  obtain ⟨ch, hfind⟩ : ∃ ch, (text.find? fun ch => !codeCovered s.K ch) = some ch :=
    Option.isSome_iff_exists.mp (List.find?_isSome.mpr (by simpa using hnot))
  have hch : (!codeCovered s.K ch) = true := List.find?_some (p := fun ch => !codeCovered s.K ch) hfind
  refine ⟨ch, List.mem_of_find?_eq_some hfind, by simpa using hch, ?_⟩
  rw [exec_host rfl hready, hostRefusal, hfind]

theorem exec_drawText_of_overflow (hcovered : ∀ ch ∈ text, codeCovered s.K ch = true)
    (hoverflow : (renderText s.K s.style x.toNat y.toNat text).within = false) :
    exec (.drawText x y text) s = .refused .cursorOverflow := by
  rw [exec_host rfl hready, hostRefusal, find?_eq_none_of_covered hcovered, hoverflow]
  rfl

/-- A text that is not refused runs the script of its calls. -/
theorem exec_drawText_of_admitted (hcovered : ∀ ch ∈ text, codeCovered s.K ch = true)
    (hwithin : (renderText s.K s.style x.toNat y.toNat text).within = true)
    (hadmitted : ∀ c ∈ textCalls s.K s.style x.toNat y.toNat text, rectAdmitted s.K c.rect = true) :
    exec (.drawText x y text) s =
      operation s (drawCalls s.K s.mode (textCalls s.K s.style x.toNat y.toNat text)) := by
  have hall := List.all_eq_true.mpr hadmitted
  rw [exec_host rfl hready, operation_of_ready hready, hostRefusal, find?_eq_none_of_covered hcovered,
    hwithin, hall, Bool.or_true]
  rfl

end

/-- Settles O36: the two refusals of `drawText` in their order; a line and a text of newlines overflow as their ranges
say. -/
theorem textOutsideSubsetRefused : Obligations.TextOutsideSubsetRefused := by
  intro s x y text hready
  have hoverflow := exec_drawText_of_overflow hready x y (text := text)
  refine ⟨fun hnot => ?_, fun hcovered hwithin => ?_, fun hline hne hpast => ?_, fun hnewlines hpast => ?_⟩
  · obtain ⟨ch, hmem, hch, hrefused⟩ := exec_drawText_of_not_covered hready x y
      (hnot.imp fun ch ⟨hmem, hch⟩ => ⟨hmem, codeCovered_eq_false_iff.mpr hch⟩)
    obtain ⟨hne, hnone⟩ := codeCovered_eq_false_iff.mp hch
    exact ⟨ch, hmem, hne, hnone, hrefused⟩
  · exact hoverflow (fun ch hmem => codeCovered_iff.mpr (hcovered ch hmem)) hwithin
  · refine hoverflow (fun ch hmem => codeCovered_iff.mpr (.inr (hline ch hmem).2)) ?_
    rw [← Bool.not_eq_true, lineWithinCursorRange s.K s.style x.toNat y.toNat text hline]
    rintro (rfl | hfits)
    · exact hne rfl
    · omega
  · refine hoverflow (fun ch hmem => codeCovered_iff.mpr (.inl (hnewlines ch hmem))) ?_
    rw [← Bool.not_eq_true]
    intro hwithin
    exact Nat.not_le.mpr hpast (renderText_newlines_within hnewlines (Nat.le_of_lt_succ y.isLt) hwithin)

/-! ## An admitted text -/

/-- The calls of a text, each a full `drawSolidRect` (R150, R155). -/
theorem drawCalls_spec {K : Config} (hK : K.Wf) {m : Mode} (hm : m ≠ .unset) {calls : List DrawCall}
    (hcalls : ∀ c ∈ calls, 1 ≤ c.rect.w ∧ 1 ≤ c.rect.h) :
    scriptEvents (drawCalls K m calls) = calls.flatMap (fun c => rectEvents K m (clamp K c.rect) c.color) ∧
    transfers (drawCalls K m calls) = (calls.map fun c => rectTransfers K m c.rect).sum := by
  have ⟨hW, hH, _⟩ := hK
  induction calls with
  | nil => exact ⟨rfl, rfl⟩
  | cons c calls ih =>
    obtain ⟨⟨hw, hh⟩, hcalls⟩ := List.forall_mem_cons.mp hcalls
    obtain ⟨hevents, htransfers⟩ := ih hcalls
    obtain ⟨hrectEvents, hrectTransfers, -⟩ := streamRect_spec hW hH hm c.color hw hh
    have hscript : drawCalls K m (c :: calls) = streamRect K m c.rect c.color ++ drawCalls K m calls := by
      rw [← drawSolidRect_of_set hm]
      rfl
    rw [hscript, scriptEvents_append, transfers_append, hevents, htransfers, hrectEvents, hrectTransfers]
    exact ⟨rfl, rfl⟩

theorem foldl_drawCalls_mode (K : Config) (m : Mode) (calls : List DrawCall) (s : State) :
    ((drawCalls K m calls).foldl Act.apply s).mode = s.mode := by
  have hstores : Stores [] true (drawCalls K m calls) := .flatMap fun c _ => stores_drawSolidRect K m c.rect c.color
  exact (foldl_apply_mode_of_stores hstores s).resolve_right List.not_mem_nil

/-- Settles O33: the text is admitted, and its script is that of its calls, which store to the latches alone. -/
theorem drawTextDrawsItsBlocks : Obligations.DrawTextDrawsItsBlocks := by
  intro s x y text hK hready hm hsx hsy hcovered hwithin calls evs n hlink
  have hcalls := renderText_admitted (K := s.K) hsx hsy hwithin
  have hpixels : ∀ c ∈ calls, 1 ≤ c.rect.w ∧ 1 ≤ c.rect.h := fun c hc =>
    have ⟨hw, hh, _⟩ := hcalls c hc
    ⟨hw, hh⟩
  have hadmitted : ∀ c ∈ calls, rectAdmitted s.K c.rect = true := fun c hc =>
    have ⟨_, _, h⟩ := hcalls c hc
    h
  obtain ⟨hevents, htransfers⟩ := drawCalls_spec hK hm hpixels
  have hexec := exec_drawText_of_admitted hready x y (List.all_eq_true.mp hcovered) hwithin hadmitted
  have hdone := operation_of_carries (acts := drawCalls s.K s.mode calls) hready (htransfers ▸ hlink)
  rw [foldl_drawCalls_mode, hevents, htransfers, ← hexec] at hdone
  exact ⟨_, hdone⟩

/-! ## The style setters -/

/-- Settles O38: an operation with an empty script only answers; a scale of 0 is refused as an operand. -/
theorem styleSetters : Obligations.StyleSetters := by
  intro s hready
  have hset (st : Style) : { s with style := st }.operate [] none =
      { s with style := st, responses := s.responses ++ [.done none] } := by
    rw [operate_nil, ← hready.1]
  refine ⟨fun color => ?_, fun bg => ?_, fun sx sy hsx hsy => ?_, fun sx sy hzero => ?_⟩
  · exact (exec_host rfl hready).trans (congrArg _ (hset _))
  · exact (exec_host rfl hready).trans (congrArg _ (hset _))
  · have hnone : hostRefusal s (.setPixelScale sx sy) = none := if_pos (by bv_omega)
    rw [exec_host rfl hready, hnone]
    exact congrArg _ (hset _)
  · have hrefusal : hostRefusal s (.setPixelScale sx sy) = some .zeroScale := if_neg (by bv_omega)
    rw [exec_host rfl hready, hrefusal]

end Sys2Proof.Machine

/-! SUPPORT. The exception, 60_exceptions.md: which operations can take `LinkFault` (R166), what taking it leaves at whichever
transfer of whichever request (R165, R167, R168), and that nothing follows it (R169). A script of whole frames is carried out
whole or is cut inside one frame, so that the request's events split into those before that frame, the frame, and the rest. -/

namespace Sys2Proof.Machine

/-! ## Operations that cannot fault -/

/-- A ready block whose link carries the script of an operation is ready after it. -/
theorem operate_ready_of_carries {s : State} {acts : List Act} (v : Option Mode) (hfault : s.fault = false)
    (hlink : s.linkCarries (transfers acts) = true) : (s.operate acts v).Ready :=
  operate_ready v hfault (by rw [progress_of_carries hlink])

/-- Settles O44: the link carries a script without a transfer, and every script when it never fails; and a row of the wire
changes the sink alone. -/
theorem onlyTransfersFault : Obligations.OnlyTransfersFault := by
  intro i s t h hcase
  cases hi : i.isHost with
  | false =>
    rw [exec_wire_next hi h]
    exact ⟨rfl, rfl⟩
  | true =>
    obtain ⟨⟨hbusy, hfault⟩, -, rfl⟩ := exec_host_next hi h
    have hcarries : s.linkCarries (transfers (hostScript s i)) = true := by
      rcases hcase with rfl | rfl | ⟨on, rfl⟩ | ⟨c, rfl⟩ | ⟨b, rfl⟩ | ⟨a, b, rfl⟩ | hnever
      on_goal 7 => rw [State.linkCarries, hnever]
      all_goals exact s.linkCarries_zero
    have hready := operate_ready_of_carries (s := { s with style := hostStyle s.style i }) (hostValue s i) hfault hcarries
    exact ⟨hready.2.trans hfault.symm, hready.1.trans hbusy.symm⟩

/-! ## A block that has stopped -/

/-- A step of a block that is not ready is the sink's: nothing of the block changes but that a pending request or a frame may
have been taken (R169, R23). -/
theorem step_of_not_ready {s t : State} (hs : ¬s.Ready) (h : step s = .next t) :
    t = { s with wire := t.wire, requests := t.requests, sink := t.sink } := by
  have hrun {i : Instr} {s' u : State} (hs' : ¬s'.Ready) (hu : exec i s' = .next u) :
      u.settle = { s' with sink := u.settle.sink } := by
    cases hi : i.isHost with
    | true => exact absurd (exec_host_next hi hu).1 hs'
    | false => rw [State.settle_eq, exec_wire_next hi hu]
  rcases step_cases h with ⟨bracket, rest, i, u, -, -, hu, rfl⟩ | ⟨r, rest, i, u, -, -, -, hu, rfl⟩ | ⟨-, -, hready, -⟩
  · rw [hrun (s' := s.takeFrame rest) hs hu]
    rfl
  · rw [hrun (s' := { s with requests := rest }) hs hu]
  · exact absurd hready hs

/-- After the end of a step that leaves the block stopped with no frame to read, the command under way has been closed. -/
theorem State.settle_closes_command {u : State} (hstop : u.settle.fault = true ∨ u.settle.busy = true)
    (hw : nextFrame u.settle.wire = none) : u.settle.sink.closeCommand u.settle.K = u.settle.sink := by
  rw [State.settle_fault, State.settle_busy] at hstop
  rw [State.settle_wire] at hw
  rw [State.settle_closed hstop.symm hw, State.settle_K, Sink.closeCommand_closeCommand]

/-- After a step that leaves the block stopped with no frame to read, the command under way has been closed
(70_reset_and_hazards.md R196, log entry 29). -/
theorem step_closes_command {s t : State} (h : step s = .next t) (hstop : t.fault = true ∨ t.busy = true)
    (hw : nextFrame t.wire = none) : t.sink.closeCommand t.K = t.sink := by
  rcases step_cases h with ⟨bracket, rest, i, u, -, -, -, rfl⟩ | ⟨r, rest, i, u, -, -, -, -, rfl⟩ | ⟨-, -, ⟨hb, hf⟩, rfl⟩
  · exact State.settle_closes_command hstop hw
  · exact State.settle_closes_command hstop hw
  · simp [hb, hf] at hstop

/-- Settles O43: the step is the sink's, and it has closed the command under way. -/
theorem faultIsTerminal : Obligations.FaultIsTerminal := by
  constructor
  · intro s t hfault h
    rw [step_of_not_ready (by simp [hfault]) h]
    exact ⟨hfault, rfl, rfl, rfl, rfl⟩
  · intro s t h hstop hw hlen
    have hclosed := step_closes_command h hstop hw
    constructor
    · intro hl
      rw [← hclosed, Sink.closeCommand_of_caset hlen hl]
      exact ⟨rfl, rfl⟩
    · intro hK hl
      rw [← hclosed, Sink.closeCommand_of_raset hK hlen hl]
      exact ⟨rfl, rfl⟩

/-! ## An operation and its fault-free run -/

/-- A script that ended as completed was carried out whole. -/
theorem progress_of_completed {link : Option LinkFailure} {acts : List Act}
    (h : (progress link acts).ending = .completed) : ∃ l, progress link acts = ⟨acts, .completed, l⟩ := by
  rcases progress_cases link acts with hp | ⟨f, pre, bs, post, -, -, hp⟩
  · exact hp
  · rw [hp] at h
    cases hhangs : f.hangs <;> simp [hhangs] at h

/-- What a script does to the state does not depend on the link. -/
theorem foldl_apply_link_comm (s : State) (acts : List Act) (l : Option LinkFailure) :
    acts.foldl Act.apply { s with link := l } = { (acts.foldl Act.apply s) with link := l } := by
  induction acts generalizing s with
  | nil => rfl
  | cons a rest ih => rw [List.foldl_cons, List.foldl_cons, ← ih]; cases a <;> rfl

/-- An operation that ends neither faulted nor hung is its fault-free run, but for what is left of the environment's
choice. -/
theorem operate_of_ready {s : State} {acts : List Act} {v : Option Mode} (hfault : s.fault = false)
    (hready : (s.operate acts v).Ready) :
    { s.operate acts v with link := none } = ({ s with link := none } : State).operate acts v := by
  have hcompleted : (progress s.link acts).ending = .completed := by
    by_contra hcut
    exact operate_stopped v hfault hcut (hready.1.trans hready.2.symm)
  obtain ⟨l, hp⟩ := progress_of_completed hcompleted
  have hfree : progress none acts = ⟨acts, .completed, none⟩ := rfl
  have hcomm := foldl_apply_link_comm { s with busy := true } acts none
  simp only [State.operate, hp, hfree, State.carryOut, State.finish, hcomm]
  rfl

/-- Whatever the environment chooses, the trace of an operation is a beginning of its fault-free trace (R167). -/
theorem operate_trace_prefix (s : State) (acts : List Act) (v : Option Mode) :
    (s.operate acts v).trace <+: (({ s with link := none } : State).operate acts v).trace := by
  obtain ⟨-, -, -, -, htrace, -⟩ := operate_fields s acts v
  obtain ⟨-, -, -, -, hwhole, -⟩ := operate_fields { s with link := none } acts v
  rw [htrace, hwhole]
  exact (List.prefix_append_right_inj s.trace).mpr (progress_events_prefix s.link acts)

/-- Settles O41: the refusal does not depend on the link, and what is carried out is a beginning of the script. -/
theorem faultTraceIsABeginning : Obligations.FaultTraceIsABeginning := by
  intro i s hi hready
  have hfree := exec_host (s := { s with link := none }) hi hready
  rw [hostRefusal_link] at hfree
  cases hrefusal : hostRefusal s i with
  | some r =>
    have hexec : exec i s = .refused r := by rw [exec_host hi hready, hrefusal]
    rw [hrefusal] at hfree
    rw [hexec, hfree]
    exact ⟨fun _ => Iff.rfl, fun t ht => by cases ht⟩
  | none =>
    rw [exec_host hi hready, hrefusal, hfree, hrefusal]
    refine ⟨fun r => by simp, fun t ht => ⟨_, rfl, ?_⟩⟩
    obtain rfl := Host.Outcome.next.inj ht
    have hframe (l : Option LinkFailure) :=
      operate_fields { s with style := hostStyle s.style i, link := l } (hostScript s i) (hostValue s i)
    obtain ⟨hK, hstyle, hrequests, hsink, -⟩ := hframe s.link
    obtain ⟨hK', hstyle', hrequests', hsink', -⟩ := hframe none
    have hfreeReady := operate_ready_of_carries (s := { s with style := hostStyle s.style i, link := none })
      (acts := hostScript s i) (hostValue s i) hready.2 rfl
    exact ⟨operate_trace_prefix _ _ _, hfreeReady.2, hfreeReady.1, hK.trans hK'.symm, hstyle.trans hstyle'.symm,
      hsink.trans hsink'.symm, hrequests.trans hrequests'.symm, fun hfault hbusy =>
        operate_of_ready (s := { s with style := hostStyle s.style i }) hready.2 ⟨hbusy, hfault⟩⟩

/-! ## Taking the exception -/

/-- A framed script with more than `f.after` transfers, whose next one fails, stops inside that transfer's frame, which
splits the script's events. -/
theorem Framed.progress_failed {acts : List Act} (h : Framed acts) {f : LinkFailure} (hhangs : f.hangs = false)
    (hn : f.after < transfers acts) :
    ∃ before kind bs rest,
      scriptEvents acts = scriptEvents before ++ frameEvents kind bs ++ scriptEvents rest ∧
      frameCount (scriptEvents before) = f.after ∧
      progress (some f) acts = ⟨before ++ [.emit (.cs false), .emit (.dc kind), .xfer (bs.take f.sent)],
        .failed (bs.take f.sent).length, none⟩ := by
  obtain ⟨before, kind, bs, rest, rfl, hbefore, htransfers, hcut⟩ := h.cut f hn
  refine ⟨before, kind, bs, rest, ?_, hbefore.frameCount_eq.trans htransfers, by simp [progress, hcut, hhangs]⟩
  simp [scriptEvents, Act.events, frameEvents]

/-- The events that a request adds to the trace when no transfer fails, and that it is not refused then whatever the link
does. -/
theorem exec_host_fault_free {i : Instr} {s u : State} {evs : List Event} (hi : i.isHost = true)
    (h : exec i { s with link := none } = .next u) (htrace : u.trace = s.trace ++ evs) :
    hostRefusal s i = none ∧ evs = scriptEvents (hostScript s i) := by
  obtain ⟨-, hrefusal, -⟩ := exec_host_next hi h
  have hscript := exec_host_trace_of_linkNeverFails (s := { s with link := none }) hi rfl h
  exact ⟨hrefusal, List.append_cancel_left (htrace.symm.trans hscript)⟩

/-- The operation of a single frame, whose transfer fails after `k` bytes (R165, R168). -/
theorem operate_frame_of_failed {s : State} {k : Nat} (hlink : s.link = some ⟨0, k, false⟩) (kind : Bit) (bs : List Byte)
    (v : Option Mode) :
    s.operate [.emit (.cs false), .emit (.dc kind), .xfer bs, .emit (.cs true)] v = { s with
      pins := { s.pins with cs := false, dc := kind }
      trace := s.trace ++ ([.cs false, .dc kind] ++ (bs.take k).map .tx)
      wire := s.wire ++ ([.cs false, .dc kind] ++ (bs.take k).map .tx)
      fault := true
      busy := false
      link := none
      responses := s.responses ++ [.fault s.trace.length] } := by
  refine operate_of_failed (before := []) (bs := bs.take k) (link := none) v ?_
  rw [hlink]
  rfl

/-- Settles O39: the script is cut inside the frame of the transfer that fails; a primitive of the link is one frame. -/
theorem linkFaultEntry : Obligations.LinkFaultEntry := by
  constructor
  · intro i s u evs f hi hready hlink hhangs hu htrace hafter
    obtain ⟨hrefusal, rfl⟩ := exec_host_fault_free hi hu htrace
    have hframed := framed_hostScript s i
    rw [hframed.frameCount_eq] at hafter
    obtain ⟨before, kind, bs, rest, hevents, hframes, hprogress⟩ := hframed.progress_failed hhangs hafter
    have hexec : exec i s = .next (s.operate (hostScript s i) (hostValue s i)) := by
      rw [exec_host hi hready, hrefusal, hostStyle_of_transfers (Nat.zero_lt_of_lt hafter) s.style]
    rw [operate_of_failed _ (hlink ▸ hprogress), ← List.append_assoc (scriptEvents before)] at hexec
    exact ⟨_, _, kind, bs, _, hevents, hframes, hexec, rfl, rfl, rfl, rfl, rfl, rfl, rfl, rfl, rfl, rfl, rfl⟩
  · intro s k hready hlink
    constructor
    · intro bytes
      have hexec : exec (.sendData bytes) s = .next (s.operate (sendData bytes) none) := operation_of_ready hready _
      rw [hexec, sendData, operate_frame_of_failed hlink]
    · intro code
      have hexec : exec (.sendCommand code) s = .next (s.operate (sendCommand code) none) := operation_of_ready hready _
      rw [hexec, sendCommand, operate_frame_of_failed hlink]

end Sys2Proof.Machine

/-! SUPPORT. From `bringUp` to the controller, 70_reset_and_hazards.md R187: the frames of its ten steps (44_lifecycle.md
R145), read by the sink. Between some of them stand events that are no frame, which the scanner passes over: the reset pulse
of step 1, the delay of step 2 and the backlight of step 9. The setup of steps 3 to 7 fixes the controller's pixel format and
opens no stream; the fill of step 8 programs the window of the surface and opens the one stream. -/

namespace Sys2Proof.Machine

/-! ## Events between the frames -/

/-- The scanner finds no frame in `gap`, and goes on behind it (20_memory.md R48). -/
def PassedOver (gap : List Event) : Prop := ∀ evs, nextFrame (gap ++ evs) = nextFrame evs

/-- The chip-select bracket of a hardware reset is no frame (44_lifecycle.md R135). -/
theorem passedOver_hardReset : PassedOver (scriptEvents hardReset) := fun _ => rfl

theorem passedOver_delay (ms : Nat) : PassedOver [.delay ms] := fun _ => rfl

theorem passedOver_bl (on : Bit) : PassedOver [.bl on] := fun _ => rfl

/-- Without a reset pulse the events between two frames tell the sink nothing (R193 (a)). -/
theorem Sink.passLines_of_no_pulse {evs : List Event} (h : .rst false ∉ evs) (z : Sink) : z.passLines evs = z := if_neg h

theorem Sink.passLines_append (gap evs : List Event) (z : Sink) :
    z.passLines (gap ++ evs) = (z.passLines gap).passLines evs := by
  simp only [Sink.passLines_eq, List.mem_append]
  by_cases hgap : Event.rst false ∈ gap <;> simp [hgap]

theorem WireFrame.nextFrame_events (f : WireFrame) (rest : List Event) :
    ∃ bracket, nextFrame (f.events ++ rest) = some (bracket, rest) := by
  cases f with
  | command c => exact ⟨_, nextFrame_cmd c rest⟩
  | data bs => exact ⟨_, nextFrame_data bs rest⟩

/-- A step that finds a frame behind a gap is the step of a sink that has passed over the gap already. -/
theorem step_of_gap {s : State} {gap evs rest bracket : List Event} (hgap : PassedOver gap) (hw : s.wire = gap ++ evs)
    (hframe : nextFrame evs = some (bracket, rest)) :
    step s = step { s with wire := evs, sink := s.sink.passLines gap } := by
  have hrest : rest.length ≤ evs.length := (nextBracket_suffix hframe).length_le
  have htaken : s.wire.take (s.wire.length - rest.length) = gap ++ evs.take (evs.length - rest.length) := by
    rw [hw, List.length_append, Nat.add_sub_assoc hrest, List.take_length_add_append]
  have hfound : nextFrame s.wire = some (bracket, rest) := by rw [hw, hgap, hframe]
  have htake : s.takeFrame rest = State.takeFrame { s with wire := evs, sink := s.sink.passLines gap } rest := by
    rw [State.takeFrame, htaken, Sink.passLines_append]
    rfl
  simp only [step, fetch, hfound, hframe, fetchFrame, htake]

theorem run_add_of_next {M : Host.Core} {s t : M.State} {j : Nat} (k : Nat) (h : M.run j s = .next t) :
    M.run (j + k) s = M.run k t := by
  induction j generalizing s with
  | zero =>
    cases h
    rw [Nat.zero_add]
  | succ j ih =>
    rw [Nat.succ_add]
    cases hstep : M.step s with
    | next u =>
      rw [run_succ_of_step j hstep] at h
      rw [run_succ_of_step (j + k) hstep, ih h]
    | fault r => simp [Host.Core.run, hstep] at h
    | refused r => simp [Host.Core.run, hstep] at h

/-- A ready block's sink passes over a gap and reads the frames behind it, one per step, before `k` more steps (R48, log
entry 9). -/
theorem run_wireFrames_after_gap {s : State} {gap : List Event} {frames : List WireFrame} (k : Nat) (rest : List Event)
    (z : Sink) (hK : s.K.Wf) (hready : s.Ready) (hgap : PassedOver gap) (hframes : frames ≠ []) :
    Sys2Proof.core.run (frames.length + k)
        { s with wire := gap ++ (frames.flatMap WireFrame.events ++ rest), sink := z } =
      Sys2Proof.core.run k
        { s with wire := rest, sink := frames.foldl (Sink.receive s.K s.mode) (z.passLines gap) } := by
  obtain ⟨f, frames, rfl⟩ := List.exists_cons_of_ne_nil hframes
  rw [List.flatMap_cons, List.append_assoc]
  obtain ⟨bracket, hframe⟩ := f.nextFrame_events (frames.flatMap WireFrame.events ++ rest)
  have hstep := (step_of_gap (s := { s with wire := _, sink := z }) hgap rfl hframe).trans
    (step_of_wireFrame (s := { s with wire := _, sink := z.passLines gap }) hK hready rfl)
  rw [List.length_cons, Nat.succ_add, run_succ_of_step (M := Sys2Proof.core) _ hstep]
  exact run_add_of_next (M := Sys2Proof.core) k (run_wireFrames (s := { s with wire := _, sink := _ }) hK hready rfl)

/-! ## The commands of the setup -/

section
variable {K : Config} (hK : K.Wf) (m : Mode) (z : Sink)
include hK

/-- The software reset opens no stream. -/
theorem Sink.receive_swreset_streams : (z.receive K m (.command K.CMD_SWRESET)).streams = z.streams := by
  have hcommand : z.command K m K.CMD_SWRESET = _ :=
    Sink.command_of_row hK (ic := (.cmdSwreset, K.CMD_SWRESET)) (by simp [commandRows]) m z
  simp [hcommand, Sink.arrive]

/-- A command that neither resets the controller, nor sets its format, nor opens a stream is latched (R48). -/
theorem Sink.receive_of_plain {i : Instr} {c : Byte} (hrow : (i, c) ∈ commandRows K)
    (hplain : i ∉ [.cmdSwreset, .cmdColmod, .cmdRamwr]) :
    z.receive K m (.command c) = { z.closeCommand K with latched := some c, params := [] } := by
  have hcommand : z.command K m c = _ := Sink.command_of_row hK hrow m z
  simp only [List.mem_cons, List.not_mem_nil, not_or] at hplain
  simp [hcommand, Sink.arrive, hplain]

/-- The colour-mode command, and its byte (R193). -/
theorem Sink.receive_colorMode (b : Byte) :
    (z.receive K m (.command K.CMD_COLMOD)).receive K m (.data [b]) =
      { z.closeCommand K with latched := some K.CMD_COLMOD, params := [b], format := some b } := by
  have hcommand : z.command K m K.CMD_COLMOD = _ :=
    Sink.command_of_row hK (ic := (.cmdColmod, K.CMD_COLMOD)) (by simp [commandRows]) m z
  rw [Sink.receive_command, hcommand, Sink.receive_data, Sink.data_of_colmod hK (by simp) rfl]
  simp [Sink.arrive, Sink.formatData]

/-- The rotation command, and its byte. -/
theorem Sink.receive_rotation (b : Byte) :
    (z.receive K m (.command K.CMD_MADCTL)).receive K m (.data [b]) =
      { z.closeCommand K with latched := some K.CMD_MADCTL, params := [b] } := by
  rw [Sink.receive_of_plain hK m z (i := .cmdMadctl) (by simp [commandRows]) (by simp), Sink.receive_data,
    Sink.data_of_madctl hK (by simp) rfl]
  rfl

end

/-- The frames of steps 3 to 7 of `bringUp` (44_lifecycle.md R145). -/
def setupFrames (K : Config) : List WireFrame :=
  [.command K.CMD_SLPOUT, .command K.CMD_COLMOD, .data [modeByte K K.INIT_MODE], .command K.CMD_MADCTL,
    .data [rotByte K K.INIT_ROT], .command K.CMD_INVON, .command K.CMD_NORON]

/-- The setup sets the controller's pixel format and opens no stream. -/
theorem foldl_receive_setupFrames {K : Config} (hK : K.Wf) (m : Mode) (z : Sink) :
    let z' := (setupFrames K).foldl (Sink.receive K m) z
    z'.format = some (modeByte K K.INIT_MODE) ∧ z'.streams = z.streams := by
  simp only [setupFrames, List.foldl_cons, List.foldl_nil]
  rw [Sink.receive_of_plain hK m _ (i := .cmdNoron) (by simp [commandRows]) (by simp),
    Sink.receive_of_plain hK m _ (i := .cmdInvon) (by simp [commandRows]) (by simp), Sink.receive_rotation hK,
    Sink.receive_colorMode hK, Sink.receive_of_plain hK m _ (i := .cmdSlpout) (by simp [commandRows]) (by simp)]
  simp

/-! ## The fill of the surface -/

/-- The frames of the whole surface, whose last column and last row are `WIDTH - 1` and `HEIGHT - 1` (43_rasterizer.md
R125). -/
theorem rectFrames_surface {K : Config} (hW : 1 ≤ K.WIDTH.toNat) (hH : 1 ≤ K.HEIGHT.toNat) (m : Mode) (color : U32) :
    rectFrames K m (surface K) color = windowFrames K 0 0 (K.WIDTH - 1) (K.HEIGHT - 1) ++
      List.replicate (pixelFrames K m (K.WIDTH.toNat * K.HEIGHT.toNat)) (.data (pack m color)) := by
  simp only [rectFrames, surface, ofNat_toNat_sub_one hW, ofNat_toNat_sub_one hH]
  rfl

/-- Equal data frames for a stream of equal pixels lengthen it, in every mode: the empty pixels of 12-bit mode too. -/
theorem foldl_receive_pixels_streams {K : Config} {z : Sink} {streams : List Stream} {xs xe ys ye : U16} {mode : Mode}
    {bs : List Byte} {k : Nat} (hK : K.Wf) (m : Mode) (n : Nat) (hl : z.latched = some K.CMD_RAMWR)
    (hs : z.streams = streams ++ [.uniform xs xe ys ye mode bs k]) :
    ((List.replicate n (WireFrame.data bs)).foldl (Sink.receive K m) z).streams =
      streams ++ [.uniform xs xe ys ye mode bs (n + k)] := by
  induction n generalizing z k with
  | zero => rwa [Nat.zero_add]
  | succ n ih =>
    have hdata : (z.data K bs).streams = streams ++ [.uniform xs xe ys ye mode bs (k + 1)] := by
      rw [Stream.uniform_succ]
      by_cases hbs : bs = []
      · simp [hbs, hs]
      · rw [Sink.data_of_stream hK hbs hl hs]
    rw [Nat.succ_add_eq_add_succ]
    exact ih (z := z.data K bs) ((Sink.data_latched K bs z).trans hl) hdata

/-- The frames of the whole surface: its window, the one stream, and the pixel format as it was. -/
theorem foldl_receive_surfaceFrames {K : Config} (hK : K.Wf) (m : Mode) (color : U32) (z : Sink) :
    let n := pixelFrames K m (K.WIDTH.toNat * K.HEIGHT.toNat)
    let z' := (rectFrames K m (surface K) color).foldl (Sink.receive K m) z
    z'.latched = some K.CMD_RAMWR ∧ z'.window = (some 0, some 0, some (K.WIDTH - 1), some (K.HEIGHT - 1)) ∧
      z'.format = z.format ∧
      z'.streams = z.streams ++ [.uniform 0 (K.WIDTH - 1) 0 (K.HEIGHT - 1) m (pack m color) n] := by
  intro n z'
  have ⟨hW, hH, _⟩ := hK
  have hz' : z' = (List.replicate n (WireFrame.data (pack m color))).foldl (Sink.receive K m)
      (z.armed K m 0 0 (K.WIDTH - 1) (K.HEIGHT - 1)) := by
    rw [← foldl_receive_windowFrames hK, ← List.foldl_append, ← rectFrames_surface hW hH]
  obtain ⟨hlatched, hwindow, hformat⟩ := foldl_receive_pixels hK m n (pack m color)
    (z := z.armed K m 0 0 (K.WIDTH - 1) (K.HEIGHT - 1)) rfl
  have hstreams := foldl_receive_pixels_streams hK m n (z := z.armed K m 0 0 (K.WIDTH - 1) (K.HEIGHT - 1))
    (bs := pack m color) (k := 0) rfl rfl
  rw [hz']
  exact ⟨hlatched, hwindow, hformat, hstreams⟩

/-! ## The ten steps, read by the sink -/

/-- The frames of steps 3 to 8, between which nothing stands. -/
def fillFrames (K : Config) : List WireFrame := setupFrames K ++ rectFrames K K.INIT_MODE (surface K) K.INIT_COLOR

/-- The sink after all the frames of `bringUp`; `m` is the block's `MODE`. -/
def Sink.broughtUp (K : Config) (m : Mode) (z : Sink) : Sink :=
  ((fillFrames K).foldl (Sink.receive K m)
    ((z.passLines (scriptEvents hardReset)).receive K m (.command K.CMD_SWRESET))).receive K m (.command K.CMD_DISPON)

theorem length_fillFrames (K : Config) :
    (fillFrames K).length = 12 + pixelFrames K K.INIT_MODE (K.WIDTH.toNat * K.HEIGHT.toNat) := by
  rw [fillFrames, List.length_append, length_rectFrames]
  simp only [setupFrames, surface, List.length_cons, List.length_nil]
  omega

/-- The events of `bringUp` are its frames with the three gaps. -/
theorem scriptEvents_bringUp_frames {K : Config} (hK : K.Wf) : scriptEvents (bringUp K) =
    scriptEvents hardReset ++ ([WireFrame.command K.CMD_SWRESET].flatMap WireFrame.events ++
      ([.delay 150] ++ ((fillFrames K).flatMap WireFrame.events ++
        ([.bl true] ++ ([WireFrame.command K.CMD_DISPON].flatMap WireFrame.events ++ []))))) := by
  rw [scriptEvents_bringUp hK, fillFrames, List.flatMap_append, events_rectFrames]
  simp only [scriptEvents_softReset, List.append_assoc]
  rfl

/-- With the events of `bringUp` on the wire, a ready block's sink reads their `14 + n` frames. -/
theorem run_bringUp_frames {t : State} {frames : Nat} (hK : t.K.Wf) (hready : t.Ready)
    (hw : t.wire = scriptEvents (bringUp t.K))
    (hframes : frames = 14 + pixelFrames t.K t.K.INIT_MODE (t.K.WIDTH.toNat * t.K.HEIGHT.toNat)) :
    Sys2Proof.core.run frames t = .next { t with wire := [], sink := t.sink.broughtUp t.K t.mode } := by
  have hcount : frames = [WireFrame.command t.K.CMD_SWRESET].length + ((fillFrames t.K).length +
      ([WireFrame.command t.K.CMD_DISPON].length + 0)) := by
    rw [hframes, length_fillFrames, List.length_singleton, List.length_singleton]
    omega
  have hfill : fillFrames t.K ≠ [] := by simp [fillFrames, setupFrames]
  have ht : t = { t with wire := scriptEvents (bringUp t.K) } := by rw [← hw]
  rw [scriptEvents_bringUp_frames hK] at ht
  rw [hcount]
  refine (congrArg (Sys2Proof.core.run _) ht).trans ?_
  refine (run_wireFrames_after_gap _ _ _ hK hready passedOver_hardReset (List.cons_ne_nil _ _)).trans ?_
  refine (run_wireFrames_after_gap _ _ _ hK hready (passedOver_delay 150) hfill).trans ?_
  refine (run_wireFrames_after_gap _ _ _ hK hready (passedOver_bl true) (List.cons_ne_nil _ _)).trans ?_
  rw [Sink.passLines_of_no_pulse (by simp), Sink.passLines_of_no_pulse (by simp)]
  rfl

/-- A `bringUp` that the link carries, and then as many steps as it has frames: the sink has received them, and the wire
is empty. -/
theorem run_bringUp {s t : State} (hK : s.K.Wf) (hwire : s.wire = [])
    (hlink : s.linkCarries (14 + pixelFrames s.K s.K.INIT_MODE (s.K.WIDTH.toNat * s.K.HEIGHT.toNat)) = true)
    (ht : exec .bringUp s = .next t) :
    Sys2Proof.core.run (14 + pixelFrames s.K s.K.INIT_MODE (s.K.WIDTH.toNat * s.K.HEIGHT.toNat)) t =
      .next { t with wire := [], sink := s.sink.broughtUp s.K s.K.INIT_MODE } := by
  obtain ⟨hready, -⟩ := exec_host_next rfl ht
  have hdone : exec .bringUp s = _ := operation_of_carries hready (transfers_bringUp hK ▸ hlink)
  rw [foldl_bringUp_mode, hwire, List.nil_append] at hdone
  obtain rfl := Host.Outcome.next.inj (ht.symm.trans hdone)
  exact run_bringUp_frames hK hready rfl rfl

/-- The setup and the fill: the format is that of the setup, the window and the new stream are those of the fill. -/
theorem foldl_receive_fillFrames {K : Config} (hK : K.Wf) (z : Sink) :
    let z' := (fillFrames K).foldl (Sink.receive K K.INIT_MODE) z
    z'.latched = some K.CMD_RAMWR ∧ z'.window = (some 0, some 0, some (K.WIDTH - 1), some (K.HEIGHT - 1)) ∧
      z'.format = some (modeByte K K.INIT_MODE) ∧
      z'.streams = z.streams ++ [.uniform 0 (K.WIDTH - 1) 0 (K.HEIGHT - 1) K.INIT_MODE (pack K.INIT_MODE K.INIT_COLOR)
        (pixelFrames K K.INIT_MODE (K.WIDTH.toNat * K.HEIGHT.toNat))] := by
  obtain ⟨hformat, hstreams⟩ := foldl_receive_setupFrames hK K.INIT_MODE z
  rw [fillFrames, List.foldl_append, ← hformat, ← hstreams]
  exact foldl_receive_surfaceFrames hK K.INIT_MODE K.INIT_COLOR _

/-- The sink after `bringUp`, whatever it was: display-on closes nothing after a memory write. -/
theorem Sink.broughtUp_spec {K : Config} (hK : K.Wf) (z : Sink) :
    (z.broughtUp K K.INIT_MODE).window = (some 0, some 0, some (K.WIDTH - 1), some (K.HEIGHT - 1)) ∧
    (z.broughtUp K K.INIT_MODE).latched = some K.CMD_DISPON ∧
    (z.broughtUp K K.INIT_MODE).format = some (modeByte K K.INIT_MODE) ∧
    (z.broughtUp K K.INIT_MODE).streams = z.streams ++ [.uniform 0 (K.WIDTH - 1) 0 (K.HEIGHT - 1) K.INIT_MODE
      (pack K.INIT_MODE K.INIT_COLOR) (pixelFrames K K.INIT_MODE (K.WIDTH.toNat * K.HEIGHT.toNat))] := by
  obtain ⟨hlatched, hwindow, hformat, hstreams⟩ := foldl_receive_fillFrames hK
    ((z.passLines (scriptEvents hardReset)).receive K K.INIT_MODE (.command K.CMD_SWRESET))
  rw [Sink.receive_swreset_streams hK, Sink.passLines_streams] at hstreams
  rw [Sink.broughtUp, Sink.receive_of_plain hK _ _ (i := .cmdDispon) (by simp [commandRows]) (by simp),
    Sink.closeCommand_of_complete (Sink.complete_of_ramwr hK hlatched)]
  exact ⟨hwindow, rfl, hformat, hstreams⟩

/-- Settles O60: the setup fixes the pixel format, the fill the window and the stream, and display-on is latched last. -/
theorem bringUpReachesTheSink : Obligations.BringUpReachesTheSink := fun s _ hK _ hwire hlink ht =>
  ⟨_, run_bringUp hK hwire hlink ht, Sink.broughtUp_spec hK s.sink⟩

end Sys2Proof.Machine
